-- ==== Sys2Proof/Word.lean ====
section
/-! DEFINITION. Words of the LED-TX core: the byte, the command word, and a register of three bytes indexed by buffer position
(spec/00_scope.md R11, R14; spec/10_state.md R21 to R25). -/

namespace Sys2Proof

/-- A byte: 8 bits, a value in 0..255 (00_scope.md R11). -/
abbrev Byte := BitVec 8

/-- A buffer address, `AW` = 32 bits (20_memory.md R60). -/
abbrev Addr := BitVec 32

/-- The command word `CMD_WORD[95:0]` (30_encoding.md R80). -/
abbrev CmdWord := BitVec 96

/-- Three bytes, one per buffer position: position 0 is R, 1 is G, 2 is B (00_scope.md R14, 41_dither_scale.md R120). -/
structure Triple where
  b0 : Byte
  b1 : Byte
  b2 : Byte
deriving DecidableEq, Repr

/-- Element `c` of a register array (00_scope.md R12). -/
def Triple.get (t : Triple) : Fin 3 → Byte
  | 0 => t.b0
  | 1 => t.b1
  | 2 => t.b2

/-- Write of element `c` of a register array; the others keep their value (00_scope.md R12). -/
def Triple.set (t : Triple) (c : Fin 3) (v : Byte) : Triple :=
  match c with
  | 0 => { t with b0 := v }
  | 1 => { t with b1 := v }
  | 2 => { t with b2 := v }

/-- The three bytes that are `f` of the three buffer positions. -/
def Triple.ofFn (f : Fin 3 → Byte) : Triple := { b0 := f 0, b1 := f 1, b2 := f 2 }

/-- Three zero bytes. -/
def Triple.zero : Triple := { b0 := 0, b1 := 0, b2 := 0 }

end Sys2Proof
end

