-- ==== Sys2Proof/Syntax.lean ====
section
/-! DEFINITION. The four host commands (spec/30_encoding.md R82, R89), one constructor per row of spec/opcode_table.json. -/

namespace Sys2Proof

/-- A command with its operands (30_encoding.md R81, R89). Triples are indexed by buffer position. -/
inductive Instr where
  /-- `INIT` (43_controller_commands.md R180). -/
  | init
  /-- `SHOW base, n, (s0, s1, s2)` (R181). -/
  | showFrame (base : Addr) (n : BitVec 16) (scale : Triple)
  /-- `SHOWCOLOR (c0, c1, c2), n, (s0, s1, s2)` (R182). -/
  | showColor (color : Triple) (n : BitVec 16) (scale : Triple)
  /-- `CLEAR n` (R183). -/
  | clear (n : BitVec 16)
deriving DecidableEq, Repr

/-- The opcode a command word names and the latch `OP` holds (30_encoding.md R82, 10_state.md R25). -/
inductive Opcode where
  | init
  | showFrame
  | showColor
  | clear
deriving DecidableEq, Repr

/-- The opcode of a command. -/
def Instr.opcode : Instr → Opcode
  | .init => .init
  | .showFrame _ _ _ => .showFrame
  | .showColor _ _ _ => .showColor
  | .clear _ => .clear

/-- SHOW, SHOWCOLOR and CLEAR are the frame commands (43_controller_commands.md, opening). -/
def Opcode.isFrame : Opcode → Bool
  | .init => false
  | .showFrame => true
  | .showColor => true
  | .clear => true

/-- The operand `N` of a command; INIT reads none, its field is 0 (30_encoding.md R81, R84). -/
def Instr.count : Instr → BitVec 16
  | .init => 0
  | .showFrame _ n _ => n
  | .showColor _ n _ => n
  | .clear n => n

/-- The SCALE fields of a command's word; 0 where the opcode does not use them (30_encoding.md R81). -/
def Instr.scale : Instr → Triple
  | .init => .zero
  | .showFrame _ _ sc => sc
  | .showColor _ _ sc => sc
  | .clear _ => .zero

end Sys2Proof
end

