-- ==== Sys2Proof/Decode.lean ====
section
/-! DEFINITION. The command word (spec/30_encoding.md R80 to R88): the opcode rows, the hardware's decoder, the model's decoder
that admits canonical words only, and the encoder. -/

namespace Sys2Proof

/-- One row of spec/opcode_table.json: what the hardware's decoder tests (`mask`, `code`) and which words are canonical. -/
structure OpcodeRow where
  op : Opcode
  mask : CmdWord
  code : CmdWord
  canonicalMask : CmdWord
  canonicalCode : CmdWord
deriving DecidableEq, Repr

/-- The four rows of spec/opcode_table.json (30_encoding.md R82). -/
def opcodeTable : List OpcodeRow :=
  [ { op := .init, mask := 0x3, code := 0x0,
      canonicalMask := 0xFFFFFFFFFFFFFFFFFFFFFFFF, canonicalCode := 0x0 },
    { op := .showFrame, mask := 0x3, code := 0x1,
      canonicalMask := 0x00000000FF000000FF0000FF, canonicalCode := 0x1 },
    { op := .showColor, mask := 0x3, code := 0x2,
      canonicalMask := 0xFF000000FF000000FF0000FF, canonicalCode := 0x2 },
    { op := .clear, mask := 0x3, code := 0x3,
      canonicalMask := 0xFFFFFFFFFFFFFFFFFF0000FF, canonicalCode := 0x3 } ]

/-- The bits R81 reserves in every command: 7:2, 31:24, 63:56. -/
def reservedMask : CmdWord := 0x00000000FF000000FF0000FC

/-- `N = CMD_WORD[23:8]` (R81, R83). -/
def fieldN (w : CmdWord) : BitVec 16 := w.extractLsb' 8 16

/-- `SCALE[p] = CMD_WORD[39+8p : 32+8p]` (R83). -/
def fieldScale (w : CmdWord) : Triple :=
  { b0 := w.extractLsb' 32 8, b1 := w.extractLsb' 40 8, b2 := w.extractLsb' 48 8 }

/-- `BASE = CMD_WORD[95:64]` (R83). -/
def fieldBase (w : CmdWord) : Addr := w.extractLsb' 64 32

/-- `COLOR[p] = CMD_WORD[71+8p : 64+8p]` (R83). -/
def fieldColor (w : CmdWord) : Triple :=
  { b0 := w.extractLsb' 64 8, b1 := w.extractLsb' 72 8, b2 := w.extractLsb' 80 8 }

/-- The opcode field `OP = CMD_WORD[1:0]` (R81, R82). -/
def fieldOp (w : CmdWord) : Opcode :=
  match w.extractLsb' 0 2 with
  | 0 => .init
  | 1 => .showFrame
  | 2 => .showColor
  | _ => .clear

/-- What the HARDWARE's decoder reads: it looks at `OP` only, ignores every reserved bit and every field the opcode does not use,
and no word fails to decode (R82, R85, R86). -/
def hwDecode (w : CmdWord) : Instr :=
  match fieldOp w with
  | .init => .init
  | .showFrame => .showFrame (fieldBase w) (fieldN w) (fieldScale w)
  | .showColor => .showColor (fieldColor w) (fieldN w) (fieldScale w)
  | .clear => .clear (fieldN w)

/-- Why the model's decoder does not admit a word. -/
inductive DecodeRefusal where
  /-- A reserved bit (7:2, 31:24 or 63:56) is set (R85, U4). -/
  | reservedBitSet
  /-- A field the opcode does not use is not zero (R85, U4). -/
  | unusedFieldSet
deriving DecidableEq, Repr

/-- The row whose `code` the word has under its `mask`. -/
def rowOf (w : CmdWord) : List OpcodeRow → Option OpcodeRow
  | [] => none
  | r :: rs => if w &&& r.mask = r.code then some r else rowOf w rs

/-- The canonical words: all reserved bits, and all fields the opcode does not use, are 0 (R85). -/
def canonical (w : CmdWord) : Bool :=
  match rowOf w opcodeTable with
  | none => false
  | some r => w &&& r.canonicalMask == r.canonicalCode

/-- The MODEL's decoder: canonical words only, any other word refused by name (R85: "A model admits canonical words only and
refuses any other word by name"; log 8). -/
def decode (w : CmdWord) : Except DecodeRefusal Instr :=
  if canonical w then .ok (hwDecode w)
  else if w &&& reservedMask = 0 then .error .unusedFieldSet
  else .error .reservedBitSet

/-- The instruction read from a word numbered as spec/opcode_table.json numbers it: the bits of one 96-bit command word. -/
def decodeTableWord (nbits w : Nat) : Option Instr :=
  match decode (BitVec.ofNat 96 (w % 2 ^ nbits)) with
  | .ok i => some i
  | .error _ => none

/-- Three bytes packed with buffer position 0 in the lowest byte (R81). -/
def packTriple (t : Triple) : BitVec 24 := t.b2 ++ t.b1 ++ t.b0

/-- The two bits of an opcode (R82). -/
def opcodeBits : Opcode → BitVec 2
  | .init => 0b00
  | .showFrame => 0b01
  | .showColor => 0b10
  | .clear => 0b11

/-- The fields of R81 put in their places: `ARG`, a reserved byte, `SC2..SC0`, a reserved byte, `N`, six reserved bits, `OP`. -/
def assemble (arg : BitVec 32) (scale : Triple) (n : BitVec 16) (op : Opcode) : CmdWord :=
  arg ++ (0 : BitVec 8) ++ packTriple scale ++ (0 : BitVec 8) ++ n ++ (0 : BitVec 6) ++ opcodeBits op

/-- The canonical encoding of a command (R81, R85, R89). -/
def encode : Instr → CmdWord
  | .init => assemble 0 .zero 0 .init
  | .showFrame base n sc => assemble base sc n .showFrame
  | .showColor color n sc => assemble ((0 : BitVec 8) ++ packTriple color) sc n .showColor
  | .clear n => assemble 0 .zero n .clear

end Sys2Proof
end

