-- ==== Sys2Proof/Config.lean ====
section
/-! DEFINITION. The configuration of an instance (spec/00_scope.md R8, R9, R10), and the free values of the model. -/

namespace Sys2Proof

/-- The six colour orders, named by the channels in the order they go on the wire (30_encoding.md R90). -/
inductive ColorOrder where
  | rgb
  | rbg
  | grb
  | gbr
  | brg
  | bgr
deriving DecidableEq, Repr

/-- `N_W`, the width of the pixel count (00_scope.md R9). -/
def nW : Nat := 16

/-- `AW`, the width of a buffer address (00_scope.md R9). -/
def aW : Nat := 32

/-- `CNT_W`, the width of the bit-period counter (00_scope.md R9). -/
def cntW : Nat := 24

/-- `TICK_W`, the width of the tick-advance output (00_scope.md R9). -/
def tickW : Nat := 32

/-- What whoever builds an instance writes down (00_scope.md R9): nothing about it has been checked.
`order` is `(ORDER[0], ORDER[1], ORDER[2])`. -/
structure RawConfig where
  t1 : Nat
  t2 : Nat
  t3 : Nat
  order : Nat × Nat × Nat
  flip : Bool
  wait : Nat
  skip : Nat
  clksPerUs : Nat
  pinId : Nat
  hasShowColor : Bool
  setupLat : Nat
  prepLat : Nat
deriving DecidableEq, Repr

/-- The configuration record of a built instance: constants that no command reads or writes (00_scope.md R8). It carries the
contract R10, so that no instance of an illegal configuration exists (93_implementation_defined.md U1: "no instance is built
from an illegal configuration"). `FLIP` is 0 and `HAS_SHOWCOLOR` is 1 in every instance (R143, R86). `setupLat` is SETUP_LAT
(R173, "integer >= 1") and `prepLat` is PREP_LAT, the cycles the data path takes (42_bit_engine.md R151). `pinId` is read by no
rule. -/
structure Config where
  t1 : Nat
  t2 : Nat
  t3 : Nat
  order : ColorOrder
  wait : Nat
  skip : Nat
  clksPerUs : Nat
  pinId : Nat
  setupLat : Nat
  prepLat : Nat
  t1_pos : 0 < t1
  t2_pos : 0 < t2
  t3_pos : 0 < t3
  total_lt : t1 + t2 + t3 < 2 ^ 24
  clksPerUs_pos : 0 < clksPerUs
  setupLat_pos : 0 < setupLat
deriving DecidableEq, Repr

/-- Why an instance was not built. -/
inductive ConfigRefusal where
  /-- `T1`, `T2`, `T3`, `TOTAL`, `ORDER` or `CLKS_PER_US` break R10 (U1), or SETUP_LAT is 0 (R9, log 5). -/
  | illegal
  /-- `FLIP = 1`: its meaning is given nowhere (R143, U3). -/
  | flipUndefined
  /-- `HAS_SHOWCOLOR = 0`: the spec does not define such an instance (R86, U10). -/
  | noShowColor
deriving DecidableEq, Repr

/-- The instance that `State.reset` stands in: the illustrative numbers of program P4 (95_test_vectors.md part 3). DESIGN
CHOICE, log 4 (unsafe): the spec gives no values, every statement holds for every configuration, and none rests on these. -/
def Config.reference : Config where
  t1 := 3
  t2 := 4
  t3 := 3
  order := .rgb
  wait := 20
  skip := 0
  clksPerUs := 1
  pinId := 0
  setupLat := 2
  prepLat := 0
  t1_pos := by decide
  t2_pos := by decide
  t3_pos := by decide
  total_lt := by decide
  clksPerUs_pos := by decide
  setupLat_pos := by decide

/-- The bytes of a frame whose look-ahead missed its deadline: any values (93_implementation_defined.md U2, log 11). Applied to
the counter `freeIx` of State, so that every use is a fresh value. -/
opaque freeByte : Nat → Byte

/-- Which of the values a raced byte has had a read of it returns: any number (93_implementation_defined.md U6: "chosen per read", log
13). Applied to the counter `freeIx` of State, so that every use is a fresh choice. -/
opaque freePick : Nat → Nat

end Sys2Proof
end

