-- ==== Sys2Proof/Machine/Params.lean ====
section
/-! DEFINITION. The derived constants of an instance and the building of one (spec/00_scope.md R9, R10; spec/30_encoding.md
R90; spec/43_controller_commands.md R177). -/

namespace Sys2Proof.Machine

/-- The code of a colour order: `ORDER[k]`, the buffer position sent in wire slot `k` (30_encoding.md R90). -/
def channelAt : ColorOrder → Fin 3 → Fin 3
  | .rgb, 0 => 0
  | .rgb, 1 => 1
  | .rgb, 2 => 2
  | .rbg, 0 => 0
  | .rbg, 1 => 2
  | .rbg, 2 => 1
  | .grb, 0 => 1
  | .grb, 1 => 0
  | .grb, 2 => 2
  | .gbr, 0 => 1
  | .gbr, 1 => 2
  | .gbr, 2 => 0
  | .brg, 0 => 2
  | .brg, 1 => 0
  | .brg, 2 => 1
  | .bgr, 0 => 2
  | .bgr, 1 => 1
  | .bgr, 2 => 0

/-- The order with a code `(ORDER[0], ORDER[1], ORDER[2])`; none where it is no permutation of `(0,1,2)` (R10, R90). -/
def orderOfCode : Nat × Nat × Nat → Option ColorOrder
  | (0, 1, 2) => some .rgb
  | (0, 2, 1) => some .rbg
  | (1, 0, 2) => some .grb
  | (1, 2, 0) => some .gbr
  | (2, 0, 1) => some .brg
  | (2, 1, 0) => some .bgr
  | _ => none

/-- Build an instance, or refuse by name (00_scope.md R10; 93_implementation_defined.md U1, U3, U10). -/
def buildConfig (r : RawConfig) : Except ConfigRefusal Config :=
  match orderOfCode r.order with
  | none => .error .illegal
  | some o =>
    if h : 0 < r.t1 ∧ 0 < r.t2 ∧ 0 < r.t3 ∧ r.t1 + r.t2 + r.t3 < 2 ^ 24 ∧ 0 < r.clksPerUs ∧ 0 < r.setupLat then
      if r.flip then .error .flipUndefined
      else if r.hasShowColor then
        .ok { t1 := r.t1, t2 := r.t2, t3 := r.t3, order := o, wait := r.wait, skip := r.skip, clksPerUs := r.clksPerUs,
              pinId := r.pinId, setupLat := r.setupLat, prepLat := r.prepLat, t1_pos := h.1, t2_pos := h.2.1,
              t3_pos := h.2.2.1, total_lt := h.2.2.2.1, clksPerUs_pos := h.2.2.2.2.1, setupLat_pos := h.2.2.2.2.2 }
      else .error .noShowColor
    else .error .illegal

/-- `TOTAL = T1 + T2 + T3`, the cycles of every bit (00_scope.md R9). -/
def total (cfg : Config) : Nat := cfg.t1 + cfg.t2 + cfg.t3

/-- `T1_MARK = TOTAL - T1`, a value of the down-counter (00_scope.md R9, 90_conflicts.md C7). -/
def t1Mark (cfg : Config) : Nat := total cfg - cfg.t1

/-- `T2_MARK = T1_MARK - T2`, a value of the down-counter (00_scope.md R9, 90_conflicts.md C7). -/
def t2Mark (cfg : Config) : Nat := t1Mark cfg - cfg.t2

/-- `DITHER_STEP`, the amount the dither value advances per pixel (00_scope.md R9, 93_implementation_defined.md U12). -/
def ditherStep : Nat := 3

/-- `L_PIN`, cycles from a SETPIN to the change of PIN_OUT: `PIN_OUT` is the observed wire (40_timing_primitives.md R107). -/
def lPin : Nat := 0

/-- The cycles of the XMIT phase of a frame of `n` pixels (42_bit_engine.md R149). -/
def frameCycles (cfg : Config) (n : Nat) : Nat := n * 24 * total cfg

/-- The tick compensation in milliseconds: two truncating conversions, in unbounded integers (43_controller_commands.md R177). -/
def tickMs (cfg : Config) (n : Nat) : Nat := frameCycles cfg n / cfg.clksPerUs / 1000

/-- The tick value fits `TICK_W` bits (R177, R255; 93_implementation_defined.md U9). -/
def tickFits (cfg : Config) (n : BitVec 16) : Bool := decide (tickMs cfg n.toNat < 2 ^ tickW)

/-- The lent buffer does not run past the top of the address space (20_memory.md R66, U7). -/
def bufferFits (cfg : Config) (base : Addr) (n : BitVec 16) : Bool :=
  decide (base.toNat + cfg.skip + 3 * n.toNat ≤ 2 ^ aW)

end Sys2Proof.Machine
end

