-- ==== Sys2Proof/Machine/Dither.lean ====
section
/-! DEFINITION. The dither and scale unit: arithmetic on bytes, all of it unsigned (spec/41_dither_scale.md). -/

namespace Sys2Proof.Machine

/-- The loop of R121, at most `fuel` shift pairs: the test is made before each pair. -/
def maskLoop : Nat → Byte → Byte → Byte
  | 0, _, e => e
  | fuel + 1, s, e => if s = 0 then e else maskLoop fuel (s >>> 1) (e >>> 1)

/-- `mask(S)`: from a full-ones mask, shift `S` and the mask right together until `S` is zero; 8 pairs empty any byte
(41_dither_scale.md R121, D31). -/
def mask (s : Byte) : Byte := maskLoop 8 s 0xFF

/-- `len(S)`, the number of significant bits (41_dither_scale.md R122). -/
def sigBits (s : Byte) : Nat := if s = 0 then 0 else Nat.log2 s.toNat + 1

/-- The seed `D = stored & E` (41_dither_scale.md R123). -/
def seedByte (stored e : Byte) : Byte := stored &&& e

/-- The advance `D = (D + step) & E`: the sum wraps at 256, which the mask makes harmless (41_dither_scale.md R124). -/
def advance (d e : Byte) : Byte := (d + BitVec.ofNat 8 ditherStep) &&& e

/-- `satadd(a, b) = min(255, a + b)` (41_dither_scale.md R125). -/
def satadd (a b : Byte) : Byte := BitVec.ofNat 8 (min 255 (a.toNat + b.toNat))

/-- The conditional dither add: a raw 0 stays 0 (41_dither_scale.md R125). -/
def ditherAdd (raw d : Byte) : Byte := if raw = 0 then 0 else satadd raw d

/-- `scale(v, S) = (2 * v * S + 255) div 510` (41_dither_scale.md R126). -/
def scaleByte (v s : Byte) : Byte := BitVec.ofNat 8 ((2 * v.toNat * s.toNat + 255) / 510)

/-- The value sent for a raw byte once `D` has been advanced (41_dither_scale.md R127). -/
def corrected (s d raw : Byte) : Byte := scaleByte (ditherAdd raw d) s

/-- `E[c] <- mask(S[c])` for the three channels (41_dither_scale.md R121). -/
def maskAll (s : Triple) : Triple := { b0 := mask s.b0, b1 := mask s.b1, b2 := mask s.b2 }

/-- `D[c] <- DSTORE[c] & E[c]` for the three channels (41_dither_scale.md R123). -/
def seedAll (stored e : Triple) : Triple :=
  { b0 := seedByte stored.b0 e.b0, b1 := seedByte stored.b1 e.b1, b2 := seedByte stored.b2 e.b2 }

/-- `correct(c, raw)` on the register array `D`: advance `D[c]`, then the byte to send (41_dither_scale.md R127). -/
def correct (s e d : Triple) (c : Fin 3) (raw : Byte) : Byte × Triple :=
  let d' := advance (d.get c) (e.get c)
  (corrected (s.get c) d' raw, d.set c d')

end Sys2Proof.Machine
end

