-- ==== Sys2Proof/Machine/State.lean ====
section
/-! DEFINITION. The state of the machine as plain data (spec/10_state.md), why a step can stop, and the state after reset. -/

namespace Sys2Proof.Machine

/-- The controller state register `CST` (10_state.md R30). -/
inductive Cst where
  | idle
  | waitIdle
  | setup
  | xmit
  | adjust
  | restore
deriving DecidableEq, Repr

/-- Where the preparation of the following byte stands (10_state.md R37, R42; 20_memory.md R65; 42_bit_engine.md R150, R151). -/
inductive Prep where
  /-- No byte is to be prepared. -/
  | none
  /-- The window of the byte is open, its read is not yet issued (log 10). -/
  | pending
  /-- `MEM_REQ = 1` with this `MEM_ADDR`, held until `MEM_ACK` (R42). -/
  | reading (addr : Addr)
  /-- The raw byte is in the data path, which needs `left` cycles more after this one (PREP_LAT, R151). -/
  | computing (raw : Byte) (left : Nat)
  /-- The corrected byte is in `NEXTB` (in `CURB` for byte 0). -/
  | ready
deriving DecidableEq, Repr

/-- The events of the observable trace (00_scope.md R13). -/
inductive Event where
  | irqOff
  | read (addr : Addr)
  | bit (b : Bool)
  | tick (ms : BitVec 32)
  | irqOn
  | mark
deriving DecidableEq, Repr

/-- What the outside drives on the input wires in one cycle (10_state.md R47), and the two things of a cycle the spec leaves to
others. `MEM_RDATA` has no field: it is the byte the memory holds (20_memory.md R70). -/
structure PortIn where
  /-- `RST` (R40). -/
  rst : Bool
  /-- `CMD_VALID` (R41). -/
  cmdValid : Bool
  /-- `CMD_WORD[95:0]` (R41). -/
  cmdWord : CmdWord
  /-- `MEM_ACK` (R42). -/
  memAck : Bool
  /-- The implementation issues the pending read (or starts the pending preparation) now: the exact cycle inside the window is
  the implementation's (20_memory.md R65, log 10). -/
  go : Bool
  /-- A byte the host stores to memory in this cycle (20_memory.md R69, R70). -/
  hostStore : Option (Addr × Byte)
deriving DecidableEq, Repr

/-- The input wires where State's list of them has ended: no reset, no command, a memory that answers at once, no host store
(DESIGN CHOICE, log 2). -/
def PortIn.quiet : PortIn :=
  { rst := false, cmdValid := false, cmdWord := 0, memAck := true, go := true, hostStore := none }

/-- The pixel-buffer space (20_memory.md R60): (address, byte) pairs in the canonical form of `Memory.wf` (Machine/Ops.lean). -/
abbrev Memory := List Host.Cell

/-- The whole machine. In the state whose `now` is `t` every field holds its value in CLK cycle `t` (log 16). -/
structure State where
  /-- The configuration record: constants of the instance (00_scope.md R8). -/
  cfg : Config
  /-- `DSTORE[0..2]`, the Dither State (R29). -/
  dstore : Triple
  /-- `LASTMARK` (R32). -/
  lastmark : Nat
  /-- `NOW`, CLK cycles since reset (R27). -/
  now : Nat
  /-- `PIN_OE` (R33). -/
  pinOe : Bool
  /-- `PIN_OUT` (R34, R43). -/
  pinOut : Bool
  /-- `CST` (R30). -/
  cst : Cst
  /-- `OP` (R25). -/
  op : Opcode
  /-- `NLEDS` (R25). -/
  nleds : BitVec 16
  /-- `BASE` (R25). -/
  base : Addr
  /-- `COLOR[0..2]` (R25). -/
  color : Triple
  /-- The SCALE bytes of the command, held until SETUP moves them to `S` (R25). -/
  scale : Triple
  /-- `S[0..2]` (R21). -/
  sreg : Triple
  /-- `E[0..2]` (R22). -/
  ereg : Triple
  /-- `D[0..2]` (R23). -/
  dreg : Triple
  /-- `CURB` (R24). -/
  curb : Byte
  /-- `NEXTB` (R24). -/
  nextb : Byte
  /-- `PIX` (R26). -/
  pix : BitVec 16
  /-- `SLOT` (R26). -/
  slot : Fin 3
  /-- `BITI` (R26). -/
  biti : BitVec 3
  /-- `CNT` (R28). -/
  cnt : BitVec 24
  /-- `WRAP` (R28). -/
  wrap : Bool
  /-- `TICKVAL` (R37). -/
  tickval : BitVec 32
  /-- The cycles of SETUP still to run, this one included (43_controller_commands.md R173). -/
  setupLeft : Nat
  /-- Hidden state of the look-ahead; `MEM_REQ` and `MEM_ADDR` are functions of it (R20, R37). -/
  prep : Prep
  /-- The MODEL's own: the running frame has missed the deadline of R151 (U2, log 11). -/
  late : Bool
  /-- The MODEL's own: the number of the next free value (log 12). -/
  freeIx : Nat
  /-- The MODEL's own: the values that bytes of the lent buffer had when the host stored to them, latest first (20_memory.md R71, U6,
  log 13). -/
  superseded : List (Addr × Byte)
  /-- The pixel-buffer space, owned by the host (R36, R38). -/
  mem : Memory
  /-- The input wires in this cycle (the head) and in the cycles after it (log 2). -/
  ports : List PortIn
  /-- The observable trace, oldest event first (00_scope.md R12, R13). -/
  trace : List Event
deriving DecidableEq, Repr

/-- Why the machine can stop with a fault. The BLOCK raises no exception (60_exceptions.md R210): each of these is raised by
`step` in a busy state whose latches no accepted command can have left, so no run from reset meets one. Safe (log 9). -/
inductive Fault where
  /-- Busy with `OP` = INIT: raised by `step`. INIT leaves `CST` at IDLE (R171). Safe. -/
  | busyWithInit
  /-- A SHOW is running whose buffer runs past the top of the address space: raised by `step`. Addresses beyond 2^32 do not
  exist (20_memory.md R60, R66). Safe. -/
  | bufferOutsideSpace
  /-- A frame is running whose tick value does not fit TICK_MS: raised by `step` (R177, R255). Safe. -/
  | tickOutsideWidth
deriving DecidableEq, Repr

/-- Why the model has no meaning for a step. -/
inductive Refusal where
  /-- An instruction without a meaning: raised by `exec`'s rejected arms only. Safe. -/
  | notModelled (mnemonic : String)
  /-- The command word on the port is not canonical, and why: raised by `step` on acceptance (30_encoding.md R85, U4). Safe. -/
  | nonCanonicalWord (why : DecodeRefusal)
  /-- `BASE + SKIP + 3n > 2^32`: raised by SHOW (20_memory.md R66, U7). Safe. -/
  | bufferPastTop
  /-- `TickMs(n) >= 2^32`: raised by the frame commands (43_controller_commands.md R177, U9). Safe. -/
  | tickTooLarge
deriving DecidableEq, Repr

/-- The machine in the first cycle after reset, around what reset does not touch (the instance, the memory, the coming inputs,
the observer's trace, the number of the next free value). R39 gives `DSTORE`, `CST`, `NOW`, `LASTMARK`, `PIN_OE`, `PIN_OUT` and
`MEM_REQ = 0`; the working registers, which R39 leaves unspecified, are 0 (DESIGN CHOICE, log 6, unsafe). -/
def State.resetWith (cfg : Config) (mem : Memory) (ports : List PortIn) (trace : List Event) (freeIx : Nat) : State where
  cfg := cfg
  dstore := .zero
  lastmark := 0
  now := 0
  pinOe := false
  pinOut := false
  cst := .idle
  op := .init
  nleds := 0
  base := 0
  color := .zero
  scale := .zero
  sreg := .zero
  ereg := .zero
  dreg := .zero
  curb := 0
  nextb := 0
  pix := 0
  slot := 0
  biti := 0
  cnt := 0
  wrap := false
  tickval := 0
  setupLeft := 0
  prep := .none
  late := false
  freeIx := freeIx
  superseded := []
  mem := mem
  ports := ports
  trace := trace

/-- The machine right after reset (10_state.md R39, 70_reset_and_hazards.md R241), in the instance `Config.reference` (log 4),
with nothing in memory, no input to come and no event seen. -/
def State.reset : State := State.resetWith Config.reference [] [] [] 0

end Sys2Proof.Machine
end

