-- ==== Sys2Proof/Machine/Ops.lean ====
section
/-! DEFINITION. The named operations over memory, registers, the trace and the inputs. The block has no exception and no return
from one (spec/60_exceptions.md R210, R216, R217), so there is no such operation; the one thing that overrides a command is RST,
`resetBlock`. -/

namespace Sys2Proof.Machine

/-- What a byte of memory that nothing has written reads as (DESIGN CHOICE, log 7, unsafe). -/
def memDefault : Byte := 0

/-- `MemRead(a, 1)` (00_scope.md R12, 20_memory.md R63). -/
def Memory.read : Memory → Nat → Byte
  | [], _ => memDefault
  | (k, b) :: rest, a => if a = k then b else Memory.read rest a

/-- Put a byte into the list, in place of what it holds for that address. -/
def Memory.put : Memory → Nat → Byte → Memory
  | [], a, v => [(a, v)]
  | (k, b) :: rest, a, v =>
    if a < k then (a, v) :: (k, b) :: rest
    else if a = k then (k, v) :: rest
    else (k, b) :: Memory.put rest a v

/-- Take an address off the list. -/
def Memory.drop : Memory → Nat → Memory
  | [], _ => []
  | (k, b) :: rest, a => if a = k then rest else (k, b) :: Memory.drop rest a

/-- A host's store of one byte; writing what an unlisted address reads as takes the entry off. -/
def Memory.write (m : Memory) (a : Nat) (v : Byte) : Memory :=
  if v = memDefault then m.drop a else m.put a v

/-- Every entry lies above `lo`, the addresses rise strictly, and no entry equals `memDefault`. -/
def Memory.wfAbove : Nat → Memory → Bool
  | _, [] => true
  | lo, (k, b) :: rest => decide (lo ≤ k) && (b != memDefault) && Memory.wfAbove (k + 1) rest

/-- Every address of the list is an address of the space, below `2^AW` (20_memory.md R60). -/
def Memory.inSpace : Memory → Bool
  | [] => true
  | (k, _) :: rest => decide (k < 2 ^ aW) && Memory.inSpace rest

/-- The canonical form of memory. -/
def Memory.wf (m : Memory) : Bool := Memory.wfAbove 0 m && Memory.inSpace m

/-- `emit ev` (00_scope.md R12). -/
def State.emit (s : State) (e : Event) : State := { s with trace := s.trace ++ [e] }

/-- `SETPIN(level)` (40_timing_primitives.md R106): writes `PIN_OUT` and nothing else. -/
def State.setPin (s : State) (level : Bool) : State := { s with pinOut := level }

/-- Write `CST` (00_scope.md R12). -/
def State.goto (s : State) (c : Cst) : State := { s with cst := c }

/-- Load `CURB` with a free byte (U2, log 11). -/
def State.freeCurb (s : State) : State := { s with curb := freeByte s.freeIx, freeIx := s.freeIx + 1 }

/-- A command borrows its buffer: no byte of it has been stored to since (20_memory.md R69). -/
def State.freshLoan (s : State) : State := { s with superseded := [] }

/-- The value a store leaves at `a`, if it is a store to `a`. -/
def storedAt (a : Addr) : Option (Addr × Byte) → List Byte
  | none => []
  | some (x, v) => if x = a then [v] else []

/-- The other values a read of `a` may return: those that stores of the host have superseded there since the command was accepted,
and the one that a store of this cycle leaves there (20_memory.md R71, U6). -/
def State.racing (s : State) (a : Addr) (store : Option (Addr × Byte)) : List Byte :=
  (s.superseded.filter (fun c => c.1 == a)).map Prod.snd ++ storedAt a store

/-- `MEM_RDATA` for a read of `a`: what the memory holds, or any of the values it races with (20_memory.md R70, R71, U6; log 13). -/
def State.fetched (s : State) (a : Addr) (store : Option (Addr × Byte)) : Byte :=
  match s.racing a store with
  | [] => s.mem.read a.toNat
  | v :: vs => (v :: vs).getD (freePick s.freeIx % (vs.length + 2)) (s.mem.read a.toNat)

/-- A read that races uses up one free choice. -/
def State.usePick (s : State) (a : Addr) (store : Option (Addr × Byte)) : State :=
  if s.racing a store = [] then s else { s with freeIx := s.freeIx + 1 }

/-- The input wires of this cycle. -/
def State.port (s : State) : PortIn := s.ports.headD .quiet

/-- What RST makes of the block, whatever it was doing (70_reset_and_hazards.md R240, R242). The instance, the memory, the
inputs, the observer's trace and the number of the next free value are outside the block. -/
def State.resetBlock (s : State) : State := State.resetWith s.cfg s.mem s.ports s.trace s.freeIx

/-- The host's store of this cycle lands in memory. -/
def State.hostStores (s : State) : Option (Addr × Byte) → State
  | none => s
  | some (a, v) => { s with mem := s.mem.write a.toNat v }

/-- The inputs of the next cycle come to the head. -/
def State.nextPorts (s : State) : State := { s with ports := s.ports.tail }

/-- The cycle counter `NOW` steps (10_state.md R27). -/
def State.countCycle (s : State) : State := { s with now := s.now + 1 }

end Sys2Proof.Machine
end

