-- ==== Sys2Proof/Machine/Flags.lean ====
section
/-! DEFINITION. The status flags and output wires: functions of the state (spec/10_state.md R20 (d), R33, R41 to R47). There are
no condition codes and no arithmetic flags (R33). `PIN_OUT`, `PIN_OE` and `WRAP` are fields of State. -/

namespace Sys2Proof.Machine

/-- `BUSY`, equal to `CST != IDLE` (10_state.md R33, R46). -/
def State.busy (s : State) : Bool := s.cst != .idle

/-- `CMD_READY`, equal to `CST = IDLE` (10_state.md R41). -/
def State.cmdReady (s : State) : Bool := s.cst == .idle

/-- `IRQ_INHIBIT`: 1 exactly while `CST` is SETUP, XMIT or ADJUST (60_exceptions.md R213). -/
def State.irqInhibit (s : State) : Bool :=
  match s.cst with
  | .idle => false
  | .waitIdle => false
  | .setup => true
  | .xmit => true
  | .adjust => true
  | .restore => false

/-- `MEM_REQ` (10_state.md R42). -/
def State.memReq (s : State) : Bool :=
  match s.prep with
  | .none => false
  | .pending => false
  | .reading _ => true
  | .computing _ _ => false
  | .ready => false

/-- `MEM_ADDR` while `MEM_REQ = 1`; without a request it has no specified value (10_state.md R39, R42; log 22). -/
def State.memAddr (s : State) : Option Addr :=
  match s.prep with
  | .none => none
  | .pending => none
  | .reading a => some a
  | .computing _ _ => none
  | .ready => none

/-- `TICK_VALID`: high in the one cycle of ADJUST (10_state.md R45, 43_controller_commands.md R175). It is a function of `CST` alone, so it
is high there also when `RST` is sampled in that very cycle (DESIGN CHOICE, log 27, unsafe). -/
def State.tickValid (s : State) : Bool := s.cst == .adjust

/-- The enable of the bit-period counter, `CST = XMIT` (10_state.md R28). -/
def State.counterEnabled (s : State) : Bool := s.cst == .xmit

/-- The level on the data line, where this block drives it (10_state.md R43, 43_controller_commands.md R188; `L_PIN = 0`: 40_timing_primitives.md
R107). -/
def State.line (s : State) : Option Bool := if s.pinOe then some s.pinOut else none

/-- `TICK_MS`, on which `TICKVAL` is visible (10_state.md R37, R45). -/
def State.tickMsOut (s : State) : BitVec 32 := s.tickval

end Sys2Proof.Machine
end

