-- ==== Sys2Proof/Machine/Operands.lean ====
section
/-! DEFINITION. The operand forms: the latches a command loads (spec/30_encoding.md R83), the address of a pixel byte
(spec/20_memory.md R61) and the raw byte of each kind of frame (spec/42_bit_engine.md R142). -/

namespace Sys2Proof.Machine

/-- The latches every command loads in its accepting cycle: `OP`, `NLEDS` and the SCALE bytes (30_encoding.md R83). -/
def State.latch (s : State) (i : Instr) : State :=
  { s with op := i.opcode, nleds := i.count, scale := i.scale }

/-- `BASE`, SHOW only (R83). -/
def State.latchBase (s : State) (base : Addr) : State := { s with base := base }

/-- `COLOR`, SHOWCOLOR only (R83). -/
def State.latchColor (s : State) (color : Triple) : State := { s with color := color }

/-- `PixAddr(i, p) = BASE + SKIP + 3*i + p`, in unbounded integers (20_memory.md R61, R66). -/
def pixAddr (cfg : Config) (base : Addr) (i : Nat) (p : Fin 3) : Nat := base.toNat + cfg.skip + 3 * i + p.val

/-- The raw byte of pixel `i`, channel `c` (42_bit_engine.md R142). INIT sends no pixel. -/
def rawByte (cfg : Config) (mem : Memory) (op : Opcode) (base : Addr) (color : Triple) (i : Nat) (c : Fin 3) : Byte :=
  match op with
  | .init => 0
  | .showFrame => mem.read (pixAddr cfg base i c)
  | .showColor => color.get c
  | .clear => 0

/-- The scale of the frame: the SCALE operand, or zeros for CLEAR (43_controller_commands.md R173). -/
def frameScale (op : Opcode) (scale : Triple) : Triple :=
  match op with
  | .init => scale
  | .showFrame => scale
  | .showColor => scale
  | .clear => .zero

/-- Address `a` lies in the buffer lent to a SHOW, `[BASE + SKIP, BASE + SKIP + 3n)` (20_memory.md R69). -/
def inBuffer (cfg : Config) (base : Addr) (n : BitVec 16) (a : Addr) : Bool :=
  decide (base.toNat + cfg.skip ≤ a.toNat) && decide (a.toNat < base.toNat + cfg.skip + 3 * n.toNat)

end Sys2Proof.Machine
end

