-- ==== Sys2Proof/Machine/Timing.lean ====
section
/-! DEFINITION. The timing primitive layer: the bit-period counter and the micro-operations WAITB, WAITM, SETPIN
(spec/40_timing_primitives.md R100 to R109). A wait completes in the cycle its comparator is met, and the next micro-operation
acts in that same cycle (R104, R105), so the three steps of a bit (spec/42_bit_engine.md R146) are three conditions on the
counter. -/

namespace Sys2Proof.Machine

/-- One cycle of `(CNT, WRAP)` in XMIT (40_timing_primitives.md R100). -/
def countStep (cfg : Config) (cw : BitVec 24 × Bool) : BitVec 24 × Bool :=
  if 1 < cw.1.toNat then (cw.1 - 1, false) else (BitVec.ofNat 24 (total cfg), true)

/-- The counter after `k` cycles of XMIT. -/
def countSteps (cfg : Config) : Nat → BitVec 24 × Bool → BitVec 24 × Bool
  | 0, cw => cw
  | k + 1, cw => countSteps cfg k (countStep cfg cw)

/-- The counter in the first cycle of XMIT (40_timing_primitives.md R100). -/
def countStart (cfg : Config) : BitVec 24 × Bool := (BitVec.ofNat 24 (total cfg), true)

/-- `c_off = TOTAL - CNT` (40_timing_primitives.md R101). -/
def cOff (cfg : Config) (cnt : BitVec 24) : Nat := total cfg - cnt.toNat

/-- WAITB completes in this cycle (40_timing_primitives.md R104). -/
def waitbDone (s : State) : Bool := s.wrap

/-- WAITM(M) completes in this cycle (40_timing_primitives.md R105). -/
def waitmDone (m : Nat) (s : State) : Bool := s.cnt.toNat == m

/-- The bit on the wire, `CURB[BITI]` (42_bit_engine.md R144). -/
def currentBit (s : State) : Bool := s.curb.getLsbD s.biti.toNat

/-- The micro-operations of R146 whose wait completes in the cycle of `s`: at the bit boundary the pin goes high and the bit is
on the trace; at T1_MARK the pin takes the bit's value (no branch, R146); at T2_MARK it goes low. -/
def State.microOps (s : State) : State :=
  if waitbDone s then (s.setPin true).emit (.bit (currentBit s))
  else if waitmDone (t1Mark s.cfg) s then s.setPin (currentBit s)
  else if waitmDone (t2Mark s.cfg) s then s.setPin false
  else s

/-- The level R147 gives for a bit `x` at the cycle offset `off` of its period. -/
def waveLevel (cfg : Config) (x : Bool) (off : Nat) : Bool :=
  if off < cfg.t1 then true else if off < cfg.t1 + cfg.t2 then x else false

end Sys2Proof.Machine
end

