-- ==== Sys2Proof/Machine/Engine.lean ====
section
/-! DEFINITION. The bit-transmission engine (spec/42_bit_engine.md): the look-ahead byte preparation (R150) and the loop of
XMIT (R156), one CLK cycle at a time. -/

namespace Sys2Proof.Machine

/-! ## Position -/

/-- Another byte follows the one at `PIX`, `SLOT` (42_bit_engine.md R156). -/
def State.hasNext (s : State) : Bool := decide (s.slot.val < 2) || decide (s.pix.toNat + 1 < s.nleds.toNat)

/-- The pixel and wire slot of the byte to prepare: byte 0 in SETUP, the one after the byte on the wire in XMIT (R150). -/
def State.prepPos (s : State) : Nat × Fin 3 :=
  if s.cst = .setup then (0, 0)
  else if s.slot.val < 2 then (s.pix.toNat, s.slot + 1)
  else (s.pix.toNat + 1, 0)

/-- The channel of the byte to prepare: wire slot `k` carries channel `ORDER[k]` (42_bit_engine.md R141). -/
def State.prepChan (s : State) : Fin 3 := channelAt s.cfg.order s.prepPos.2

/-- The last cycle of a bit period, the one with `CNT = 1` (42_bit_engine.md R156). -/
def State.lastOfBit (s : State) : Bool := decide (s.cnt.toNat ≤ 1)

/-- The last cycle of the last bit period of a byte (42_bit_engine.md R156). -/
def State.lastOfByte (s : State) : Bool := s.lastOfBit && s.biti == 0

/-! ## Look-ahead -/

/-- The corrected byte is produced: `D[c]` advances, `CURB` (in SETUP) or `NEXTB` takes the value (R150; 41_dither_scale.md R124, R127).
`c` is the channel of the byte after the one now on the wire; for a byte that has missed its deadline, and only then, that is not
its own (DESIGN CHOICE, log 28). -/
def State.finishByte (s : State) (raw : Byte) : State :=
  let r := correct s.sreg s.ereg s.dreg s.prepChan raw
  if s.cst = .setup then { s with dreg := r.2, curb := r.1, prep := .ready }
  else { s with dreg := r.2, nextb := r.1, prep := .ready }

/-- The memory has answered with a raw byte: the data path needs PREP_LAT cycles more, none if PREP_LAT is 0 (R151). -/
def State.takeRaw (s : State) (raw : Byte) : State :=
  if s.cfg.prepLat = 0 then s.finishByte raw else { s with prep := .computing raw (s.cfg.prepLat - 1) }

/-- The look-ahead in one cycle: a request is held until `MEM_ACK`, and the data path counts its cycles. `MEM_ACK` without
`MEM_REQ` is ignored (10_state.md R42, 60_exceptions.md R215). -/
def State.prepCycle (s : State) (p : PortIn) : State :=
  match s.prep with
  | .none => s
  | .pending => s
  | .reading a => if p.memAck then ((s.usePick a p.hostStore).emit (.read a)).takeRaw (s.fetched a p.hostStore) else s
  | .computing raw left => if left = 0 then s.finishByte raw else { s with prep := .computing raw (left - 1) }
  | .ready => s

/-- Issue the pending preparation: SHOW raises `MEM_REQ` for its byte, the others have their raw byte at once, which is in the data
path for PREP_LAT cycles and at least this one (20_memory.md R64, R75; log 10). -/
def State.startPrep (s : State) : State :=
  let a := pixAddr s.cfg s.base s.prepPos.1 s.prepChan
  match s.op with
  | .showFrame => { s with prep := .reading (BitVec.ofNat 32 a) }
  | .init => { s with prep := .computing 0 (s.cfg.prepLat - 1) }
  | .showColor => { s with prep := .computing (s.color.get s.prepChan) (s.cfg.prepLat - 1) }
  | .clear => { s with prep := .computing 0 (s.cfg.prepLat - 1) }

/-- Issue a pending preparation if the implementation chooses this cycle (20_memory.md R65, log 10). -/
def State.issue (s : State) (go : Bool) : State := if s.prep = .pending && go then s.startPrep else s

/-- Open the window of the next byte, if there is one. A request still outstanding is held (R42), and a byte still in the data
path stays there: both only after a missed deadline, and it is finished as if it were the byte of this window (log 28). -/
def State.openWindow (s : State) : State :=
  match s.prep with
  | .reading _ => s
  | .computing _ _ => s
  | .none => { s with prep := if s.hasNext then .pending else .none }
  | .pending => { s with prep := if s.hasNext then .pending else .none }
  | .ready => { s with prep := if s.hasNext then .pending else .none }

/-! ## The loop of XMIT -/

/-- One cycle of the counter (40_timing_primitives.md R100). -/
def State.count (s : State) : State :=
  { s with cnt := (countStep s.cfg (s.cnt, s.wrap)).1, wrap := (countStep s.cfg (s.cnt, s.wrap)).2 }

/-- The next bit of the same byte (42_bit_engine.md R156). -/
def State.nextBit (s : State) : State := { s with biti := s.biti - 1 }

/-- The indices step to the next byte (42_bit_engine.md R156). -/
def State.nextIndex (s : State) : State :=
  if s.slot.val < 2 then { s with biti := 7, slot := s.slot + 1 }
  else { s with biti := 7, slot := 0, pix := s.pix + 1 }

/-- `CURB <- NEXTB` (10_state.md R24). -/
def State.shiftByte (s : State) : State := { s with curb := s.nextb }

/-- The frame has missed the deadline of R151: from here on its bits are any values (U2, log 11). -/
def State.missDeadline (s : State) : State := { s with late := true }

/-- The byte at a byte boundary: `NEXTB` if it was valid before this cycle and the frame is on time, any byte otherwise (R151,
R152, U2). -/
def State.loadNext (s : State) (wasReady : Bool) : State :=
  if wasReady && !s.late then s.shiftByte else s.missDeadline.freeCurb

/-- Enter ADJUST: the tick value is computed and strobed in the one cycle of ADJUST (43_controller_commands.md R175, R177), whether or
not `RST` is sampled in it (DESIGN CHOICE, log 27, unsafe). No read is issued from here on (20_memory.md R65). -/
def State.enterAdjust (s : State) : State :=
  (({ s with tickval := BitVec.ofNat 32 (tickMs s.cfg s.nleds.toNat), prep := .none }).goto .adjust).emit
    (.tick (BitVec.ofNat 32 (tickMs s.cfg s.nleds.toNat)))

/-- The end of the frame's last byte. After a missed deadline with a request still unanswered the block does not leave XMIT
(U2: "the block never leaves XMIT"), and what it sends meanwhile is any byte (log 11). -/
def State.endFrame (s : State) : State :=
  if s.late && s.memReq then { s.freeCurb with biti := 7 }.count else s.enterAdjust

/-- The indices, the byte and the counter in the last step of a cycle of XMIT (42_bit_engine.md R156; 40_timing_primitives.md
R100). All tests read the values held before this cycle's writes: `wasReady` says whether `NEXTB` was valid then. -/
def State.xmitNext (s : State) (wasReady : Bool) : State :=
  if !s.lastOfBit then s.count
  else if !s.lastOfByte then s.nextBit.count
  else if s.hasNext then (s.nextIndex.loadNext wasReady).openWindow.count
  else s.endFrame

/-- The micro-operations of the coming cycle, and the issue of a pending read in it, if that cycle is one of XMIT. -/
def State.beginXmitCycle (s : State) (go : Bool) : State := if s.cst = .xmit then (s.issue go).microOps else s

/-- One cycle of XMIT (42_bit_engine.md R146, R150, R156). -/
def State.xmitCycle (s : State) (p : PortIn) : State :=
  ((s.prepCycle p).xmitNext (s.prep == .ready)).beginXmitCycle p.go

end Sys2Proof.Machine
end

