-- ==== Sys2Proof/Machine/Controller.lean ====
section
/-! DEFINITION. The controller sequencer: the phases of a frame command (spec/43_controller_commands.md R170 to R176), one CLK
cycle at a time, and what every cycle ends with. -/

namespace Sys2Proof.Machine

/-- Enter SETUP: interrupts are inhibited (event irq_off), the window of byte 0 opens if there is one, and its read may be issued
at once (R173; 20_memory.md R65). -/
def State.enterSetup (s : State) (go : Bool) : State :=
  ((({ s with setupLeft := s.cfg.setupLat, late := false,
              prep := if s.nleds = 0 then .none else .pending }).goto .setup).emit .irqOff).issue go

/-- One cycle of WAITIDLE: `NOW - LASTMARK >= WAIT` ends the wait (R172). -/
def State.waitIdleCycle (s : State) (p : PortIn) : State :=
  if s.lastmark + s.cfg.wait ≤ s.now then s.enterSetup p.go else s

/-- The registers SETUP writes, in the order of R173: `S`, then `E` from it, then `D` from that, and the indices. -/
def State.seed (s : State) : State :=
  { s with
    sreg := frameScale s.op s.scale
    ereg := maskAll (frameScale s.op s.scale)
    dreg := seedAll s.dstore (maskAll (frameScale s.op s.scale))
    pix := 0, slot := 0, biti := 7 }

/-- Byte 0 at the first bit boundary: `CURB` if it was prepared within SETUP, any byte otherwise (70_reset_and_hazards.md R246,
U2). -/
def State.firstByte (s : State) : State := if s.prep = .ready then s else s.missDeadline.freeCurb

/-- Enter XMIT: the counter starts at `TOTAL` with `WRAP = 1`, and the window of byte 1 opens (40_timing_primitives.md R100,
42_bit_engine.md R156). -/
def State.enterXmit (s : State) : State :=
  ({ s with cnt := (countStart s.cfg).1, wrap := (countStart s.cfg).2 }.goto .xmit).openWindow

/-- The end of SETUP: XMIT, or ADJUST if there is no pixel (R173, R187). -/
def State.leaveSetup (s : State) (go : Bool) : State :=
  if s.nleds = 0 then s.enterAdjust else s.firstByte.enterXmit.beginXmitCycle go

/-- The first cycle of SETUP, the one with all of SETUP_LAT to run, seeds the registers. -/
def State.seedFirst (s : State) : State := if s.setupLeft = s.cfg.setupLat then s.seed else s

/-- The end of a cycle of SETUP: it lasts SETUP_LAT cycles (R173); until then a pending read may be issued. -/
def State.endSetupCycle (s : State) (go : Bool) : State :=
  if s.setupLeft ≤ 1 then s.leaveSetup go else { s with setupLeft := s.setupLeft - 1 }.issue go

/-- One cycle of SETUP (R173). -/
def State.setupCycle (s : State) (p : PortIn) : State := (s.seedFirst.prepCycle p).endSetupCycle p.go

/-- The write-back `DSTORE[c] <- D[c]` (41_dither_scale.md R128); after a missed deadline any bytes (U2: "for `DSTORE_out`"). -/
def State.writeBack (s : State) : State :=
  if s.late then
    { s with dstore := { b0 := freeByte s.freeIx, b1 := freeByte (s.freeIx + 1), b2 := freeByte (s.freeIx + 2) },
             freeIx := s.freeIx + 3 }
  else { s with dstore := s.dreg }

/-- The one cycle of ADJUST (R175); interrupts come back with the next cycle (event irq_on, R176). -/
def State.adjustCycle (s : State) : State := (s.writeBack.goto .restore).emit .irqOn

/-- The one cycle of RESTORE: `LASTMARK <- NOW`, event mark, `CST <- IDLE` (R176). -/
def State.restoreCycle (s : State) : State := ({ s with lastmark := s.now }.goto .idle).emit .mark

/-- One cycle of the sequencer outside acceptance (R170: there is no other edge). -/
def State.sequencerCycle (s : State) (p : PortIn) : State :=
  match s.cst with
  | .idle => s
  | .waitIdle => s.waitIdleCycle p
  | .setup => s.setupCycle p
  | .xmit => s.xmitCycle p
  | .adjust => s.adjustCycle
  | .restore => s.restoreCycle

/-- Latches that no accepted command can have left, in a busy state (log 9). -/
def State.busyFault (s : State) : Option Fault :=
  if s.op = .init then some .busyWithInit
  else if s.op == .showFrame && !bufferFits s.cfg s.base s.nleds then some .bufferOutsideSpace
  else if !tickFits s.cfg s.nleds then some .tickOutsideWidth
  else none

/-- The buffer of a running SHOW is lent to the block (20_memory.md R69). -/
def State.lends (s : State) (a : Addr) : Bool :=
  s.busy && s.op == .showFrame && inBuffer s.cfg s.base s.nleds a

/-- A store of the host to a lent byte races with the block's reads of it: the value it supersedes is kept (20_memory.md R71, U6). -/
def State.noteRace (s : State) : Option (Addr × Byte) → State
  | none => s
  | some (a, _) => if s.lends a then { s with superseded := (a, s.mem.read a.toNat) :: s.superseded } else s

/-- The end of a cycle whose commands and sequencer made `t` of the state: the host's store lands, wherever it goes (in the lent buffer
it is a race, from the accepting cycle on: R69, R71), `NOW` steps, and the next inputs come. -/
def finishCycle (t : State) (store : Option (Addr × Byte)) : State :=
  ((t.noteRace store).hostStores store).countCycle.nextPorts

/-- The end of the accepting cycle: as every cycle, if the command was accepted. -/
def finishAccept (store : Option (Addr × Byte)) :
    Host.Outcome State Fault Refusal → Host.Outcome State Fault Refusal
  | .next t => .next (finishCycle t store)
  | .fault f => .fault f
  | .refused r => .refused r

/-- A cycle with `RST = 1`: it overrides everything, and the next cycle is cycle `NOW = 0` (70_reset_and_hazards.md R240; 60_exceptions.md
R215). The host's store is outside the block and lands all the same. In the cycle of ADJUST the strobe and its event have been given
(DESIGN CHOICE, log 27, unsafe); the write-back and the mark are not made. -/
def resetCycle (s : State) (store : Option (Addr × Byte)) : State := (s.resetBlock.hostStores store).nextPorts

end Sys2Proof.Machine
end

