-- ==== Sys2Proof/WellFormed.lean ====
section
/-! DEFINITION. Which commands an instance admits. The operand fields have their widths by their types; what is left to check
are the two bounds outside which the spec gives no behaviour (spec/70_reset_and_hazards.md R255). -/

namespace Sys2Proof

/-- The buffer of a SHOW lies inside the address space (20_memory.md R66). -/
def Instr.bufferOk (cfg : Config) : Instr → Bool
  | .init => true
  | .showFrame base n _ => Machine.bufferFits cfg base n
  | .showColor _ _ _ => true
  | .clear _ => true

/-- The tick value of a frame command fits the tick output (43_controller_commands.md R177). -/
def Instr.tickOk (cfg : Config) : Instr → Bool
  | .init => true
  | .showFrame _ n _ => Machine.tickFits cfg n
  | .showColor _ n _ => Machine.tickFits cfg n
  | .clear n => Machine.tickFits cfg n

/-- A command the instance admits: both bounds of R255 hold. -/
def Instr.wellFormed (cfg : Config) (i : Instr) : Bool := i.bufferOk cfg && i.tickOk cfg

end Sys2Proof
end

