-- ==== Sys2Proof/Machine/Commands.lean ====
section
/-! DEFINITION. The four commands (spec/43_controller_commands.md R180 to R183): what each does in its accepting cycle. INIT
is complete in that cycle; a frame command loads its latches and starts the sequencer (R171), whose cycles (Machine/Controller.lean)
carry out the phases R172 to R176 that are the rest of its pseudocode. -/

namespace Sys2Proof.Machine

/-- `INIT` (R180): `PIN_OE <- 1`, `PIN_OUT <- 0`; `CST` stays IDLE. -/
def execInit (s : State) : Host.Outcome State Fault Refusal :=
  .next { (s.latch .init).setPin false with pinOe := true }

/-- A frame command's acceptance: `CST <- WAITIDLE`, and the loan of the buffer begins (R171; 20_memory.md R69), unless its tick value
does not fit (R177, U9). -/
def acceptFrame (n : BitVec 16) (s : State) : Host.Outcome State Fault Refusal :=
  if tickFits s.cfg n then .next (s.goto .waitIdle).freshLoan else .refused .tickTooLarge

/-- `SHOW base, n, scale` (R181); a buffer past the top of the address space is refused (20_memory.md R66, U7). -/
def execShow (base : Addr) (n : BitVec 16) (scale : Triple) (s : State) : Host.Outcome State Fault Refusal :=
  if bufferFits s.cfg base n then acceptFrame n ((s.latch (.showFrame base n scale)).latchBase base)
  else .refused .bufferPastTop

/-- `SHOWCOLOR color, n, scale` (R182). -/
def execShowColor (color : Triple) (n : BitVec 16) (scale : Triple) (s : State) : Host.Outcome State Fault Refusal :=
  acceptFrame n ((s.latch (.showColor color n scale)).latchColor color)

/-- `CLEAR n` (R183): scale (0,0,0), raw bytes 0. -/
def execClear (n : BitVec 16) (s : State) : Host.Outcome State Fault Refusal :=
  acceptFrame n (s.latch (.clear n))

end Sys2Proof.Machine
end

