-- ==== Sys2Proof/Machine/Dispatch.lean ====
section
/-! DEFINITION. One arm per command. -/

namespace Sys2Proof.Machine

def exec (i : Instr) (s : State) : Host.Outcome State Fault Refusal :=
  match i with
  | .init => Sys2Proof.Machine.execInit s
  | .showFrame base n scale => Sys2Proof.Machine.execShow base n scale s
  | .showColor color n scale => Sys2Proof.Machine.execShowColor color n scale s
  | .clear n => Sys2Proof.Machine.execClear n s

end Sys2Proof.Machine
end

