-- ==== Sys2Proof/Machine/Step.lean ====
section
/-! DEFINITION. One step of the machine: one CLK cycle (spec/10_state.md R40, spec/60_exceptions.md R215). -/

namespace Sys2Proof.Machine

/-- One CLK cycle. RST first; else in IDLE a command on the port is accepted (10_state.md R41, 30_encoding.md R93), its word
decoded and run; else the sequencer runs one cycle, and the command port is ignored. -/
def step (s : State) : Host.Outcome State Fault Refusal :=
  if s.port.rst then .next (resetCycle s s.port.hostStore)
  else if s.cst = .idle then
    if s.port.cmdValid then
      match decode s.port.cmdWord with
      | .ok i => finishAccept s.port.hostStore (exec i s)
      | .error why => .refused (.nonCanonicalWord why)
    else .next (finishCycle s s.port.hostStore)
  else
    match s.busyFault with
    | some f => .fault f
    | none => .next (finishCycle (s.sequencerCycle s.port) s.port.hostStore)

/-- The input wires of a cycle in which the host offers a command word and does nothing else, the memory being as `p` has it. -/
def offerWord (p : PortIn) (w : CmdWord) : PortIn :=
  { p with rst := false, cmdValid := true, cmdWord := w, hostStore := none }

/-- `s` with a command word offered in this cycle, in which the block is ready for one: the block loads no program of its own,
it takes a command from the port when `CST` is IDLE (10_state.md R31, R41; log 3). -/
def State.withFetchWord (s : State) (nbits w : Nat) : State :=
  { s with cst := .idle, ports := offerWord s.port (BitVec.ofNat 96 (w % 2 ^ nbits)) :: s.ports.tail }

end Sys2Proof.Machine
end

