-- ==== Sys2Proof/Machine/Frame.lean ====
section
/-! DEFINITION. The frame level (spec/00_scope.md R13): the bit stream and the Dither State of a frame as a pure function of its
operands (spec/42_bit_engine.md R145), its reads, its schedule (spec/43_controller_commands.md R178) and its trace (R179). -/

namespace Sys2Proof.Machine

/-- The bits of a byte as they go out, MSB first (42_bit_engine.md R144). -/
def byteBits (b : Byte) : List Bool :=
  [b.getLsbD 7, b.getLsbD 6, b.getLsbD 5, b.getLsbD 4, b.getLsbD 3, b.getLsbD 2, b.getLsbD 1, b.getLsbD 0]

/-- The three bytes of a pixel in wire-slot order, slot `k` carrying channel `ORDER[k]`, and `D` after them (42_bit_engine.md
R141, R145). -/
def pixelBytes (o : ColorOrder) (s e : Triple) (raw : Fin 3 → Byte) (d : Triple) : List Byte × Triple :=
  let r0 := correct s e d (channelAt o 0) (raw (channelAt o 0))
  let r1 := correct s e r0.2 (channelAt o 1) (raw (channelAt o 1))
  let r2 := correct s e r1.2 (channelAt o 2) (raw (channelAt o 2))
  ([r0.1, r1.1, r2.1], r2.2)

/-- The bytes of `k` pixels from pixel `i` on, and `D` after them (42_bit_engine.md R145). -/
def frameBytes (o : ColorOrder) (s e : Triple) (raw : Nat → Fin 3 → Byte) : Nat → Nat → Triple → List Byte × Triple
  | 0, _, d => ([], d)
  | k + 1, i, d =>
    let r := pixelBytes o s e (raw i) d
    let rest := frameBytes o s e raw k (i + 1) r.2
    (r.1 ++ rest.1, rest.2)

/-- `FrameBits(OP, n, SCALE, BASE, COLOR, DSTORE_in)`: the bit stream and `DSTORE_out` (42_bit_engine.md R145). -/
def frameBits (cfg : Config) (mem : Memory) (op : Opcode) (n : Nat) (scale : Triple) (base : Addr) (color dstore : Triple) :
    List Bool × Triple :=
  let s := frameScale op scale
  let r := frameBytes cfg.order s (maskAll s) (rawByte cfg mem op base color) n 0 (seedAll dstore (maskAll s))
  (r.1.flatMap byteBits, r.2)

/-- The addresses of the reads of `k` pixels from pixel `i` on, in transmission order (20_memory.md R64, R65). -/
def showReads (cfg : Config) (base : Addr) : Nat → Nat → List Addr
  | 0, _ => []
  | k + 1, i =>
    [BitVec.ofNat 32 (pixAddr cfg base i (channelAt cfg.order 0)), BitVec.ofNat 32 (pixAddr cfg base i (channelAt cfg.order 1)),
     BitVec.ofNat 32 (pixAddr cfg base i (channelAt cfg.order 2))] ++ showReads cfg base k (i + 1)

/-- The reads of a frame: `3n` for SHOW, none for the others (20_memory.md R64, R75). -/
def frameReads (cfg : Config) (op : Opcode) (base : Addr) (n : Nat) : List Addr :=
  match op with
  | .init => []
  | .showFrame => showReads cfg base n 0
  | .showColor => []
  | .clear => []

/-- The frame of a command: what `frameBits` gives for its operands. INIT sends nothing. -/
def commandFrame (cfg : Config) (mem : Memory) (dstore : Triple) : Instr → List Bool × Triple
  | .init => ([], dstore)
  | .showFrame base n sc => frameBits cfg mem .showFrame n.toNat sc base .zero dstore
  | .showColor color n sc => frameBits cfg mem .showColor n.toNat sc 0 color dstore
  | .clear n => frameBits cfg mem .clear n.toNat .zero 0 .zero dstore

/-- The reads of a command, in order. -/
def commandReads (cfg : Config) : Instr → List Addr
  | .init => []
  | .showFrame base n _ => frameReads cfg .showFrame base n.toNat
  | .showColor _ _ _ => []
  | .clear _ => []

/-! ## The schedule (43_controller_commands.md R178) -/

/-- `w = max(a+1, L + WAIT)`, the last cycle of WAITIDLE. -/
def waitEnd (cfg : Config) (a lastmark : Nat) : Nat := max (a + 1) (lastmark + cfg.wait)

/-- `f = w + SETUP_LAT + 1`, the first cycle of XMIT. -/
def firstBit (cfg : Config) (a lastmark : Nat) : Nat := waitEnd cfg a lastmark + cfg.setupLat + 1

/-- `g = f + 24n*TOTAL`, the cycle of ADJUST. -/
def adjustAt (cfg : Config) (a lastmark n : Nat) : Nat := firstBit cfg a lastmark + frameCycles cfg n

/-- How many cycles after its accepting cycle `a` a frame command's `BUSY` has fallen: the block is in IDLE in cycle `g + 2`. -/
def busyCycles (cfg : Config) (a lastmark n : Nat) : Nat := adjustAt cfg a lastmark n + 2 - a

/-- `CST` in cycle `c` of a frame command accepted in cycle `a` (the table of R178). -/
def scheduledCst (cfg : Config) (a lastmark n c : Nat) : Cst :=
  if c ≤ a then .idle
  else if c ≤ waitEnd cfg a lastmark then .waitIdle
  else if c ≤ waitEnd cfg a lastmark + cfg.setupLat then .setup
  else if c < adjustAt cfg a lastmark n then .xmit
  else if c = adjustAt cfg a lastmark n then .adjust
  else if c = adjustAt cfg a lastmark n + 1 then .restore
  else .idle

/-! ## The trace (43_controller_commands.md R179) -/

/-- The bits of a trace, in order. -/
def traceBits : List Event → List Bool
  | [] => []
  | .bit b :: es => b :: traceBits es
  | .irqOff :: es => traceBits es
  | .read _ :: es => traceBits es
  | .tick _ :: es => traceBits es
  | .irqOn :: es => traceBits es
  | .mark :: es => traceBits es

/-- The addresses read in a trace, in order. -/
def traceReads : List Event → List Addr
  | [] => []
  | .read a :: es => a :: traceReads es
  | .irqOff :: es => traceReads es
  | .bit _ :: es => traceReads es
  | .tick _ :: es => traceReads es
  | .irqOn :: es => traceReads es
  | .mark :: es => traceReads es

/-- A trace holds bits and reads only. -/
def wireOnly : List Event → Bool
  | [] => true
  | .bit _ :: es => wireOnly es
  | .read _ :: es => wireOnly es
  | .irqOff :: _ => false
  | .tick _ :: _ => false
  | .irqOn :: _ => false
  | .mark :: _ => false

/-- The constraint of R65 and R179 on the interleaving, `b` bits and `r` reads having gone before: the first bit of byte `j` comes
after `read(a_j)`, and `read(a_j)` for `j >= 1` after the first bit of byte `j-1`. -/
def interleaved : Nat → Nat → List Event → Bool
  | _, _, [] => true
  | b, r, .bit _ :: es => decide (b / 8 < r) && interleaved (b + 1) r es
  | b, r, .read _ :: es => (decide (r = 0) || decide (8 * (r - 1) < b)) && interleaved b (r + 1) es
  | b, r, .irqOff :: es => interleaved b r es
  | b, r, .tick _ :: es => interleaved b r es
  | b, r, .irqOn :: es => interleaved b r es
  | b, r, .mark :: es => interleaved b r es

end Sys2Proof.Machine
end

