-- ==== Sys2Proof/Safety.lean ====
section
/-! DEFINITION. The terms claims use: a run of the machine, what the outside must keep to (spec/70_reset_and_hazards.md H1, H2),
and the invariant of the state. -/

namespace Sys2Proof.Machine

/-- `k` cycles from `s`. -/
abbrev runFor (k : Nat) (s : State) : Host.Outcome State Fault Refusal := Host.Core.run Sys2Proof.core k s

/-! ## Premises on the outside -/

/-- A cycle without reset. What the other wires carry, a store of the host to the lent buffer among it, is open. -/
def State.Calm (s : State) : Prop := s.port.rst = false

/-- The host offers command `i` in this cycle. -/
def State.Offers (s : State) (i : Instr) : Prop := s.port.cmdValid = true ∧ decode s.port.cmdWord = .ok i

/-- The input wires `j` cycles from now. -/
def State.portAt (s : State) (j : Nat) : PortIn := s.ports.getD j .quiet

/-- In the next `k` cycles the block is not reset. -/
def State.Undisturbed (s : State) (k : Nat) : Prop := ∀ j < k, (s.portAt j).rst = false

/-- The byte at `a` lies in the buffer that command `i` borrows: a SHOW's (20_memory.md R69), no other's (R75). -/
def Instr.borrows (cfg : Config) (i : Instr) (a : Addr) : Bool :=
  match i with
  | .init => false
  | .showFrame base n _ => inBuffer cfg base n a
  | .showColor _ _ _ => false
  | .clear _ => false

/-- In the next `k` cycles the host stores to no byte that command `i` borrows (20_memory.md R69; 70_reset_and_hazards.md H1). -/
def State.KeepsLoan (s : State) (i : Instr) (k : Nat) : Prop :=
  ∀ j < k, ∀ x, (s.portAt j).hostStore = some x → Instr.borrows s.cfg i x.1 = false

/-- In every `k` consecutive cycles the wires satisfy `f` at least once. -/
def State.EveryWithin (s : State) (k : Nat) (f : PortIn → Bool) : Prop := ∀ j, ∃ m < k, f (s.portAt (j + m)) = true

/-- The platform keeps the look-ahead budget (42_bit_engine.md R151, 70_reset_and_hazards.md R246): a preparation is issued within
`goLat` cycles of its window opening, the memory answers a SHOW's request within `memLat` cycles (other commands ask no memory, and
`memLat` may be 0 if the data path takes a cycle), and the data path's PREP_LAT fits what is left of the previous byte, and of SETUP
for byte 0. With `goLat = 1` the first bound is R151's `MEM_LAT + PREP_LAT < 8 * TOTAL`. -/
def State.Timely (s : State) (op : Opcode) : Prop :=
  ∃ goLat memLat, s.EveryWithin goLat PortIn.go ∧ (op = .showFrame → s.EveryWithin memLat PortIn.memAck) ∧
    1 ≤ memLat + s.cfg.prepLat ∧ goLat + memLat + s.cfg.prepLat ≤ 8 * total s.cfg ∧
    goLat + memLat + s.cfg.prepLat ≤ s.cfg.setupLat + 1

/-- A frame command `i` is offered to an idle block that admits it, whose pin is low and whose memory is in its canonical form (both
hold in every idle state that meets the invariant), until `BUSY` has fallen there is no reset, and the platform keeps to H2. All of it
is about the state, its coming inputs and the operands. That the host keeps to H1 is no part of it: `State.KeepsLoan`. -/
structure State.StartsFrame (s : State) (i : Instr) : Prop where
  frame : i.opcode.isFrame = true
  admitted : i.wellFormed s.cfg = true
  idle : s.cst = .idle
  offered : s.Offers i
  low : s.pinOut = false
  memory : s.mem.wf = true
  noReset : s.Undisturbed (busyCycles s.cfg s.now s.lastmark i.count.toNat)
  timely : s.Timely i.opcode

/-! ## The invariant -/

/-- Memory is in its canonical form. -/
def State.MemOk (s : State) : Prop := s.mem.wf = true

/-- A busy block has the latches of an accepted command (43_controller_commands.md R171; 70_reset_and_hazards.md R255). -/
def State.LatchesOk (s : State) : Prop := s.cst ≠ .idle → s.busyFault = none

/-- No mark lies in the future (10_state.md R27, R32). -/
def State.ClockOk (s : State) : Prop := s.lastmark ≤ s.now

/-- SETUP has between 1 and SETUP_LAT cycles to run (43_controller_commands.md R173). -/
def State.SetupOk (s : State) : Prop := s.cst = .setup → 1 ≤ s.setupLeft ∧ s.setupLeft ≤ s.cfg.setupLat

/-- In XMIT the counter holds one of `TOTAL` down to 1, and `WRAP` is 1 exactly at `TOTAL` (40_timing_primitives.md R100). -/
def State.CounterOk (s : State) : Prop :=
  s.cst = .xmit → 1 ≤ s.cnt.toNat ∧ s.cnt.toNat ≤ total s.cfg ∧ (s.wrap = true ↔ s.cnt.toNat = total s.cfg)

/-- In XMIT the byte on the wire belongs to a pixel of the frame; once SETUP has seeded them the indices stand at the frame's first
bit (10_state.md R26, 43_controller_commands.md R173). -/
def State.PositionOk (s : State) : Prop :=
  (s.cst = .xmit → s.pix.toNat < s.nleds.toNat) ∧
  (s.cst = .setup → s.setupLeft < s.cfg.setupLat → s.pix = 0 ∧ s.slot = 0 ∧ s.biti = 7)

/-- The pin: in XMIT the level R147 gives for the bit and the cycle offset; low in every other state (42_bit_engine.md R147,
R154). -/
def State.PinOk (s : State) : Prop :=
  (s.cst = .xmit → s.pinOut = waveLevel s.cfg (currentBit s) (cOff s.cfg s.cnt)) ∧ (s.cst ≠ .xmit → s.pinOut = false)

/-- The registers of the frame have been seeded: in XMIT, ADJUST and RESTORE, and in SETUP after its first cycle. -/
def State.Seeded (s : State) : Prop :=
  s.cst = .xmit ∨ s.cst = .adjust ∨ s.cst = .restore ∨ (s.cst = .setup ∧ s.setupLeft < s.cfg.setupLat)

/-- In a seeded frame `S` is the frame's scale, `E` is its mask, and every `D` lies within its mask (10_state.md R21 to R23). -/
def State.DitherOk (s : State) : Prop :=
  s.Seeded → s.sreg = frameScale s.op s.scale ∧ s.ereg = maskAll s.sreg ∧
    ∀ c : Fin 3, s.dreg.get c &&& s.ereg.get c = s.dreg.get c

/-- The look-ahead is at work in SETUP and XMIT only; a byte waits to be read only where there is one; a request is a SHOW's, for a
byte of its buffer; and a frame that is on time prepares nothing during its last byte (20_memory.md R64, R65). -/
def State.PrepOk (s : State) : Prop :=
  (s.cst ≠ .setup → s.cst ≠ .xmit → s.prep = .none) ∧
  (s.prep = .pending → s.cst = .setup → 0 < s.nleds.toNat) ∧
  (s.prep = .pending → s.cst = .xmit → s.hasNext = true) ∧
  (∀ a, s.prep = .reading a → s.op = .showFrame ∧ inBuffer s.cfg s.base s.nleds a = true) ∧
  (s.cst = .xmit → s.hasNext = false → s.late = false → s.prep = .none)

/-- Races are noted for bytes of the lent buffer only (20_memory.md R69, R71). -/
def State.RaceOk (s : State) : Prop :=
  s.cst ≠ .idle → ∀ c ∈ s.superseded, s.op = .showFrame ∧ inBuffer s.cfg s.base s.nleds c.1 = true

/-- In ADJUST the tick output holds the frame's tick value (43_controller_commands.md R175, R177). -/
def State.TickOk (s : State) : Prop := s.cst = .adjust → s.tickval.toNat = tickMs s.cfg s.nleds.toNat

/-- The invariant: what holds of the state in every cycle. -/
structure State.Inv (s : State) : Prop where
  mem : s.MemOk
  latches : s.LatchesOk
  clock : s.ClockOk
  setup : s.SetupOk
  counter : s.CounterOk
  position : s.PositionOk
  pin : s.PinOk
  dither : s.DitherOk
  prep : s.PrepOk
  race : s.RaceOk
  tick : s.TickOk

/-! ## The part of the state that decides the timing -/

/-- What stands where in the look-ahead, without the address or the byte. -/
def Prep.phase : Prep → Nat × Nat
  | .none => (0, 0)
  | .pending => (1, 0)
  | .reading _ => (2, 0)
  | .computing _ left => (3, left)
  | .ready => (4, 0)

/-- The wires of one cycle but for the host's store: a store, even one that races, moves no cycle. -/
def PortIn.timing (p : PortIn) : Bool × Bool × CmdWord × Bool × Bool := (p.rst, p.cmdValid, p.cmdWord, p.memAck, p.go)

/-- Two states that differ at most in DATA: pixel bytes, colours, scales, dither values, the bytes on the wire and the memory's
contents (42_bit_engine.md R153). -/
structure SameTiming (s s' : State) : Prop where
  cfg : s.cfg = s'.cfg
  now : s.now = s'.now
  lastmark : s.lastmark = s'.lastmark
  cst : s.cst = s'.cst
  op : s.op = s'.op
  nleds : s.nleds = s'.nleds
  base : s.base = s'.base
  pix : s.pix = s'.pix
  slot : s.slot = s'.slot
  biti : s.biti = s'.biti
  cnt : s.cnt = s'.cnt
  wrap : s.wrap = s'.wrap
  setupLeft : s.setupLeft = s'.setupLeft
  tickval : s.tickval = s'.tickval
  pinOe : s.pinOe = s'.pinOe
  late : s.late = s'.late
  prep : s.prep.phase = s'.prep.phase
  ports : s.ports.map PortIn.timing = s'.ports.map PortIn.timing

end Sys2Proof.Machine
end

