-- ==== Sys2Proof/Certificates/Slice0/Obligations.lean ====
section
/-! DEFINITION. The statements for the provers, in the order of the spec's files. "R<n>" is a numbered rule of spec/, "log <n>" a
row of notes/assumptions/. -/

open Sys2Proof Sys2Proof.Machine

/-! ## Configuration (00_scope.md) -/

/-- R10, R90, U1, U3, U10: an instance is built exactly from a legal record with `FLIP = 0` and `HAS_SHOWCOLOR = 1`, keeps its
numbers, and its order is a permutation with the code of R90; an illegal record is refused by name. That SETUP_LAT is at least 1 is
R9's range, made part of the contract by log 5. -/
def Obligations.LegalConfigurationsAreBuiltOthersRefused : Prop :=
  (∀ r cfg, buildConfig r = .ok cfg →
    0 < r.t1 ∧ 0 < r.t2 ∧ 0 < r.t3 ∧ r.t1 + r.t2 + r.t3 < 2 ^ 24 ∧ 0 < r.clksPerUs ∧ 0 < r.setupLat ∧ r.flip = false ∧
    r.hasShowColor = true ∧
    r.order = ((channelAt cfg.order 0).val, (channelAt cfg.order 1).val, (channelAt cfg.order 2).val) ∧
    cfg.t1 = r.t1 ∧ cfg.t2 = r.t2 ∧ cfg.t3 = r.t3 ∧ cfg.wait = r.wait ∧ cfg.skip = r.skip ∧ cfg.clksPerUs = r.clksPerUs ∧
    cfg.setupLat = r.setupLat ∧ cfg.prepLat = r.prepLat ∧ cfg.pinId = r.pinId) ∧
  (∀ o : ColorOrder, Function.Bijective (channelAt o)) ∧
  (∀ (r : RawConfig) (o : ColorOrder), 0 < r.t1 → 0 < r.t2 → 0 < r.t3 → r.t1 + r.t2 + r.t3 < 2 ^ 24 → 0 < r.clksPerUs →
    0 < r.setupLat → r.order = ((channelAt o 0).val, (channelAt o 1).val, (channelAt o 2).val) →
    (r.flip = true → buildConfig r = .error .flipUndefined) ∧
    (r.flip = false → r.hasShowColor = false → buildConfig r = .error .noShowColor) ∧
    (r.flip = false → r.hasShowColor = true → ∃ cfg, buildConfig r = .ok cfg ∧ cfg.order = o)) ∧
  (∀ r : RawConfig, (r.t1 = 0 ∨ r.t2 = 0 ∨ r.t3 = 0 ∨ 2 ^ 24 ≤ r.t1 + r.t2 + r.t3 ∨ r.clksPerUs = 0 ∨
    ∀ o : ColorOrder, r.order ≠ ((channelAt o 0).val, (channelAt o 1).val, (channelAt o 2).val)) →
    buildConfig r = .error .illegal)

/-- R8: no step, a reset included, changes the configuration. -/
def Obligations.ConfigurationNeverChanges : Prop :=
  ∀ (k : Nat) (s u : State), runFor k s = .next u → u.cfg = s.cfg

/-! ## Encoding (30_encoding.md) -/

/-- R81, R83, R85: decoding the encoding of a command gives it back, with every operand at every value. -/
def Obligations.DecodeOfEncodeIsTheCommand : Prop := ∀ i : Instr, decode (encode i) = .ok i

/-- R85: the decoder admits only canonical encodings, so a command has one admitted word. -/
def Obligations.AdmittedWordIsTheEncoding : Prop := ∀ (w : CmdWord) (i : Instr), decode w = .ok i → encode i = w

/-- R85: the hardware executes a word with reserved or unused bits set exactly as the same word with them cleared; the model
refuses such a word by name, and on the port it stops the step. -/
def Obligations.NonCanonicalWordsRefusedByName : Prop :=
  (∀ w : CmdWord, hwDecode (encode (hwDecode w)) = hwDecode w) ∧
  (∀ w : CmdWord, encode (hwDecode w) = w → decode w = .ok (hwDecode w)) ∧
  (∀ w : CmdWord, encode (hwDecode w) ≠ w →
    decode w = .error (if w &&& reservedMask = 0 then .unusedFieldSet else .reservedBitSet)) ∧
  (∀ s : State, s.cst = .idle → s.port.rst = false → s.port.cmdValid = true → encode (hwDecode s.port.cmdWord) ≠ s.port.cmdWord →
    ∃ why, step s = .refused (.nonCanonicalWord why))

/-- R82, R86: every 96-bit word has the code of exactly one row of the table, the row of the command the hardware decodes. -/
def Obligations.EveryWordIsOneOpcodeRow : Prop :=
  ∀ w : CmdWord, ∃ r ∈ opcodeTable, w &&& r.mask = r.code ∧ (hwDecode w).opcode = r.op ∧
    ∀ r' ∈ opcodeTable, w &&& r'.mask = r'.code → r' = r

/-- The words V1 to V8 of 95_test_vectors.md, written out there from R81, decode to their commands; V9 is refused. -/
def Obligations.SpecWordsDecode : Prop :=
  decode 0x000000000000000000000000 = .ok .init ∧
  decode 0x2000000000FFFFFF00000101 = .ok (.showFrame 0x20000000 1 ⟨255, 255, 255⟩) ∧
  decode 0x000010000014014000000201 = .ok (.showFrame 0x1000 2 ⟨64, 1, 20⟩) ∧
  decode 0x0000000100FFFF0100000202 = .ok (.showColor ⟨1, 0, 0⟩ 2 ⟨1, 255, 255⟩) ∧
  decode 0x001E140A00FF208000000302 = .ok (.showColor ⟨10, 20, 30⟩ 3 ⟨128, 32, 255⟩) ∧
  decode 0x000000000000000000000203 = .ok (.clear 2) ∧
  decode 0x000000000000000000005703 = .ok (.clear 87) ∧
  decode 0x000000000000000000FFFF01 = .ok (.showFrame 0 65535 ⟨0, 0, 0⟩) ∧
  decode 0x0000000000000000000000FF = .error .reservedBitSet

/-! ## The step -/

/-- R41, R93, R215: when an idle block is offered a command, the cycle is `exec` of it, and then what every cycle ends with (the
host's store, `NOW`, the next inputs). -/
def Obligations.StepRunsTheOfferedCommand : Prop :=
  ∀ (s : State) (i : Instr), s.cst = .idle → s.port.rst = false → s.Offers i →
    step s = finishAccept s.port.hostStore (exec i s) ∧
    ∀ t, exec i s = .next t → s.port.hostStore = none →
      step s = .next { t with now := t.now + 1, ports := t.ports.tail }

/-- R93, R76: while the block is busy the command port is ignored entirely; in IDLE a word without `CMD_VALID` is, and the block
stays in IDLE. -/
def Obligations.CommandPortIgnoredUnlessReady : Prop :=
  (∀ (s : State) (v : Bool) (w : CmdWord), s.cst ≠ .idle →
    step { s with ports := { s.port with cmdValid := v, cmdWord := w } :: s.ports.tail } = step s) ∧
  (∀ (s : State) (w : CmdWord), s.port.cmdValid = false →
    step { s with ports := { s.port with cmdWord := w } :: s.ports.tail } = step s) ∧
  (∀ s : State, s.cst = .idle → s.port.rst = false → s.port.cmdValid = false →
    step s = .next { s.hostStores s.port.hostStore with now := s.now + 1, ports := s.ports.tail })

/-- R42, R215: `MEM_ACK` without `MEM_REQ` is ignored. -/
def Obligations.AckWithoutRequestIgnored : Prop :=
  ∀ (s : State) (b : Bool), s.memReq = false →
    step { s with ports := { s.port with memAck := b } :: s.ports.tail } = step s

/-- R240, with the values of R39: `RST` overrides everything: whatever the block was doing and whatever the other wires carry, the
next cycle is `NOW = 0` with every value R39 states. -/
def Obligations.ResetOverridesEverything : Prop :=
  ∀ s : State, s.port.rst = true →
    ∃ t, step s = .next t ∧ t.dstore = .zero ∧ t.cst = .idle ∧ t.now = 0 ∧ t.lastmark = 0 ∧ t.pinOe = false ∧ t.pinOut = false ∧
      t.irqInhibit = false ∧ t.busy = false ∧ t.cmdReady = true ∧ t.memReq = false ∧ t.tickValid = false

/-- THE MODEL'S CHOICE (log 25 on what is outside the block, log 18 on the trace): a reset leaves the instance, the memory but for
the host's store, the coming inputs and the number of the next free value alone, and appends no event, though `IRQ_INHIBIT` may
fall. Nor does it take one back: in the cycle of ADJUST the tick event stands (log 27). -/
def Obligations.ResetLeavesTheOutsideAlone : Prop :=
  ∀ s : State, s.port.rst = true →
    ∃ t, step s = .next t ∧ t.cfg = s.cfg ∧ t.ports = s.ports.tail ∧ t.freeIx = s.freeIx ∧ t.trace = s.trace ∧
      t.mem = (s.hostStores s.port.hostStore).mem

/-- R39, R241: the state after reset, in every instance. THE MODEL'S CHOICE is the second clause: which instance `State.reset`
stands in (log 4), and that its memory lists nothing (log 7), no input is to come (log 2) and the trace is empty (log 18). -/
def Obligations.StateAfterReset : Prop :=
  (∀ (cfg : Config) (m : Memory) (ps : List PortIn) (es : List Event) (x : Nat),
    let s := State.resetWith cfg m ps es x
    s.dstore = ⟨0, 0, 0⟩ ∧ s.cst = .idle ∧ s.now = 0 ∧ s.lastmark = 0 ∧ s.pinOe = false ∧ s.pinOut = false ∧
    s.irqInhibit = false ∧ s.busy = false ∧ s.cmdReady = true ∧ s.memReq = false ∧ s.tickValid = false ∧ s.line = none) ∧
  State.reset = State.resetWith Config.reference [] [] [] 0

/-- R20(d), R33, R41, R46, R213, R28, R45: the status outputs are functions of `CST`. That `TICK_VALID` is one also in a cycle of ADJUST
in which `RST` is sampled is the model's choice (log 27). -/
def Obligations.StatusOutputsFollowCst : Prop :=
  ∀ s : State, (s.busy = true ↔ s.cst ≠ .idle) ∧ (s.cmdReady = true ↔ s.cst = .idle) ∧
    (s.irqInhibit = true ↔ (s.cst = .setup ∨ s.cst = .xmit ∨ s.cst = .adjust)) ∧
    (s.tickValid = true ↔ s.cst = .adjust) ∧ (s.counterEnabled = true ↔ s.cst = .xmit) ∧
    (s.line = if s.pinOe then some s.pinOut else none)

/-! ## The commands in their accepting cycle (43_controller_commands.md) -/

/-- R180: INIT. `PIN_OE` and `PIN_OUT` are written; `CST` stays; of the rest only the latches R83 loads for every command. A second
INIT changes nothing; its word is the canonical word 0; an idle block carries it out in the accepting cycle; during a frame it is
not accepted (no cycle of a busy block writes `PIN_OE`). -/
def Obligations.InitDrivesThePinLow : Prop :=
  (∀ s : State, exec .init s =
    .next { s with pinOe := true, pinOut := false, op := .init, nleds := 0, scale := .zero }) ∧
  (∀ s t u : State, exec .init s = .next t → exec .init t = .next u → u = t) ∧
  encode .init = 0 ∧
  (∀ s : State, s.cst = .idle → s.port.rst = false → s.port.cmdValid = true → s.port.cmdWord = 0 →
    ∃ t, step s = .next t ∧ t.pinOe = true ∧ t.pinOut = false ∧ t.cst = .idle ∧ t.busy = false ∧ t.dstore = s.dstore ∧
      t.lastmark = s.lastmark ∧ t.irqInhibit = s.irqInhibit ∧ (s.port.hostStore = none → t.mem = s.mem) ∧ t.trace = s.trace ∧ t.memReq = s.memReq ∧
      t.tickValid = s.tickValid ∧ t.tickMsOut = s.tickMsOut) ∧
  (∀ s t : State, s.cst ≠ .idle → s.port.rst = false → step s = .next t → t.pinOe = s.pinOe)

/-- R171, R83, R84, R181, R69: a SHOW within the bounds is accepted: its operands are latched, `COLOR` is not, `CST <- WAITIDLE`,
and the loan of its buffer begins with no store to it yet (`superseded`, log 13). Nothing else changes, and every byte of memory
reads as before. -/
def Obligations.ShowIsAccepted : Prop :=
  ∀ (s : State) (base : Addr) (n : BitVec 16) (sc : Triple), base.toNat + s.cfg.skip + 3 * n.toNat ≤ 2 ^ 32 →
    tickMs s.cfg n.toNat < 2 ^ 32 →
    exec (.showFrame base n sc) s =
      .next { s with op := .showFrame, nleds := n, scale := sc, base := base, cst := .waitIdle, superseded := [] }

/-- R171, R83, R84, R182: a SHOWCOLOR is accepted: its operands are latched, `BASE` is not, `CST <- WAITIDLE`, and
the races of an earlier loan are forgotten (`superseded`, log 13). -/
def Obligations.ShowColorIsAccepted : Prop :=
  ∀ (s : State) (color : Triple) (n : BitVec 16) (sc : Triple), tickMs s.cfg n.toNat < 2 ^ 32 →
    exec (.showColor color n sc) s =
      .next { s with op := .showColor, nleds := n, scale := sc, color := color, cst := .waitIdle, superseded := [] }

/-- R171, R83, R84, R183: a CLEAR is accepted: `OP`, `NLEDS` and the zero SCALE field are latched, `CST <- WAITIDLE`,
and the races of an earlier loan are forgotten (`superseded`, log 13). -/
def Obligations.ClearIsAccepted : Prop :=
  ∀ (s : State) (n : BitVec 16), tickMs s.cfg n.toNat < 2 ^ 32 →
    exec (.clear n) s =
      .next { s with op := .clear, nleds := n, scale := .zero, cst := .waitIdle, superseded := [] }

/-- R66, U7, R177, U9, R255: outside the bounds a frame command is refused by name; inside them, and for INIT, never. -/
def Obligations.OnlyTheBoundsAreRefused : Prop :=
  (∀ (s : State) (base : Addr) (n : BitVec 16) (sc : Triple), 2 ^ 32 < base.toNat + s.cfg.skip + 3 * n.toNat →
    exec (.showFrame base n sc) s = .refused .bufferPastTop) ∧
  (∀ (s : State) (i : Instr), i.opcode.isFrame = true → i.bufferOk s.cfg = true → 2 ^ 32 ≤ tickMs s.cfg i.count.toNat →
    exec i s = .refused .tickTooLarge) ∧
  (∀ (s : State) (i : Instr), i.wellFormed s.cfg = true → ∃ t, exec i s = .next t)

/-! ## The phases, one cycle each (43_controller_commands.md R170 to R176) -/

/-- R170: the only edges of `CST`, each with what it takes: IDLE is left only by accepting a frame command, WAITIDLE when the
interval has elapsed, SETUP when it is done (to XMIT if there is a pixel, to ADJUST if there is none), XMIT after the last bit. -/
def Obligations.ControllerTakesOnlyItsEdges : Prop :=
  ∀ s t : State, s.port.rst = false → step s = .next t →
    (s.cst = .idle ∧ t.cst = .idle) ∨
    (s.cst = .idle ∧ t.cst = .waitIdle ∧ ∃ i, s.Offers i ∧ i.opcode.isFrame = true) ∨
    (s.cst = .waitIdle ∧ t.cst = .waitIdle ∧ ¬ s.lastmark + s.cfg.wait ≤ s.now) ∨
    (s.cst = .waitIdle ∧ t.cst = .setup ∧ s.lastmark + s.cfg.wait ≤ s.now) ∨
    (s.cst = .setup ∧ t.cst = .setup ∧ 1 < s.setupLeft) ∨
    (s.cst = .setup ∧ t.cst = .xmit ∧ s.setupLeft ≤ 1 ∧ s.nleds ≠ 0) ∨
    (s.cst = .setup ∧ t.cst = .adjust ∧ s.setupLeft ≤ 1 ∧ s.nleds = 0) ∨
    (s.cst = .xmit ∧ t.cst = .xmit) ∨
    (s.cst = .xmit ∧ t.cst = .adjust ∧ s.lastOfByte = true ∧ s.hasNext = false) ∨
    (s.cst = .adjust ∧ t.cst = .restore) ∨ (s.cst = .restore ∧ t.cst = .idle)

/-- R172: WAITIDLE ends in the first cycle with `NOW - LASTMARK >= WAIT` and else stays; interrupts are not inhibited, nothing is
read, the pin does not move; with `LASTMARK = 0` the frame starts no earlier than cycle `WAIT`. -/
def Obligations.WaitIdleEndsWithTheInterval : Prop :=
  ∀ s : State, s.cst = .waitIdle → s.Calm → s.busyFault = none →
    s.irqInhibit = false ∧
    ∃ t, step s = .next t ∧ (s.lastmark + s.cfg.wait ≤ s.now → t.cst = .setup) ∧
      (¬ s.lastmark + s.cfg.wait ≤ s.now →
        t = { s with mem := t.mem, superseded := t.superseded, now := s.now + 1, ports := s.ports.tail }) ∧
      (s.port.hostStore = none → t.mem = s.mem) ∧ t.pinOut = s.pinOut ∧ traceReads t.trace = traceReads s.trace ∧ t.dstore = s.dstore ∧ t.lastmark = s.lastmark ∧
      t.dreg = s.dreg ∧ (s.lastmark = 0 → t.cst = .setup → s.cfg.wait ≤ s.now)

/-- R173, R121, R123, R150, R156, log 17 (the model's choice of the cycle): the first cycle of SETUP writes `S`, `E`, `D` and the
indices; `DSTORE` is only read. `D` is the seed, unless byte 0 is finished in that same cycle: its request answered with PREP_LAT =
0, the raw byte then being the one in memory (or one it races with, log 13), or its raw byte in the last cycle of the data path;
then `CURB` and `D` are what `correct` makes of that raw byte. -/
def Obligations.SetupSeedsTheFrame : Prop :=
  ∀ s : State, s.cst = .setup → s.setupLeft = s.cfg.setupLat → s.Calm → s.busyFault = none →
    let sc := frameScale s.op s.scale
    let seed := seedAll s.dstore (maskAll sc)
    let first := fun raw => correct sc (maskAll sc) seed (channelAt s.cfg.order 0) raw
    ∃ t, step s = .next t ∧ t.sreg = sc ∧ t.ereg = maskAll sc ∧ t.pix = 0 ∧ t.slot = 0 ∧ t.biti = 7 ∧ t.dstore = s.dstore ∧
      t.lastmark = s.lastmark ∧
      (∀ a, s.prep = .reading a → s.port.memAck = true → s.cfg.prepLat = 0 →
        ∃ raw, (raw = s.mem.read a.toNat ∨ raw ∈ s.racing a s.port.hostStore) ∧ (t.curb, t.dreg) = first raw) ∧
      (∀ raw, s.prep = .computing raw 0 → (t.curb, t.dreg) = first raw) ∧
      ((∀ a, s.prep = .reading a → s.port.memAck = false ∨ s.cfg.prepLat ≠ 0) → (∀ raw, s.prep ≠ .computing raw 0) →
        t.dreg = seed)

/-- R156, R31, R24, R100: one cycle of XMIT of a frame that is on time: inside a bit only the counter steps; at the end of a bit
`BITI` steps down; at the end of a byte the indices step and `CURB <- NEXTB`; at the end of the last byte `CST <- ADJUST`. -/
def Obligations.XmitLoopSteps : Prop :=
  ∀ s : State, s.cst = .xmit → s.Calm → s.busyFault = none → s.late = false →
    ∃ t, step s = .next t ∧
      (1 < s.cnt.toNat → t.cst = .xmit ∧ t.biti = s.biti ∧ t.slot = s.slot ∧ t.pix = s.pix ∧ t.curb = s.curb ∧
        t.cnt = s.cnt - 1 ∧ t.wrap = false) ∧
      (s.cnt.toNat = 1 → s.biti ≠ 0 → t.cst = .xmit ∧ t.biti = s.biti - 1 ∧ t.slot = s.slot ∧ t.pix = s.pix ∧
        t.curb = s.curb ∧ t.cnt.toNat = total s.cfg ∧ t.wrap = true) ∧
      (s.cnt.toNat = 1 → s.biti = 0 → s.slot ≠ 2 → s.prep = .ready → t.cst = .xmit ∧ t.biti = 7 ∧
        t.slot.val = s.slot.val + 1 ∧ t.pix = s.pix ∧ t.curb = s.nextb ∧ t.cnt.toNat = total s.cfg ∧ t.wrap = true) ∧
      (s.cnt.toNat = 1 → s.biti = 0 → s.slot = 2 → s.pix.toNat + 1 < s.nleds.toNat → s.prep = .ready → t.cst = .xmit ∧
        t.biti = 7 ∧ t.slot = 0 ∧ t.pix.toNat = s.pix.toNat + 1 ∧ t.curb = s.nextb ∧ t.cnt.toNat = total s.cfg ∧
        t.wrap = true) ∧
      (s.cnt.toNat = 1 → s.biti = 0 → s.slot = 2 → ¬ s.pix.toNat + 1 < s.nleds.toNat → t.cst = .adjust)

/-- R150, R151, R124, R127, R65, R37, R42, R61: one cycle of the look-ahead while a byte is on the wire, in each of the five positions it
can be in; every cycle of XMIT but a byte's last. A preparation that is pending waits, with `MEM_REQ = 0`, until the implementation
issues it (log 10): then it raises `MEM_REQ` for the address of the byte AFTER the one on the wire in a SHOW, and takes its raw byte
at once in a SHOWCOLOR or CLEAR. A request is held with its address until `MEM_ACK`; the cycle that answers it is a read event, and
takes the byte in memory, or one it races with (log 13). The raw byte then spends PREP_LAT cycles in the data path (none if PREP_LAT
is 0), and in the last of them `NEXTB` takes its corrected value and `D` of its channel advances. Once it is ready, and where nothing
is to be prepared, nothing is read and nothing advances. `CURB` keeps its value in all of them, `NEXTB` and `D` in all but the one that
finishes a byte. In a late frame the channel is the model's choice (log 28). -/
def Obligations.LookAheadPreparesTheNextByte : Prop :=
  ∀ s : State, s.cst = .xmit → s.Calm → s.busyFault = none → (1 < s.cnt.toNat ∨ s.biti ≠ 0) →
    let c := channelAt s.cfg.order (if s.slot = 0 then 1 else if s.slot = 1 then 2 else 0)
    let pixel := if s.slot = 2 then s.pix.toNat + 1 else s.pix.toNat
    ∃ t, step s = .next t ∧ t.cst = .xmit ∧ t.curb = s.curb ∧
      (s.prep = .none ∨ s.prep = .ready ∨ (s.prep = .pending ∧ s.port.go = false) → t.prep = s.prep ∧ t.memReq = false ∧
        t.nextb = s.nextb ∧ t.dreg = s.dreg ∧ traceReads t.trace = traceReads s.trace) ∧
      (s.prep = .pending → s.port.go = true → t.nextb = s.nextb ∧ t.dreg = s.dreg ∧ traceReads t.trace = traceReads s.trace ∧
        (s.op = .showFrame → t.memReq = true ∧ t.memAddr = some (BitVec.ofNat 32 (pixAddr s.cfg s.base pixel c))) ∧
        (s.op = .showColor → t.prep = .computing (s.color.get c) (s.cfg.prepLat - 1)) ∧
        (s.op = .clear → t.prep = .computing 0 (s.cfg.prepLat - 1))) ∧
      (∀ a, s.prep = .reading a → s.port.memAck = false → t.memReq = true ∧ t.memAddr = some a ∧ t.nextb = s.nextb ∧
        t.dreg = s.dreg ∧ traceReads t.trace = traceReads s.trace) ∧
      (∀ a, s.prep = .reading a → s.port.memAck = true → ∃ raw,
        (raw = s.mem.read a.toNat ∨ raw ∈ s.racing a s.port.hostStore) ∧ traceReads t.trace = traceReads s.trace ++ [a] ∧
        (s.cfg.prepLat = 0 → t.prep = .ready ∧ (t.nextb, t.dreg) = correct s.sreg s.ereg s.dreg c raw) ∧
        (0 < s.cfg.prepLat → t.prep = .computing raw (s.cfg.prepLat - 1) ∧ t.nextb = s.nextb ∧ t.dreg = s.dreg)) ∧
      (∀ raw left, s.prep = .computing raw left → traceReads t.trace = traceReads s.trace ∧
        (left = 0 → t.prep = .ready ∧ (t.nextb, t.dreg) = correct s.sreg s.ereg s.dreg c raw) ∧
        (0 < left → t.prep = .computing raw (left - 1) ∧ t.nextb = s.nextb ∧ t.dreg = s.dreg))

/-- R65, R150, R24, R151, R61, log 10 (the window's cycles): the last cycle of a byte of a frame that is on time. If another byte follows,
the ready byte goes to the wire, and the window of the byte after it opens: it is pending, or, if the implementation issues it in that
very cycle, its request or its raw byte is there; if none follows it, nothing is prepared. After the last byte of the frame ADJUST
follows and nothing is requested. `NEXTB` and `D` keep their values, and nothing is read. -/
def Obligations.ByteBoundaryOpensTheNextWindow : Prop :=
  ∀ s : State, s.cst = .xmit → s.Calm → s.busyFault = none → s.late = false → s.cnt.toNat = 1 → s.biti = 0 →
    (s.hasNext = true → s.prep = .ready →
      ∃ t, step s = .next t ∧ t.cst = .xmit ∧ t.late = false ∧ t.curb = s.nextb ∧ t.nextb = s.nextb ∧ t.dreg = s.dreg ∧
        traceReads t.trace = traceReads s.trace ∧
        (t.hasNext = false → t.prep = .none ∧ t.memReq = false) ∧
        (t.hasNext = true → s.port.go = false → t.prep = .pending ∧ t.memReq = false) ∧
        (t.hasNext = true → s.port.go = true →
          let c := channelAt s.cfg.order (if t.slot = 0 then 1 else if t.slot = 1 then 2 else 0)
          (s.op = .showFrame → t.memReq = true ∧ t.memAddr =
            some (BitVec.ofNat 32 (pixAddr s.cfg s.base (if t.slot = 2 then t.pix.toNat + 1 else t.pix.toNat) c))) ∧
          (s.op = .showColor → t.prep = .computing (s.color.get c) (s.cfg.prepLat - 1)) ∧
          (s.op = .clear → t.prep = .computing 0 (s.cfg.prepLat - 1)))) ∧
    (s.hasNext = false → s.prep = .none →
      ∃ t, step s = .next t ∧ t.cst = .adjust ∧ t.memReq = false ∧ t.nextb = s.nextb ∧ t.dreg = s.dreg ∧
        traceReads t.trace = traceReads s.trace)

/-- R42, U2: a request and its address are held for as long as no cycle acknowledges it; while they are, nothing is read and the
block stays in SETUP or XMIT, however long it takes ("the block never leaves `XMIT`, `BUSY` and `IRQ_INHIBIT` stay 1"; log 11). -/
def Obligations.RequestIsHeldUntilAnswered : Prop :=
  ∀ (s : State) (a : Addr) (k : Nat), s.Inv → s.prep = .reading a → s.Undisturbed k → (∀ j < k, (s.portAt j).memAck = false) →
    ∃ u, runFor k s = .next u ∧ u.memReq = true ∧ u.memAddr = some a ∧ traceReads u.trace = traceReads s.trace ∧
      (u.cst = .setup ∨ u.cst = .xmit) ∧ (s.cst = .xmit → u.cst = .xmit) ∧ u.busy = true ∧ u.irqInhibit = true

/-- R152, R246, U2 (log 11: the free bytes are the model's form of "any value"; each holds whatever that byte is). The next byte not
ready at a byte boundary, or the frame already late; byte 0 not ready at the end of SETUP; the end of the last byte of a late frame,
with its request unanswered and with none; and ADJUST of a late frame. The machine goes on: the counter is not stalled, the bytes
are free ones, XMIT is not left while a request is unanswered, and what goes to `DSTORE` is free too. -/
def Obligations.MissedDeadlineSendsAnyByte : Prop :=
  (∀ s : State, s.cst = .xmit → s.Calm → s.busyFault = none → s.cnt.toNat = 1 → s.biti = 0 → s.hasNext = true →
    (s.prep ≠ .ready ∨ s.late = true) →
    ∃ t x, step s = .next t ∧ t.cst = .xmit ∧ t.late = true ∧ s.freeIx ≤ x ∧ t.freeIx = x + 1 ∧ t.curb = freeByte x ∧
      t.cnt.toNat = total s.cfg ∧ t.biti = 7) ∧
  (∀ s : State, s.cst = .setup → s.Calm → s.busyFault = none → s.setupLeft = 1 → s.nleds ≠ 0 →
    (s.prep = .pending ∨ (∃ a, s.prep = .reading a ∧ (s.port.memAck = false ∨ 0 < s.cfg.prepLat)) ∨
      ∃ raw left, s.prep = .computing raw left ∧ 0 < left) →
    ∃ t x, step s = .next t ∧ t.cst = .xmit ∧ t.late = true ∧ s.freeIx ≤ x ∧ t.freeIx = x + 1 ∧ t.curb = freeByte x ∧
      t.cnt.toNat = total s.cfg ∧ t.wrap = true) ∧
  (∀ s : State, s.cst = .xmit → s.Calm → s.busyFault = none → s.cnt.toNat = 1 → s.biti = 0 → s.hasNext = false →
    s.late = true →
    (∀ a, s.prep = .reading a → s.port.memAck = false →
      ∃ t x, step s = .next t ∧ t.cst = .xmit ∧ t.late = true ∧ t.prep = .reading a ∧ s.freeIx ≤ x ∧ t.freeIx = x + 1 ∧
        t.curb = freeByte x ∧ t.cnt.toNat = total s.cfg ∧ t.biti = 7) ∧
    ((∀ a, s.prep = .reading a → s.port.memAck = true) → ∃ t, step s = .next t ∧ t.cst = .adjust ∧ t.late = true)) ∧
  (∀ s : State, s.cst = .adjust → s.Calm → s.busyFault = none → s.late = true →
    ∃ t, step s = .next t ∧ t.cst = .restore ∧ t.freeIx = s.freeIx + 3 ∧
      t.dstore = ⟨freeByte s.freeIx, freeByte (s.freeIx + 1), freeByte (s.freeIx + 2)⟩ ∧ t.trace = s.trace ++ [.irqOn])

/-- R175, R128: the one cycle of ADJUST: `DSTORE <- D` (all three), the strobe is up in it and down after it, interrupts are still
inhibited in it and not after it, `CST <- RESTORE`. -/
def Obligations.AdjustWritesTheDitherStateBack : Prop :=
  ∀ s : State, s.cst = .adjust → s.Calm → s.busyFault = none → s.late = false →
    s.tickValid = true ∧ s.irqInhibit = true ∧
    ∃ t, step s = .next t ∧ t.dstore = s.dreg ∧ t.cst = .restore ∧ t.tickValid = false ∧ t.irqInhibit = false ∧
      t.lastmark = s.lastmark ∧ t.pinOut = s.pinOut ∧ t.pinOe = s.pinOe ∧ t.trace = s.trace ++ [.irqOn] ∧
      (s.port.hostStore = none → t.mem = s.mem)

/-- R176: the one cycle of RESTORE: `LASTMARK <- NOW`, the number of this cycle; from the next cycle the block is ready. -/
def Obligations.RestoreMarksTheTime : Prop :=
  ∀ s : State, s.cst = .restore → s.Calm → s.busyFault = none →
    s.irqInhibit = false ∧ s.tickValid = false ∧
    ∃ t, step s = .next t ∧ t.lastmark = s.now ∧ t.cst = .idle ∧ t.cmdReady = true ∧ t.dstore = s.dstore ∧
      t.pinOut = s.pinOut ∧ t.pinOe = s.pinOe ∧ t.trace = s.trace ++ [.mark] ∧
      (s.port.hostStore = none → t.mem = s.mem)

/-! ## Who writes what -/

/-- R29, R250, R32, R33, R27, R180: without a reset `DSTORE` changes only in ADJUST, `LASTMARK` only in RESTORE, `PIN_OE` only by
an accepted INIT and then to 1, and `NOW` counts the cycle. -/
def Obligations.PersistentStateHasOneWriter : Prop :=
  ∀ s t : State, s.port.rst = false → step s = .next t →
    (t.dstore ≠ s.dstore → s.cst = .adjust) ∧ (t.lastmark ≠ s.lastmark → s.cst = .restore ∧ t.lastmark = s.now) ∧
    (t.pinOe ≠ s.pinOe → t.pinOe = true ∧ s.cst = .idle ∧ s.Offers .init) ∧ t.now = s.now + 1

/-- R64, R60: the block never writes memory: every byte reads after a cycle as before it, but for the byte the host stored. -/
def Obligations.OnlyTheHostWritesMemory : Prop :=
  ∀ s t : State, s.MemOk → step s = .next t → ∀ a : Nat,
    t.mem.read a = match s.port.hostStore with
      | none => s.mem.read a
      | some (x, v) => if a = x.toNat then v else s.mem.read a

/-- R69, R71, U6, log 13 (the model's form of U6's "either value"): a host's store lands in every cycle. One that hits the buffer
lent to a SHOW, from its accepting cycle on, is noted with the value it supersedes, any other is not; and a read returns what the
memory holds or a value it races with: one noted for that byte, or the one a store of that same cycle leaves there. A byte without a
race reads as the memory holds it (R70). -/
def Obligations.HostStoreRacesWithTheReads : Prop :=
  (∀ (s : State) (a : Addr) (v : Byte), s.MemOk → s.cst ≠ .idle → s.cst ≠ .restore → s.Calm → s.busyFault = none →
    s.port.hostStore = some (a, v) →
    ∃ t, step s = .next t ∧ t.mem.read a.toNat = v ∧
      t.superseded = (if s.op = .showFrame ∧ s.base.toNat + s.cfg.skip ≤ a.toNat ∧
          a.toNat < s.base.toNat + s.cfg.skip + 3 * s.nleds.toNat then [(a, s.mem.read a.toNat)] else []) ++ s.superseded) ∧
  (∀ (s : State) (base : Addr) (n : BitVec 16) (sc : Triple) (a : Addr) (v : Byte), s.MemOk → s.cst = .idle → s.Calm →
    s.Offers (.showFrame base n sc) → Instr.wellFormed s.cfg (.showFrame base n sc) = true → s.port.hostStore = some (a, v) →
    ∃ t, step s = .next t ∧ t.mem.read a.toNat = v ∧
      t.superseded = (if base.toNat + s.cfg.skip ≤ a.toNat ∧ a.toNat < base.toNat + s.cfg.skip + 3 * n.toNat
        then [(a, s.mem.read a.toNat)] else [])) ∧
  (∀ (s : State) (a : Addr) (st : Option (Addr × Byte)),
    (s.fetched a st = s.mem.read a.toNat ∨ s.fetched a st ∈ s.racing a st) ∧
    (∀ b, b ∈ s.racing a st ↔ (a, b) ∈ s.superseded ∨ st = some (a, b)))

/-! ## Timing primitives (40_timing_primitives.md) -/

/-- R100: in the first cycle of XMIT `CNT = TOTAL` and `WRAP = 1`; in every following cycle of XMIT the counter steps as the rule
says; so in the `k`-th cycle it holds `TOTAL - k mod TOTAL`, never 0, and `WRAP = 1` exactly where that is `TOTAL`. -/
def Obligations.CounterRunsFromTotalToOne : Prop :=
  (∀ s t : State, s.cst ≠ .xmit → step s = .next t → t.cst = .xmit → t.cnt.toNat = total s.cfg ∧ t.wrap = true) ∧
  (∀ s t : State, s.cst = .xmit → step s = .next t → t.cst = .xmit →
    (1 < s.cnt.toNat → t.cnt.toNat = s.cnt.toNat - 1 ∧ t.wrap = false) ∧
    (s.cnt.toNat ≤ 1 → t.cnt.toNat = total s.cfg ∧ t.wrap = true)) ∧
  (∀ (cfg : Config) (k : Nat), (countSteps cfg k (countStart cfg)).1.toNat = total cfg - k % total cfg ∧
    ((countSteps cfg k (countStart cfg)).2 = true ↔ k % total cfg = 0) ∧
    (countSteps cfg k (countStart cfg)).1.toNat ≠ 0)

/-- R101: in any cycle of XMIT (`CounterOk` is the invariant's clause on the counter, R100) the offset `c_off = TOTAL - CNT` lies in
`0 .. TOTAL-1` and is 0 where `WRAP` is 1; the marks are at the offsets `T1` and `T1 + T2`; so the boundary and the two marks fall
in three different cycles, in that order. -/
def Obligations.MarksFallInOrder : Prop :=
  ∀ s : State, s.cst = .xmit → s.CounterOk →
    cOff s.cfg s.cnt + s.cnt.toNat = total s.cfg ∧ cOff s.cfg s.cnt < total s.cfg ∧ (cOff s.cfg s.cnt = 0 ↔ s.wrap = true) ∧
    (s.cnt.toNat = t1Mark s.cfg ↔ cOff s.cfg s.cnt = s.cfg.t1) ∧
    (s.cnt.toNat = t2Mark s.cfg ↔ cOff s.cfg s.cnt = s.cfg.t1 + s.cfg.t2) ∧
    0 < s.cfg.t1 ∧ s.cfg.t1 < s.cfg.t1 + s.cfg.t2 ∧ s.cfg.t1 + s.cfg.t2 < total s.cfg

/-- R104, R105, R108: the waits, from any cycle of XMIT in which they are issued. WAITM(M) issued at `CNT > M >= 1` completes
exactly `CNT - M` cycles later and in no cycle before. WAITB completes at once where `WRAP = 1`; elsewhere, if a bit follows,
exactly `CNT` cycles later, at most `TOTAL - 1`, and in no cycle before. -/
def Obligations.WaitsCompleteInTheirCycle : Prop :=
  ∀ s : State, s.Inv → s.cst = .xmit →
    (∀ m, 1 ≤ m → m < s.cnt.toNat → s.Undisturbed (s.cnt.toNat - m) →
      (∃ u, runFor (s.cnt.toNat - m) s = .next u ∧ u.cst = .xmit ∧ waitmDone m u = true) ∧
      ∀ j < s.cnt.toNat - m, ∃ u, runFor j s = .next u ∧ u.cst = .xmit ∧ waitmDone m u = false) ∧
    (s.cnt.toNat = total s.cfg → waitbDone s = true) ∧
    (s.cnt.toNat < total s.cfg → (s.biti ≠ 0 ∨ s.hasNext = true) → s.Undisturbed s.cnt.toNat →
      s.cnt.toNat ≤ total s.cfg - 1 ∧ (∃ u, runFor s.cnt.toNat s = .next u ∧ u.cst = .xmit ∧ waitbDone u = true) ∧
      ∀ j < s.cnt.toNat, ∃ u, runFor j s = .next u ∧ u.cst = .xmit ∧ waitbDone u = false)

/-- R106, R146: in every cycle of XMIT the pin is written by the micro-operation whose wait completes in it, high at the boundary,
the bit at T1_MARK, low at T2_MARK, and else keeps its level. -/
def Obligations.PinMovesAtTheMarksOnly : Prop :=
  ∀ s t : State, step s = .next t → t.cst = .xmit →
    (t.wrap = true → t.pinOut = true ∧ t.trace.getLast? = some (.bit (currentBit t))) ∧
    (t.wrap = false → t.cnt.toNat = t1Mark t.cfg → t.pinOut = currentBit t) ∧
    (t.wrap = false → t.cnt.toNat = t2Mark t.cfg → t.pinOut = false) ∧
    (t.wrap = false → t.cnt.toNat ≠ t1Mark t.cfg → t.cnt.toNat ≠ t2Mark t.cfg → t.pinOut = s.pinOut)

/-! ## Dither and scale (41_dither_scale.md) -/

/-- R122: the mask loop of R121 equals its closed form `0xFF >> len(S) = 2^(8 - len(S)) - 1`, `len(S)` being the number of
significant bits, and has the values of the rule's table. -/
def Obligations.MaskLoopHasItsClosedForm : Prop :=
  (∀ s : Byte, mask s = (0xFF : Byte) >>> sigBits s ∧ (mask s).toNat = 2 ^ (8 - sigBits s) - 1 ∧ sigBits s ≤ 8 ∧
    (∀ k, sigBits s = k + 1 ↔ 2 ^ k ≤ s.toNat ∧ s.toNat < 2 ^ (k + 1)) ∧ (s = 0 ↔ sigBits s = 0)) ∧
  ∀ s : Byte, mask s =
    if s.toNat = 0 then 0xFF else if s.toNat < 2 then 0x7F else if s.toNat < 4 then 0x3F else if s.toNat < 8 then 0x1F
    else if s.toNat < 16 then 0x0F else if s.toNat < 32 then 0x07 else if s.toNat < 64 then 0x03
    else if s.toNat < 128 then 0x01 else 0x00

/-- R125: the saturating add clamps at 255 and never wraps, and a raw 0 stays 0. -/
def Obligations.DitherAddSaturates : Prop :=
  (∀ a b : Byte, (satadd a b).toNat = min 255 (a.toNat + b.toNat)) ∧
  (∀ raw d : Byte, (ditherAdd raw d).toNat = if raw ≠ 0 then min 255 (raw.toNat + d.toNat) else 0)

/-- R126: `scale(v, S) = (2vS + 255) div 510` is `v * S / 255` rounded to the nearest integer, with no tie, in 0..255; and the
rule's corner cases. -/
def Obligations.ScaleRoundsToNearest : Prop :=
  (∀ v s : Byte, (scaleByte v s).toNat = (2 * v.toNat * s.toNat + 255) / 510 ∧
    (2 * (v.toNat * s.toNat : Int) - 510 * (scaleByte v s).toNat).natAbs < 255) ∧
  (∀ v : Byte, scaleByte v 0 = 0 ∧ scaleByte v 255 = v ∧ scaleByte 0 v = 0) ∧
  scaleByte 255 255 = 255 ∧ scaleByte 1 127 = 0 ∧ scaleByte 1 128 = 1 ∧ scaleByte 128 1 = 1 ∧ scaleByte 127 1 = 0 ∧
  scaleByte 200 100 = 78

/-- R127, R129, R130, R132, R120: `correct` writes `D[c]` and nothing else, keeps it within its mask, depends on channel `c` alone,
sends 0 for a raw 0 and for a scale 0, and the raw byte itself at scale 255. -/
def Obligations.CorrectKeepsToItsChannel : Prop :=
  ∀ (s e d : Triple) (c : Fin 3) (raw : Byte),
    (correct s e d c raw).2.get c = (d.get c + 3) &&& e.get c ∧
    ((correct s e d c raw).2.get c).toNat ≤ (e.get c).toNat ∧
    (∀ c', c' ≠ c → (correct s e d c raw).2.get c' = d.get c') ∧
    (∀ s' e' d' : Triple, s'.get c = s.get c → e'.get c = e.get c → d'.get c = d.get c →
      (correct s' e' d' c raw).1 = (correct s e d c raw).1) ∧
    (correct s e d c 0).1 = 0 ∧ (s.get c = 0 → (correct s e d c raw).1 = 0) ∧
    (s.get c = 255 → e.get c = mask (s.get c) →
      (correct s e d c raw).1 = raw ∧ (correct s e d c raw).2.get c = 0)

/-- R131, R133, U11: the ramp's closed form for every scale, pixel and stored byte; its period is `E + 1` pixels and it visits every
value of `0..E`. -/
def Obligations.RampHasItsClosedForm : Prop :=
  ∀ (sc stored : Byte),
    let e := mask sc
    let ramp := fun i => (fun d => advance d e)^[i + 1] (seedByte stored e)
    (∀ i, (ramp i).toNat = ((stored &&& e).toNat + 3 * (i + 1)) % (e.toNat + 1)) ∧
    (∀ i, ramp (i + (e.toNat + 1)) = ramp i) ∧
    (∀ i p, 0 < p → p < e.toNat + 1 → ramp (i + p) ≠ ramp i) ∧
    (∀ x : Byte, x.toNat ≤ e.toNat → ∃ i < e.toNat + 1, ramp i = x)

/-! ## The frame level (42_bit_engine.md R145) -/

/-- R145, R131: a frame of `n` pixels is `24n` bits, and `DSTORE_out[c] = ((DSTORE_in[c] & E[c]) + 3n) mod (E[c] + 1)`, whatever the
colour order and the pixels. -/
def Obligations.FrameHasItsLengthAndDitherState : Prop :=
  ∀ (cfg : Config) (m : Memory) (ds : Triple) (i : Instr), i.opcode.isFrame = true →
    (commandFrame cfg m ds i).1.length = 24 * i.count.toNat ∧
    ∀ c : Fin 3,
      ((commandFrame cfg m ds i).2.get c).toNat =
        ((ds.get c &&& mask ((frameScale i.opcode i.scale).get c)).toNat + 3 * i.count.toNat) %
          ((mask ((frameScale i.opcode i.scale).get c)).toNat + 1)

/-- R186: CLEAR sends `24n` zero bits whatever the Dither State, so two in a row send the same stream. -/
def Obligations.ClearSendsZeroBits : Prop :=
  ∀ (cfg : Config) (m : Memory) (ds : Triple) (n : BitVec 16),
    (commandFrame cfg m ds (.clear n)).1 = List.replicate (24 * n.toNat) false ∧
    (commandFrame cfg m (commandFrame cfg m ds (.clear n)).2 (.clear n)).1 = (commandFrame cfg m ds (.clear n)).1

/-- R182, R91, C8: SHOWCOLOR gives the bits and the Dither State of a SHOW over `n` copies of its pixel, and CLEAR those of a SHOW
at scale (0,0,0) over a buffer of zeros. -/
def Obligations.ShortFormsEqualShow : Prop :=
  (∀ (cfg : Config) (m : Memory) (ds color sc : Triple) (base : Addr) (n : BitVec 16),
    (∀ i < n.toNat, ∀ c : Fin 3, m.read (pixAddr cfg base i c) = color.get c) →
    commandFrame cfg m ds (.showColor color n sc) = commandFrame cfg m ds (.showFrame base n sc)) ∧
  (∀ (cfg : Config) (m : Memory) (ds : Triple) (base : Addr) (n : BitVec 16),
    (∀ i < n.toNat, ∀ c : Fin 3, m.read (pixAddr cfg base i c) = 0) →
    commandFrame cfg m ds (.clear n) = commandFrame cfg m ds (.showFrame base n .zero))

/-- R181, R130, R141, R62: at scale (255,255,255) a SHOW sends the buffer's bytes unchanged, each pixel in wire-slot order and each
byte MSB first, and leaves `DSTORE = (0,0,0)`. -/
def Obligations.FullScaleSendsTheBuffer : Prop :=
  ∀ (cfg : Config) (m : Memory) (ds : Triple) (base : Addr) (n : BitVec 16),
    base.toNat + cfg.skip + 3 * n.toNat ≤ 2 ^ 32 →
    commandFrame cfg m ds (.showFrame base n ⟨255, 255, 255⟩) =
      ((showReads cfg base n.toNat 0).flatMap (fun a => byteBits (m.read a.toNat)), ⟨0, 0, 0⟩)

/-- R61, R64, R65: the reads of a SHOW: `3n` of them, number `3i + k` at `PixAddr(i, ORDER[k])`, each address once, all inside the
lent buffer, the skip bytes never. -/
def Obligations.ReadsCoverTheBufferOnce : Prop :=
  ∀ (cfg : Config) (base : Addr) (n : Nat), base.toNat + cfg.skip + 3 * n ≤ 2 ^ 32 →
    (showReads cfg base n 0).length = 3 * n ∧ (showReads cfg base n 0).Nodup ∧
    (∀ a ∈ showReads cfg base n 0, base.toNat + cfg.skip ≤ a.toNat ∧ a.toNat < base.toNat + cfg.skip + 3 * n) ∧
    (∀ i < n, ∀ k : Fin 3, ((showReads cfg base n 0)[3 * i + k.val]?).map BitVec.toNat =
      some (base.toNat + cfg.skip + 3 * i + (channelAt cfg.order k).val))

/-! ## From a bit to the whole frame (cycle level) -/

/-- R147, R148: the waveform of one bit. From the first cycle of a bit period on, through its `TOTAL` cycles, the bit stays the same
and `PIN_OUT` is 1 for `T1` cycles, the bit for `T2`, 0 for `T3`. -/
def Obligations.OneBitHasItsWaveform : Prop :=
  ∀ (s : State) (off : Nat), s.Inv → s.cst = .xmit → s.wrap = true → off < total s.cfg → s.Undisturbed off →
    ∃ u, runFor off s = .next u ∧ u.cst = .xmit ∧ cOff u.cfg u.cnt = off ∧ currentBit u = currentBit s ∧
      u.pinOut = (if off < s.cfg.t1 then true else if off < s.cfg.t1 + s.cfg.t2 then currentBit s else false)

/-- R179, R145, R174, R175, R176, R70: THE BIG STEP. A frame command started in any instance with any Dither State, its host keeping
the loan (H1), sends exactly its frame's bits, strobes its tick value once, drops the interrupt inhibit, marks the time, and leaves
the frame's Dither State; the pin is low, `PIN_OE` is unchanged (a frame before INIT runs all the same, R188), and so is the
borrowed buffer, and all of memory if the host stores nothing. The trace is `irq_off`, the wire events, `tick`, `irq_on`, `mark`. -/
def Obligations.FrameCommandHasItsFrameEffect : Prop :=
  ∀ (s : State) (i : Instr), s.StartsFrame i → s.KeepsLoan i (busyCycles s.cfg s.now s.lastmark i.count.toNat) →
    ∃ t u wire, exec i s = .next t ∧
      runFor (busyCycles s.cfg s.now s.lastmark i.count.toNat) s = .next u ∧
      u.cst = .idle ∧ u.late = false ∧ u.dstore = (commandFrame s.cfg s.mem s.dstore i).2 ∧
      u.now = adjustAt s.cfg s.now s.lastmark i.count.toNat + 2 ∧
      u.lastmark = adjustAt s.cfg s.now s.lastmark i.count.toNat + 1 ∧
      u.pinOut = false ∧ u.pinOe = s.pinOe ∧ u.cfg = s.cfg ∧
      (∀ a : Addr, Instr.borrows s.cfg i a = true → u.mem.read a.toNat = s.mem.read a.toNat) ∧
      ((∀ j < busyCycles s.cfg s.now s.lastmark i.count.toNat, (s.portAt j).hostStore = none) → u.mem = s.mem) ∧
      u.trace = s.trace ++ [.irqOff] ++ wire ++
        [.tick (BitVec.ofNat 32 (tickMs s.cfg i.count.toNat)), .irqOn, .mark] ∧
      wireOnly wire = true ∧ traceBits wire = (commandFrame s.cfg s.mem s.dstore i).1

/-- R64, R65, R75, R179: the reads of a whole command: SHOW reads each byte of its pixels once in transmission order, byte `j+1` no
earlier than the first bit of byte `j` and before its own; the other frame commands read nothing. It holds whatever the host stores.
-/
def Obligations.FrameReadsInTheirWindows : Prop :=
  ∀ (s : State) (i : Instr), s.StartsFrame i →
    ∃ u wire, runFor (busyCycles s.cfg s.now s.lastmark i.count.toNat) s = .next u ∧
      u.trace = s.trace ++ [.irqOff] ++ wire ++
        [.tick (BitVec.ofNat 32 (tickMs s.cfg i.count.toNat)), .irqOn, .mark] ∧
      traceReads wire = commandReads s.cfg i ∧ (i.opcode = .showFrame → interleaved 0 0 wire = true)

/-- R178, R184, R213, R260: THE SCHEDULE. In every cycle from acceptance until `BUSY` has fallen, `CST` is the one of the table, and
so `BUSY`, `IRQ_INHIBIT` and the one-cycle strobe with the frame's tick value. It holds whatever the host stores. -/
def Obligations.FrameFollowsItsSchedule : Prop :=
  ∀ (s : State) (i : Instr) (k : Nat), s.StartsFrame i →
    k ≤ busyCycles s.cfg s.now s.lastmark i.count.toNat →
    ∃ u, runFor k s = .next u ∧ u.now = s.now + k ∧
      u.cst = scheduledCst s.cfg s.now s.lastmark i.count.toNat (s.now + k) ∧
      (u.busy = true ↔ s.now < u.now ∧ u.now ≤ adjustAt s.cfg s.now s.lastmark i.count.toNat + 1) ∧
      (u.irqInhibit = true ↔ waitEnd s.cfg s.now s.lastmark < u.now ∧
        u.now ≤ adjustAt s.cfg s.now s.lastmark i.count.toNat) ∧
      (u.tickValid = true ↔ u.now = adjustAt s.cfg s.now s.lastmark i.count.toNat) ∧
      (u.tickValid = true → u.tickMsOut.toNat = tickMs s.cfg i.count.toNat)

/-- R147, R149, R13: THE WAVEFORM. If the host keeps the loan (H1), bit `m` of the frame-level stream occupies the `TOTAL` cycles
from `f + m * TOTAL` on, with no gap, and `PIN_OUT` has in each of them the level R147 gives for that bit. -/
def Obligations.FrameHasItsWaveform : Prop :=
  ∀ (s : State) (i : Instr) (m off : Nat), s.StartsFrame i →
    s.KeepsLoan i (busyCycles s.cfg s.now s.lastmark i.count.toNat) → m < 24 * i.count.toNat → off < total s.cfg →
    ∃ u, runFor (firstBit s.cfg s.now s.lastmark + m * total s.cfg + off - s.now) s = .next u ∧ u.cst = .xmit ∧
      u.now = firstBit s.cfg s.now s.lastmark + m * total s.cfg + off ∧
      u.pinOut = waveLevel s.cfg ((commandFrame s.cfg s.mem s.dstore i).1.getD m false) off

/-- R187, R155: a frame command with `n = 0`, with no premise on the memory: it waits as any other, inhibits interrupts for
`SETUP_LAT + 1` cycles, sends no bit, reads nothing, strobes a tick of 0, writes `DSTORE[c] & mask(S[c])` and marks the time. -/
def Obligations.ZeroPixelFrameStillWaitsAndMarks : Prop :=
  ∀ (s : State) (i : Instr), i.opcode.isFrame = true → i.count = 0 → i.wellFormed s.cfg = true → s.cst = .idle →
    s.Offers i → s.Undisturbed (busyCycles s.cfg s.now s.lastmark 0) →
    (∃ u, runFor (busyCycles s.cfg s.now s.lastmark 0) s = .next u ∧ u.cst = .idle ∧ u.pinOut = s.pinOut ∧
      u.trace = s.trace ++ [.irqOff, .tick 0, .irqOn, .mark] ∧
      u.dstore = seedAll s.dstore (maskAll (frameScale i.opcode i.scale)) ∧
      u.lastmark = waitEnd s.cfg s.now s.lastmark + s.cfg.setupLat + 2 ∧ u.now = u.lastmark + 1) ∧
    ∀ k ≤ busyCycles s.cfg s.now s.lastmark 0, ∃ v, runFor k s = .next v ∧ v.now = s.now + k ∧
      v.cst = scheduledCst s.cfg s.now s.lastmark 0 v.now ∧
      (v.irqInhibit = true ↔ waitEnd s.cfg s.now s.lastmark < v.now ∧
        v.now ≤ waitEnd s.cfg s.now s.lastmark + s.cfg.setupLat + 1) ∧
      (v.tickValid = true → v.tickMsOut = 0)

/-- R184, R185, R262: the schedule's bounds. If no mark lies in the future the block is idle again by `a + max(1, WAIT) + SETUP_LAT
+ 24n*TOTAL + 3`; and the first bit of a frame accepted after the mark of another comes at least `WAIT + SETUP_LAT` whole cycles
after that mark. -/
def Obligations.ScheduleIsBounded : Prop :=
  (∀ (cfg : Config) (a l n : Nat), l ≤ a →
    a + busyCycles cfg a l n ≤ a + max 1 cfg.wait + cfg.setupLat + 24 * n * total cfg + 3 ∧
    a < adjustAt cfg a l n) ∧
  (∀ (cfg : Config) (a l n a' : Nat), adjustAt cfg a l n + 2 ≤ a' →
    adjustAt cfg a l n + 1 + cfg.wait + cfg.setupLat + 1 ≤ firstBit cfg a' (adjustAt cfg a l n + 1))

/-! ## Whole-machine rules -/

/-- R153, R251, R103, H7: NO DATA-DEPENDENT TIMING. Two machines that differ only in data (pixel bytes, colour, scale, dither
values, memory contents, the host's stores and their races) stop alike, stay alike in everything that is timing, and their pins
differ at most between T1_MARK and T2_MARK, where the level is the bit. -/
def Obligations.TimingDoesNotDependOnData : Prop :=
  ∀ s s' : State, s.Inv → s'.Inv → SameTiming s s' →
    ((∃ t, step s = .next t) ↔ (∃ t', step s' = .next t')) ∧
    ∀ t t' : State, step s = .next t → step s' = .next t' →
      SameTiming t t' ∧ (t.pinOut ≠ t'.pinOut → t.cst = .xmit ∧ t.cfg.t1 ≤ cOff t.cfg t.cnt ∧
        cOff t.cfg t.cnt < t.cfg.t1 + t.cfg.t2)

/-- THE INVARIANT IS KEPT (R20 to R28, R64, R69, R100, R147, R154, R171, R177): memory stays canonical, the latches stay those of an
accepted command, the counter and its flag, the pin's level, the dither bounds, the look-ahead's addresses, the noted races (only
bytes of the lent buffer, R71) and the tick value stay as the rules say, from every state that meets the invariant. -/
def Obligations.EveryStepKeepsTheInvariant : Prop :=
  ∀ s t : State, s.Inv → step s = .next t → t.Inv

/-- The state after reset meets the invariant, in every instance with a canonical memory; so does `State.reset`. -/
def Obligations.ResetMeetsTheInvariant : Prop :=
  State.reset.Inv ∧ ∀ (cfg : Config) (m : Memory) (ps : List PortIn) (es : List Event) (x : Nat), m.wf = true →
    (State.resetWith cfg m ps es x).Inv

/-- R210, R86: the block raises no exception: under the invariant no step faults, and an idle block that is offered no command, and
a busy block whatever the host does, always goes on. -/
def Obligations.NoStepFaults : Prop :=
  ∀ s : State, s.Inv → (∀ f, step s ≠ .fault f) ∧
    (s.cst ≠ .idle → ∃ t, step s = .next t) ∧
    (s.cst = .idle → s.port.cmdValid = false → ∃ t, step s = .next t)

/-- R177: the tick examples V80 to V85, in instances with their numbers: two truncating divisions, in this order. -/
def Obligations.TickTruncatesTwice : Prop :=
  (∀ (cfg : Config) (n : Nat), tickMs cfg n * (1000 * cfg.clksPerUs) ≤ n * 24 * total cfg ∧
    n * 24 * total cfg < (tickMs cfg n + 1) * (1000 * cfg.clksPerUs)) ∧
  (∀ cfg : Config, total cfg = 105 → cfg.clksPerUs = 84 →
    tickMs cfg 100 = 3 ∧ tickMs cfg 30 = 0 ∧ tickMs cfg 34 = 1 ∧ tickMs cfg 65535 = 1966) ∧
  (∀ cfg : Config, tickMs cfg 0 = 0)

/-- R242, R128: without a reset a frame that is on time always ends with its write-back: from ADJUST on, `DSTORE` is what the frame left
in `D`. It is so in every later cycle until another frame reaches its own ADJUST; and the next SETUP seeds `D` from exactly that, masked
by the new frame's `E` (the value is R123's), advanced once in channel `ORDER[0]` if byte 0 is prepared in the same cycle (R124, R150).
THE MODEL'S CHOICE in the last clause is the cycle: that it is the first of SETUP's SETUP_LAT cycles which seeds, and in which byte 0
may already be prepared, is log 17; R123 and R173 give the values and the order of the writes, not their cycles. -/
def Obligations.DitherStateCarriesToTheNextFrame : Prop :=
  ∀ s : State, s.Inv → s.cst = .adjust → s.late = false →
    (s.Undisturbed 2 → ∃ u, runFor 2 s = .next u ∧ u.cst = .idle ∧ u.dstore = s.dreg ∧ u.lastmark = s.now + 1 ∧ u.busy = false ∧
      u.trace = s.trace ++ [.irqOn, .mark]) ∧
    ∀ (k : Nat) (v : State), 0 < k → s.Undisturbed k → runFor k s = .next v →
      (∀ j w, 0 < j → j < k → runFor j s = .next w → w.cst ≠ .adjust) →
      v.dstore = s.dreg ∧
      (v.cst = .setup → v.setupLeft = v.cfg.setupLat → v.Calm →
        ∃ x, step v = .next x ∧ x.ereg = maskAll (frameScale v.op v.scale) ∧
          ∀ c : Fin 3, x.dreg.get c = s.dreg.get c &&& x.ereg.get c ∨
            (c = channelAt v.cfg.order 0 ∧ x.dreg.get c = ((s.dreg.get c &&& x.ereg.get c) + 3) &&& x.ereg.get c))
end

