-- ==== Sys2Proof/Laws/State.lean ====
section
/-! SUPPORT. One lemma per field per named update of State: no later proof unfolds a record update. -/

namespace Sys2Proof.Machine

/-! ## emit -/

@[simp] theorem State.emit_cfg (s : State) (e : Event) : (s.emit e).cfg = s.cfg := rfl
@[simp] theorem State.emit_dstore (s : State) (e : Event) : (s.emit e).dstore = s.dstore := rfl
@[simp] theorem State.emit_lastmark (s : State) (e : Event) : (s.emit e).lastmark = s.lastmark := rfl
@[simp] theorem State.emit_now (s : State) (e : Event) : (s.emit e).now = s.now := rfl
@[simp] theorem State.emit_pinOe (s : State) (e : Event) : (s.emit e).pinOe = s.pinOe := rfl
@[simp] theorem State.emit_pinOut (s : State) (e : Event) : (s.emit e).pinOut = s.pinOut := rfl
@[simp] theorem State.emit_cst (s : State) (e : Event) : (s.emit e).cst = s.cst := rfl
@[simp] theorem State.emit_op (s : State) (e : Event) : (s.emit e).op = s.op := rfl
@[simp] theorem State.emit_nleds (s : State) (e : Event) : (s.emit e).nleds = s.nleds := rfl
@[simp] theorem State.emit_base (s : State) (e : Event) : (s.emit e).base = s.base := rfl
@[simp] theorem State.emit_color (s : State) (e : Event) : (s.emit e).color = s.color := rfl
@[simp] theorem State.emit_scale (s : State) (e : Event) : (s.emit e).scale = s.scale := rfl
@[simp] theorem State.emit_sreg (s : State) (e : Event) : (s.emit e).sreg = s.sreg := rfl
@[simp] theorem State.emit_ereg (s : State) (e : Event) : (s.emit e).ereg = s.ereg := rfl
@[simp] theorem State.emit_dreg (s : State) (e : Event) : (s.emit e).dreg = s.dreg := rfl
@[simp] theorem State.emit_curb (s : State) (e : Event) : (s.emit e).curb = s.curb := rfl
@[simp] theorem State.emit_nextb (s : State) (e : Event) : (s.emit e).nextb = s.nextb := rfl
@[simp] theorem State.emit_pix (s : State) (e : Event) : (s.emit e).pix = s.pix := rfl
@[simp] theorem State.emit_slot (s : State) (e : Event) : (s.emit e).slot = s.slot := rfl
@[simp] theorem State.emit_biti (s : State) (e : Event) : (s.emit e).biti = s.biti := rfl
@[simp] theorem State.emit_cnt (s : State) (e : Event) : (s.emit e).cnt = s.cnt := rfl
@[simp] theorem State.emit_wrap (s : State) (e : Event) : (s.emit e).wrap = s.wrap := rfl
@[simp] theorem State.emit_tickval (s : State) (e : Event) : (s.emit e).tickval = s.tickval := rfl
@[simp] theorem State.emit_setupLeft (s : State) (e : Event) : (s.emit e).setupLeft = s.setupLeft := rfl
@[simp] theorem State.emit_prep (s : State) (e : Event) : (s.emit e).prep = s.prep := rfl
@[simp] theorem State.emit_late (s : State) (e : Event) : (s.emit e).late = s.late := rfl
@[simp] theorem State.emit_freeIx (s : State) (e : Event) : (s.emit e).freeIx = s.freeIx := rfl
@[simp] theorem State.emit_superseded (s : State) (e : Event) : (s.emit e).superseded = s.superseded := rfl
@[simp] theorem State.emit_mem (s : State) (e : Event) : (s.emit e).mem = s.mem := rfl
@[simp] theorem State.emit_ports (s : State) (e : Event) : (s.emit e).ports = s.ports := rfl
@[simp] theorem State.emit_trace (s : State) (e : Event) : (s.emit e).trace = s.trace ++ [e] := rfl

/-! ## setPin -/

@[simp] theorem State.setPin_cfg (s : State) (b : Bool) : (s.setPin b).cfg = s.cfg := rfl
@[simp] theorem State.setPin_dstore (s : State) (b : Bool) : (s.setPin b).dstore = s.dstore := rfl
@[simp] theorem State.setPin_lastmark (s : State) (b : Bool) : (s.setPin b).lastmark = s.lastmark := rfl
@[simp] theorem State.setPin_now (s : State) (b : Bool) : (s.setPin b).now = s.now := rfl
@[simp] theorem State.setPin_pinOe (s : State) (b : Bool) : (s.setPin b).pinOe = s.pinOe := rfl
@[simp] theorem State.setPin_pinOut (s : State) (b : Bool) : (s.setPin b).pinOut = b := rfl
@[simp] theorem State.setPin_cst (s : State) (b : Bool) : (s.setPin b).cst = s.cst := rfl
@[simp] theorem State.setPin_op (s : State) (b : Bool) : (s.setPin b).op = s.op := rfl
@[simp] theorem State.setPin_nleds (s : State) (b : Bool) : (s.setPin b).nleds = s.nleds := rfl
@[simp] theorem State.setPin_base (s : State) (b : Bool) : (s.setPin b).base = s.base := rfl
@[simp] theorem State.setPin_color (s : State) (b : Bool) : (s.setPin b).color = s.color := rfl
@[simp] theorem State.setPin_scale (s : State) (b : Bool) : (s.setPin b).scale = s.scale := rfl
@[simp] theorem State.setPin_sreg (s : State) (b : Bool) : (s.setPin b).sreg = s.sreg := rfl
@[simp] theorem State.setPin_ereg (s : State) (b : Bool) : (s.setPin b).ereg = s.ereg := rfl
@[simp] theorem State.setPin_dreg (s : State) (b : Bool) : (s.setPin b).dreg = s.dreg := rfl
@[simp] theorem State.setPin_curb (s : State) (b : Bool) : (s.setPin b).curb = s.curb := rfl
@[simp] theorem State.setPin_nextb (s : State) (b : Bool) : (s.setPin b).nextb = s.nextb := rfl
@[simp] theorem State.setPin_pix (s : State) (b : Bool) : (s.setPin b).pix = s.pix := rfl
@[simp] theorem State.setPin_slot (s : State) (b : Bool) : (s.setPin b).slot = s.slot := rfl
@[simp] theorem State.setPin_biti (s : State) (b : Bool) : (s.setPin b).biti = s.biti := rfl
@[simp] theorem State.setPin_cnt (s : State) (b : Bool) : (s.setPin b).cnt = s.cnt := rfl
@[simp] theorem State.setPin_wrap (s : State) (b : Bool) : (s.setPin b).wrap = s.wrap := rfl
@[simp] theorem State.setPin_tickval (s : State) (b : Bool) : (s.setPin b).tickval = s.tickval := rfl
@[simp] theorem State.setPin_setupLeft (s : State) (b : Bool) : (s.setPin b).setupLeft = s.setupLeft := rfl
@[simp] theorem State.setPin_prep (s : State) (b : Bool) : (s.setPin b).prep = s.prep := rfl
@[simp] theorem State.setPin_late (s : State) (b : Bool) : (s.setPin b).late = s.late := rfl
@[simp] theorem State.setPin_freeIx (s : State) (b : Bool) : (s.setPin b).freeIx = s.freeIx := rfl
@[simp] theorem State.setPin_superseded (s : State) (b : Bool) : (s.setPin b).superseded = s.superseded := rfl
@[simp] theorem State.setPin_mem (s : State) (b : Bool) : (s.setPin b).mem = s.mem := rfl
@[simp] theorem State.setPin_ports (s : State) (b : Bool) : (s.setPin b).ports = s.ports := rfl
@[simp] theorem State.setPin_trace (s : State) (b : Bool) : (s.setPin b).trace = s.trace := rfl

/-! ## goto -/

@[simp] theorem State.goto_cfg (s : State) (c : Cst) : (s.goto c).cfg = s.cfg := rfl
@[simp] theorem State.goto_dstore (s : State) (c : Cst) : (s.goto c).dstore = s.dstore := rfl
@[simp] theorem State.goto_lastmark (s : State) (c : Cst) : (s.goto c).lastmark = s.lastmark := rfl
@[simp] theorem State.goto_now (s : State) (c : Cst) : (s.goto c).now = s.now := rfl
@[simp] theorem State.goto_pinOe (s : State) (c : Cst) : (s.goto c).pinOe = s.pinOe := rfl
@[simp] theorem State.goto_pinOut (s : State) (c : Cst) : (s.goto c).pinOut = s.pinOut := rfl
@[simp] theorem State.goto_cst (s : State) (c : Cst) : (s.goto c).cst = c := rfl
@[simp] theorem State.goto_op (s : State) (c : Cst) : (s.goto c).op = s.op := rfl
@[simp] theorem State.goto_nleds (s : State) (c : Cst) : (s.goto c).nleds = s.nleds := rfl
@[simp] theorem State.goto_base (s : State) (c : Cst) : (s.goto c).base = s.base := rfl
@[simp] theorem State.goto_color (s : State) (c : Cst) : (s.goto c).color = s.color := rfl
@[simp] theorem State.goto_scale (s : State) (c : Cst) : (s.goto c).scale = s.scale := rfl
@[simp] theorem State.goto_sreg (s : State) (c : Cst) : (s.goto c).sreg = s.sreg := rfl
@[simp] theorem State.goto_ereg (s : State) (c : Cst) : (s.goto c).ereg = s.ereg := rfl
@[simp] theorem State.goto_dreg (s : State) (c : Cst) : (s.goto c).dreg = s.dreg := rfl
@[simp] theorem State.goto_curb (s : State) (c : Cst) : (s.goto c).curb = s.curb := rfl
@[simp] theorem State.goto_nextb (s : State) (c : Cst) : (s.goto c).nextb = s.nextb := rfl
@[simp] theorem State.goto_pix (s : State) (c : Cst) : (s.goto c).pix = s.pix := rfl
@[simp] theorem State.goto_slot (s : State) (c : Cst) : (s.goto c).slot = s.slot := rfl
@[simp] theorem State.goto_biti (s : State) (c : Cst) : (s.goto c).biti = s.biti := rfl
@[simp] theorem State.goto_cnt (s : State) (c : Cst) : (s.goto c).cnt = s.cnt := rfl
@[simp] theorem State.goto_wrap (s : State) (c : Cst) : (s.goto c).wrap = s.wrap := rfl
@[simp] theorem State.goto_tickval (s : State) (c : Cst) : (s.goto c).tickval = s.tickval := rfl
@[simp] theorem State.goto_setupLeft (s : State) (c : Cst) : (s.goto c).setupLeft = s.setupLeft := rfl
@[simp] theorem State.goto_prep (s : State) (c : Cst) : (s.goto c).prep = s.prep := rfl
@[simp] theorem State.goto_late (s : State) (c : Cst) : (s.goto c).late = s.late := rfl
@[simp] theorem State.goto_freeIx (s : State) (c : Cst) : (s.goto c).freeIx = s.freeIx := rfl
@[simp] theorem State.goto_superseded (s : State) (c : Cst) : (s.goto c).superseded = s.superseded := rfl
@[simp] theorem State.goto_mem (s : State) (c : Cst) : (s.goto c).mem = s.mem := rfl
@[simp] theorem State.goto_ports (s : State) (c : Cst) : (s.goto c).ports = s.ports := rfl
@[simp] theorem State.goto_trace (s : State) (c : Cst) : (s.goto c).trace = s.trace := rfl

/-! ## freeCurb -/

@[simp] theorem State.freeCurb_cfg (s : State) : s.freeCurb.cfg = s.cfg := rfl
@[simp] theorem State.freeCurb_dstore (s : State) : s.freeCurb.dstore = s.dstore := rfl
@[simp] theorem State.freeCurb_lastmark (s : State) : s.freeCurb.lastmark = s.lastmark := rfl
@[simp] theorem State.freeCurb_now (s : State) : s.freeCurb.now = s.now := rfl
@[simp] theorem State.freeCurb_pinOe (s : State) : s.freeCurb.pinOe = s.pinOe := rfl
@[simp] theorem State.freeCurb_pinOut (s : State) : s.freeCurb.pinOut = s.pinOut := rfl
@[simp] theorem State.freeCurb_cst (s : State) : s.freeCurb.cst = s.cst := rfl
@[simp] theorem State.freeCurb_op (s : State) : s.freeCurb.op = s.op := rfl
@[simp] theorem State.freeCurb_nleds (s : State) : s.freeCurb.nleds = s.nleds := rfl
@[simp] theorem State.freeCurb_base (s : State) : s.freeCurb.base = s.base := rfl
@[simp] theorem State.freeCurb_color (s : State) : s.freeCurb.color = s.color := rfl
@[simp] theorem State.freeCurb_scale (s : State) : s.freeCurb.scale = s.scale := rfl
@[simp] theorem State.freeCurb_sreg (s : State) : s.freeCurb.sreg = s.sreg := rfl
@[simp] theorem State.freeCurb_ereg (s : State) : s.freeCurb.ereg = s.ereg := rfl
@[simp] theorem State.freeCurb_dreg (s : State) : s.freeCurb.dreg = s.dreg := rfl
@[simp] theorem State.freeCurb_curb (s : State) : s.freeCurb.curb = freeByte s.freeIx := rfl
@[simp] theorem State.freeCurb_nextb (s : State) : s.freeCurb.nextb = s.nextb := rfl
@[simp] theorem State.freeCurb_pix (s : State) : s.freeCurb.pix = s.pix := rfl
@[simp] theorem State.freeCurb_slot (s : State) : s.freeCurb.slot = s.slot := rfl
@[simp] theorem State.freeCurb_biti (s : State) : s.freeCurb.biti = s.biti := rfl
@[simp] theorem State.freeCurb_cnt (s : State) : s.freeCurb.cnt = s.cnt := rfl
@[simp] theorem State.freeCurb_wrap (s : State) : s.freeCurb.wrap = s.wrap := rfl
@[simp] theorem State.freeCurb_tickval (s : State) : s.freeCurb.tickval = s.tickval := rfl
@[simp] theorem State.freeCurb_setupLeft (s : State) : s.freeCurb.setupLeft = s.setupLeft := rfl
@[simp] theorem State.freeCurb_prep (s : State) : s.freeCurb.prep = s.prep := rfl
@[simp] theorem State.freeCurb_late (s : State) : s.freeCurb.late = s.late := rfl
@[simp] theorem State.freeCurb_freeIx (s : State) : s.freeCurb.freeIx = s.freeIx + 1 := rfl
@[simp] theorem State.freeCurb_superseded (s : State) : s.freeCurb.superseded = s.superseded := rfl
@[simp] theorem State.freeCurb_mem (s : State) : s.freeCurb.mem = s.mem := rfl
@[simp] theorem State.freeCurb_ports (s : State) : s.freeCurb.ports = s.ports := rfl
@[simp] theorem State.freeCurb_trace (s : State) : s.freeCurb.trace = s.trace := rfl

/-! ## freshLoan -/

@[simp] theorem State.freshLoan_cfg (s : State) : s.freshLoan.cfg = s.cfg := rfl
@[simp] theorem State.freshLoan_dstore (s : State) : s.freshLoan.dstore = s.dstore := rfl
@[simp] theorem State.freshLoan_lastmark (s : State) : s.freshLoan.lastmark = s.lastmark := rfl
@[simp] theorem State.freshLoan_now (s : State) : s.freshLoan.now = s.now := rfl
@[simp] theorem State.freshLoan_pinOe (s : State) : s.freshLoan.pinOe = s.pinOe := rfl
@[simp] theorem State.freshLoan_pinOut (s : State) : s.freshLoan.pinOut = s.pinOut := rfl
@[simp] theorem State.freshLoan_cst (s : State) : s.freshLoan.cst = s.cst := rfl
@[simp] theorem State.freshLoan_op (s : State) : s.freshLoan.op = s.op := rfl
@[simp] theorem State.freshLoan_nleds (s : State) : s.freshLoan.nleds = s.nleds := rfl
@[simp] theorem State.freshLoan_base (s : State) : s.freshLoan.base = s.base := rfl
@[simp] theorem State.freshLoan_color (s : State) : s.freshLoan.color = s.color := rfl
@[simp] theorem State.freshLoan_scale (s : State) : s.freshLoan.scale = s.scale := rfl
@[simp] theorem State.freshLoan_sreg (s : State) : s.freshLoan.sreg = s.sreg := rfl
@[simp] theorem State.freshLoan_ereg (s : State) : s.freshLoan.ereg = s.ereg := rfl
@[simp] theorem State.freshLoan_dreg (s : State) : s.freshLoan.dreg = s.dreg := rfl
@[simp] theorem State.freshLoan_curb (s : State) : s.freshLoan.curb = s.curb := rfl
@[simp] theorem State.freshLoan_nextb (s : State) : s.freshLoan.nextb = s.nextb := rfl
@[simp] theorem State.freshLoan_pix (s : State) : s.freshLoan.pix = s.pix := rfl
@[simp] theorem State.freshLoan_slot (s : State) : s.freshLoan.slot = s.slot := rfl
@[simp] theorem State.freshLoan_biti (s : State) : s.freshLoan.biti = s.biti := rfl
@[simp] theorem State.freshLoan_cnt (s : State) : s.freshLoan.cnt = s.cnt := rfl
@[simp] theorem State.freshLoan_wrap (s : State) : s.freshLoan.wrap = s.wrap := rfl
@[simp] theorem State.freshLoan_tickval (s : State) : s.freshLoan.tickval = s.tickval := rfl
@[simp] theorem State.freshLoan_setupLeft (s : State) : s.freshLoan.setupLeft = s.setupLeft := rfl
@[simp] theorem State.freshLoan_prep (s : State) : s.freshLoan.prep = s.prep := rfl
@[simp] theorem State.freshLoan_late (s : State) : s.freshLoan.late = s.late := rfl
@[simp] theorem State.freshLoan_freeIx (s : State) : s.freshLoan.freeIx = s.freeIx := rfl
@[simp] theorem State.freshLoan_superseded (s : State) : s.freshLoan.superseded = [] := rfl
@[simp] theorem State.freshLoan_mem (s : State) : s.freshLoan.mem = s.mem := rfl
@[simp] theorem State.freshLoan_ports (s : State) : s.freshLoan.ports = s.ports := rfl
@[simp] theorem State.freshLoan_trace (s : State) : s.freshLoan.trace = s.trace := rfl

/-! ## nextPorts -/

@[simp] theorem State.nextPorts_cfg (s : State) : s.nextPorts.cfg = s.cfg := rfl
@[simp] theorem State.nextPorts_dstore (s : State) : s.nextPorts.dstore = s.dstore := rfl
@[simp] theorem State.nextPorts_lastmark (s : State) : s.nextPorts.lastmark = s.lastmark := rfl
@[simp] theorem State.nextPorts_now (s : State) : s.nextPorts.now = s.now := rfl
@[simp] theorem State.nextPorts_pinOe (s : State) : s.nextPorts.pinOe = s.pinOe := rfl
@[simp] theorem State.nextPorts_pinOut (s : State) : s.nextPorts.pinOut = s.pinOut := rfl
@[simp] theorem State.nextPorts_cst (s : State) : s.nextPorts.cst = s.cst := rfl
@[simp] theorem State.nextPorts_op (s : State) : s.nextPorts.op = s.op := rfl
@[simp] theorem State.nextPorts_nleds (s : State) : s.nextPorts.nleds = s.nleds := rfl
@[simp] theorem State.nextPorts_base (s : State) : s.nextPorts.base = s.base := rfl
@[simp] theorem State.nextPorts_color (s : State) : s.nextPorts.color = s.color := rfl
@[simp] theorem State.nextPorts_scale (s : State) : s.nextPorts.scale = s.scale := rfl
@[simp] theorem State.nextPorts_sreg (s : State) : s.nextPorts.sreg = s.sreg := rfl
@[simp] theorem State.nextPorts_ereg (s : State) : s.nextPorts.ereg = s.ereg := rfl
@[simp] theorem State.nextPorts_dreg (s : State) : s.nextPorts.dreg = s.dreg := rfl
@[simp] theorem State.nextPorts_curb (s : State) : s.nextPorts.curb = s.curb := rfl
@[simp] theorem State.nextPorts_nextb (s : State) : s.nextPorts.nextb = s.nextb := rfl
@[simp] theorem State.nextPorts_pix (s : State) : s.nextPorts.pix = s.pix := rfl
@[simp] theorem State.nextPorts_slot (s : State) : s.nextPorts.slot = s.slot := rfl
@[simp] theorem State.nextPorts_biti (s : State) : s.nextPorts.biti = s.biti := rfl
@[simp] theorem State.nextPorts_cnt (s : State) : s.nextPorts.cnt = s.cnt := rfl
@[simp] theorem State.nextPorts_wrap (s : State) : s.nextPorts.wrap = s.wrap := rfl
@[simp] theorem State.nextPorts_tickval (s : State) : s.nextPorts.tickval = s.tickval := rfl
@[simp] theorem State.nextPorts_setupLeft (s : State) : s.nextPorts.setupLeft = s.setupLeft := rfl
@[simp] theorem State.nextPorts_prep (s : State) : s.nextPorts.prep = s.prep := rfl
@[simp] theorem State.nextPorts_late (s : State) : s.nextPorts.late = s.late := rfl
@[simp] theorem State.nextPorts_freeIx (s : State) : s.nextPorts.freeIx = s.freeIx := rfl
@[simp] theorem State.nextPorts_superseded (s : State) : s.nextPorts.superseded = s.superseded := rfl
@[simp] theorem State.nextPorts_mem (s : State) : s.nextPorts.mem = s.mem := rfl
@[simp] theorem State.nextPorts_ports (s : State) : s.nextPorts.ports = s.ports.tail := rfl
@[simp] theorem State.nextPorts_trace (s : State) : s.nextPorts.trace = s.trace := rfl

/-! ## countCycle -/

@[simp] theorem State.countCycle_cfg (s : State) : s.countCycle.cfg = s.cfg := rfl
@[simp] theorem State.countCycle_dstore (s : State) : s.countCycle.dstore = s.dstore := rfl
@[simp] theorem State.countCycle_lastmark (s : State) : s.countCycle.lastmark = s.lastmark := rfl
@[simp] theorem State.countCycle_now (s : State) : s.countCycle.now = s.now + 1 := rfl
@[simp] theorem State.countCycle_pinOe (s : State) : s.countCycle.pinOe = s.pinOe := rfl
@[simp] theorem State.countCycle_pinOut (s : State) : s.countCycle.pinOut = s.pinOut := rfl
@[simp] theorem State.countCycle_cst (s : State) : s.countCycle.cst = s.cst := rfl
@[simp] theorem State.countCycle_op (s : State) : s.countCycle.op = s.op := rfl
@[simp] theorem State.countCycle_nleds (s : State) : s.countCycle.nleds = s.nleds := rfl
@[simp] theorem State.countCycle_base (s : State) : s.countCycle.base = s.base := rfl
@[simp] theorem State.countCycle_color (s : State) : s.countCycle.color = s.color := rfl
@[simp] theorem State.countCycle_scale (s : State) : s.countCycle.scale = s.scale := rfl
@[simp] theorem State.countCycle_sreg (s : State) : s.countCycle.sreg = s.sreg := rfl
@[simp] theorem State.countCycle_ereg (s : State) : s.countCycle.ereg = s.ereg := rfl
@[simp] theorem State.countCycle_dreg (s : State) : s.countCycle.dreg = s.dreg := rfl
@[simp] theorem State.countCycle_curb (s : State) : s.countCycle.curb = s.curb := rfl
@[simp] theorem State.countCycle_nextb (s : State) : s.countCycle.nextb = s.nextb := rfl
@[simp] theorem State.countCycle_pix (s : State) : s.countCycle.pix = s.pix := rfl
@[simp] theorem State.countCycle_slot (s : State) : s.countCycle.slot = s.slot := rfl
@[simp] theorem State.countCycle_biti (s : State) : s.countCycle.biti = s.biti := rfl
@[simp] theorem State.countCycle_cnt (s : State) : s.countCycle.cnt = s.cnt := rfl
@[simp] theorem State.countCycle_wrap (s : State) : s.countCycle.wrap = s.wrap := rfl
@[simp] theorem State.countCycle_tickval (s : State) : s.countCycle.tickval = s.tickval := rfl
@[simp] theorem State.countCycle_setupLeft (s : State) : s.countCycle.setupLeft = s.setupLeft := rfl
@[simp] theorem State.countCycle_prep (s : State) : s.countCycle.prep = s.prep := rfl
@[simp] theorem State.countCycle_late (s : State) : s.countCycle.late = s.late := rfl
@[simp] theorem State.countCycle_freeIx (s : State) : s.countCycle.freeIx = s.freeIx := rfl
@[simp] theorem State.countCycle_superseded (s : State) : s.countCycle.superseded = s.superseded := rfl
@[simp] theorem State.countCycle_mem (s : State) : s.countCycle.mem = s.mem := rfl
@[simp] theorem State.countCycle_ports (s : State) : s.countCycle.ports = s.ports := rfl
@[simp] theorem State.countCycle_trace (s : State) : s.countCycle.trace = s.trace := rfl

/-! ## latch -/

@[simp] theorem State.latch_cfg (s : State) (i : Instr) : (s.latch i).cfg = s.cfg := rfl
@[simp] theorem State.latch_dstore (s : State) (i : Instr) : (s.latch i).dstore = s.dstore := rfl
@[simp] theorem State.latch_lastmark (s : State) (i : Instr) : (s.latch i).lastmark = s.lastmark := rfl
@[simp] theorem State.latch_now (s : State) (i : Instr) : (s.latch i).now = s.now := rfl
@[simp] theorem State.latch_pinOe (s : State) (i : Instr) : (s.latch i).pinOe = s.pinOe := rfl
@[simp] theorem State.latch_pinOut (s : State) (i : Instr) : (s.latch i).pinOut = s.pinOut := rfl
@[simp] theorem State.latch_cst (s : State) (i : Instr) : (s.latch i).cst = s.cst := rfl
@[simp] theorem State.latch_op (s : State) (i : Instr) : (s.latch i).op = i.opcode := rfl
@[simp] theorem State.latch_nleds (s : State) (i : Instr) : (s.latch i).nleds = i.count := rfl
@[simp] theorem State.latch_base (s : State) (i : Instr) : (s.latch i).base = s.base := rfl
@[simp] theorem State.latch_color (s : State) (i : Instr) : (s.latch i).color = s.color := rfl
@[simp] theorem State.latch_scale (s : State) (i : Instr) : (s.latch i).scale = i.scale := rfl
@[simp] theorem State.latch_sreg (s : State) (i : Instr) : (s.latch i).sreg = s.sreg := rfl
@[simp] theorem State.latch_ereg (s : State) (i : Instr) : (s.latch i).ereg = s.ereg := rfl
@[simp] theorem State.latch_dreg (s : State) (i : Instr) : (s.latch i).dreg = s.dreg := rfl
@[simp] theorem State.latch_curb (s : State) (i : Instr) : (s.latch i).curb = s.curb := rfl
@[simp] theorem State.latch_nextb (s : State) (i : Instr) : (s.latch i).nextb = s.nextb := rfl
@[simp] theorem State.latch_pix (s : State) (i : Instr) : (s.latch i).pix = s.pix := rfl
@[simp] theorem State.latch_slot (s : State) (i : Instr) : (s.latch i).slot = s.slot := rfl
@[simp] theorem State.latch_biti (s : State) (i : Instr) : (s.latch i).biti = s.biti := rfl
@[simp] theorem State.latch_cnt (s : State) (i : Instr) : (s.latch i).cnt = s.cnt := rfl
@[simp] theorem State.latch_wrap (s : State) (i : Instr) : (s.latch i).wrap = s.wrap := rfl
@[simp] theorem State.latch_tickval (s : State) (i : Instr) : (s.latch i).tickval = s.tickval := rfl
@[simp] theorem State.latch_setupLeft (s : State) (i : Instr) : (s.latch i).setupLeft = s.setupLeft := rfl
@[simp] theorem State.latch_prep (s : State) (i : Instr) : (s.latch i).prep = s.prep := rfl
@[simp] theorem State.latch_late (s : State) (i : Instr) : (s.latch i).late = s.late := rfl
@[simp] theorem State.latch_freeIx (s : State) (i : Instr) : (s.latch i).freeIx = s.freeIx := rfl
@[simp] theorem State.latch_superseded (s : State) (i : Instr) : (s.latch i).superseded = s.superseded := rfl
@[simp] theorem State.latch_mem (s : State) (i : Instr) : (s.latch i).mem = s.mem := rfl
@[simp] theorem State.latch_ports (s : State) (i : Instr) : (s.latch i).ports = s.ports := rfl
@[simp] theorem State.latch_trace (s : State) (i : Instr) : (s.latch i).trace = s.trace := rfl

/-! ## latchBase -/

@[simp] theorem State.latchBase_cfg (s : State) (b : Addr) : (s.latchBase b).cfg = s.cfg := rfl
@[simp] theorem State.latchBase_dstore (s : State) (b : Addr) : (s.latchBase b).dstore = s.dstore := rfl
@[simp] theorem State.latchBase_lastmark (s : State) (b : Addr) : (s.latchBase b).lastmark = s.lastmark := rfl
@[simp] theorem State.latchBase_now (s : State) (b : Addr) : (s.latchBase b).now = s.now := rfl
@[simp] theorem State.latchBase_pinOe (s : State) (b : Addr) : (s.latchBase b).pinOe = s.pinOe := rfl
@[simp] theorem State.latchBase_pinOut (s : State) (b : Addr) : (s.latchBase b).pinOut = s.pinOut := rfl
@[simp] theorem State.latchBase_cst (s : State) (b : Addr) : (s.latchBase b).cst = s.cst := rfl
@[simp] theorem State.latchBase_op (s : State) (b : Addr) : (s.latchBase b).op = s.op := rfl
@[simp] theorem State.latchBase_nleds (s : State) (b : Addr) : (s.latchBase b).nleds = s.nleds := rfl
@[simp] theorem State.latchBase_base (s : State) (b : Addr) : (s.latchBase b).base = b := rfl
@[simp] theorem State.latchBase_color (s : State) (b : Addr) : (s.latchBase b).color = s.color := rfl
@[simp] theorem State.latchBase_scale (s : State) (b : Addr) : (s.latchBase b).scale = s.scale := rfl
@[simp] theorem State.latchBase_sreg (s : State) (b : Addr) : (s.latchBase b).sreg = s.sreg := rfl
@[simp] theorem State.latchBase_ereg (s : State) (b : Addr) : (s.latchBase b).ereg = s.ereg := rfl
@[simp] theorem State.latchBase_dreg (s : State) (b : Addr) : (s.latchBase b).dreg = s.dreg := rfl
@[simp] theorem State.latchBase_curb (s : State) (b : Addr) : (s.latchBase b).curb = s.curb := rfl
@[simp] theorem State.latchBase_nextb (s : State) (b : Addr) : (s.latchBase b).nextb = s.nextb := rfl
@[simp] theorem State.latchBase_pix (s : State) (b : Addr) : (s.latchBase b).pix = s.pix := rfl
@[simp] theorem State.latchBase_slot (s : State) (b : Addr) : (s.latchBase b).slot = s.slot := rfl
@[simp] theorem State.latchBase_biti (s : State) (b : Addr) : (s.latchBase b).biti = s.biti := rfl
@[simp] theorem State.latchBase_cnt (s : State) (b : Addr) : (s.latchBase b).cnt = s.cnt := rfl
@[simp] theorem State.latchBase_wrap (s : State) (b : Addr) : (s.latchBase b).wrap = s.wrap := rfl
@[simp] theorem State.latchBase_tickval (s : State) (b : Addr) : (s.latchBase b).tickval = s.tickval := rfl
@[simp] theorem State.latchBase_setupLeft (s : State) (b : Addr) : (s.latchBase b).setupLeft = s.setupLeft := rfl
@[simp] theorem State.latchBase_prep (s : State) (b : Addr) : (s.latchBase b).prep = s.prep := rfl
@[simp] theorem State.latchBase_late (s : State) (b : Addr) : (s.latchBase b).late = s.late := rfl
@[simp] theorem State.latchBase_freeIx (s : State) (b : Addr) : (s.latchBase b).freeIx = s.freeIx := rfl
@[simp] theorem State.latchBase_superseded (s : State) (b : Addr) : (s.latchBase b).superseded = s.superseded := rfl
@[simp] theorem State.latchBase_mem (s : State) (b : Addr) : (s.latchBase b).mem = s.mem := rfl
@[simp] theorem State.latchBase_ports (s : State) (b : Addr) : (s.latchBase b).ports = s.ports := rfl
@[simp] theorem State.latchBase_trace (s : State) (b : Addr) : (s.latchBase b).trace = s.trace := rfl

/-! ## latchColor -/

@[simp] theorem State.latchColor_cfg (s : State) (t : Triple) : (s.latchColor t).cfg = s.cfg := rfl
@[simp] theorem State.latchColor_dstore (s : State) (t : Triple) : (s.latchColor t).dstore = s.dstore := rfl
@[simp] theorem State.latchColor_lastmark (s : State) (t : Triple) : (s.latchColor t).lastmark = s.lastmark := rfl
@[simp] theorem State.latchColor_now (s : State) (t : Triple) : (s.latchColor t).now = s.now := rfl
@[simp] theorem State.latchColor_pinOe (s : State) (t : Triple) : (s.latchColor t).pinOe = s.pinOe := rfl
@[simp] theorem State.latchColor_pinOut (s : State) (t : Triple) : (s.latchColor t).pinOut = s.pinOut := rfl
@[simp] theorem State.latchColor_cst (s : State) (t : Triple) : (s.latchColor t).cst = s.cst := rfl
@[simp] theorem State.latchColor_op (s : State) (t : Triple) : (s.latchColor t).op = s.op := rfl
@[simp] theorem State.latchColor_nleds (s : State) (t : Triple) : (s.latchColor t).nleds = s.nleds := rfl
@[simp] theorem State.latchColor_base (s : State) (t : Triple) : (s.latchColor t).base = s.base := rfl
@[simp] theorem State.latchColor_color (s : State) (t : Triple) : (s.latchColor t).color = t := rfl
@[simp] theorem State.latchColor_scale (s : State) (t : Triple) : (s.latchColor t).scale = s.scale := rfl
@[simp] theorem State.latchColor_sreg (s : State) (t : Triple) : (s.latchColor t).sreg = s.sreg := rfl
@[simp] theorem State.latchColor_ereg (s : State) (t : Triple) : (s.latchColor t).ereg = s.ereg := rfl
@[simp] theorem State.latchColor_dreg (s : State) (t : Triple) : (s.latchColor t).dreg = s.dreg := rfl
@[simp] theorem State.latchColor_curb (s : State) (t : Triple) : (s.latchColor t).curb = s.curb := rfl
@[simp] theorem State.latchColor_nextb (s : State) (t : Triple) : (s.latchColor t).nextb = s.nextb := rfl
@[simp] theorem State.latchColor_pix (s : State) (t : Triple) : (s.latchColor t).pix = s.pix := rfl
@[simp] theorem State.latchColor_slot (s : State) (t : Triple) : (s.latchColor t).slot = s.slot := rfl
@[simp] theorem State.latchColor_biti (s : State) (t : Triple) : (s.latchColor t).biti = s.biti := rfl
@[simp] theorem State.latchColor_cnt (s : State) (t : Triple) : (s.latchColor t).cnt = s.cnt := rfl
@[simp] theorem State.latchColor_wrap (s : State) (t : Triple) : (s.latchColor t).wrap = s.wrap := rfl
@[simp] theorem State.latchColor_tickval (s : State) (t : Triple) : (s.latchColor t).tickval = s.tickval := rfl
@[simp] theorem State.latchColor_setupLeft (s : State) (t : Triple) : (s.latchColor t).setupLeft = s.setupLeft := rfl
@[simp] theorem State.latchColor_prep (s : State) (t : Triple) : (s.latchColor t).prep = s.prep := rfl
@[simp] theorem State.latchColor_late (s : State) (t : Triple) : (s.latchColor t).late = s.late := rfl
@[simp] theorem State.latchColor_freeIx (s : State) (t : Triple) : (s.latchColor t).freeIx = s.freeIx := rfl
@[simp] theorem State.latchColor_superseded (s : State) (t : Triple) : (s.latchColor t).superseded = s.superseded := rfl
@[simp] theorem State.latchColor_mem (s : State) (t : Triple) : (s.latchColor t).mem = s.mem := rfl
@[simp] theorem State.latchColor_ports (s : State) (t : Triple) : (s.latchColor t).ports = s.ports := rfl
@[simp] theorem State.latchColor_trace (s : State) (t : Triple) : (s.latchColor t).trace = s.trace := rfl

/-! ## count -/

@[simp] theorem State.count_cfg (s : State) : s.count.cfg = s.cfg := rfl
@[simp] theorem State.count_dstore (s : State) : s.count.dstore = s.dstore := rfl
@[simp] theorem State.count_lastmark (s : State) : s.count.lastmark = s.lastmark := rfl
@[simp] theorem State.count_now (s : State) : s.count.now = s.now := rfl
@[simp] theorem State.count_pinOe (s : State) : s.count.pinOe = s.pinOe := rfl
@[simp] theorem State.count_pinOut (s : State) : s.count.pinOut = s.pinOut := rfl
@[simp] theorem State.count_cst (s : State) : s.count.cst = s.cst := rfl
@[simp] theorem State.count_op (s : State) : s.count.op = s.op := rfl
@[simp] theorem State.count_nleds (s : State) : s.count.nleds = s.nleds := rfl
@[simp] theorem State.count_base (s : State) : s.count.base = s.base := rfl
@[simp] theorem State.count_color (s : State) : s.count.color = s.color := rfl
@[simp] theorem State.count_scale (s : State) : s.count.scale = s.scale := rfl
@[simp] theorem State.count_sreg (s : State) : s.count.sreg = s.sreg := rfl
@[simp] theorem State.count_ereg (s : State) : s.count.ereg = s.ereg := rfl
@[simp] theorem State.count_dreg (s : State) : s.count.dreg = s.dreg := rfl
@[simp] theorem State.count_curb (s : State) : s.count.curb = s.curb := rfl
@[simp] theorem State.count_nextb (s : State) : s.count.nextb = s.nextb := rfl
@[simp] theorem State.count_pix (s : State) : s.count.pix = s.pix := rfl
@[simp] theorem State.count_slot (s : State) : s.count.slot = s.slot := rfl
@[simp] theorem State.count_biti (s : State) : s.count.biti = s.biti := rfl
@[simp] theorem State.count_cnt (s : State) : s.count.cnt = (countStep s.cfg (s.cnt, s.wrap)).1 := rfl
@[simp] theorem State.count_wrap (s : State) : s.count.wrap = (countStep s.cfg (s.cnt, s.wrap)).2 := rfl
@[simp] theorem State.count_tickval (s : State) : s.count.tickval = s.tickval := rfl
@[simp] theorem State.count_setupLeft (s : State) : s.count.setupLeft = s.setupLeft := rfl
@[simp] theorem State.count_prep (s : State) : s.count.prep = s.prep := rfl
@[simp] theorem State.count_late (s : State) : s.count.late = s.late := rfl
@[simp] theorem State.count_freeIx (s : State) : s.count.freeIx = s.freeIx := rfl
@[simp] theorem State.count_superseded (s : State) : s.count.superseded = s.superseded := rfl
@[simp] theorem State.count_mem (s : State) : s.count.mem = s.mem := rfl
@[simp] theorem State.count_ports (s : State) : s.count.ports = s.ports := rfl
@[simp] theorem State.count_trace (s : State) : s.count.trace = s.trace := rfl

/-! ## nextBit -/

@[simp] theorem State.nextBit_cfg (s : State) : s.nextBit.cfg = s.cfg := rfl
@[simp] theorem State.nextBit_dstore (s : State) : s.nextBit.dstore = s.dstore := rfl
@[simp] theorem State.nextBit_lastmark (s : State) : s.nextBit.lastmark = s.lastmark := rfl
@[simp] theorem State.nextBit_now (s : State) : s.nextBit.now = s.now := rfl
@[simp] theorem State.nextBit_pinOe (s : State) : s.nextBit.pinOe = s.pinOe := rfl
@[simp] theorem State.nextBit_pinOut (s : State) : s.nextBit.pinOut = s.pinOut := rfl
@[simp] theorem State.nextBit_cst (s : State) : s.nextBit.cst = s.cst := rfl
@[simp] theorem State.nextBit_op (s : State) : s.nextBit.op = s.op := rfl
@[simp] theorem State.nextBit_nleds (s : State) : s.nextBit.nleds = s.nleds := rfl
@[simp] theorem State.nextBit_base (s : State) : s.nextBit.base = s.base := rfl
@[simp] theorem State.nextBit_color (s : State) : s.nextBit.color = s.color := rfl
@[simp] theorem State.nextBit_scale (s : State) : s.nextBit.scale = s.scale := rfl
@[simp] theorem State.nextBit_sreg (s : State) : s.nextBit.sreg = s.sreg := rfl
@[simp] theorem State.nextBit_ereg (s : State) : s.nextBit.ereg = s.ereg := rfl
@[simp] theorem State.nextBit_dreg (s : State) : s.nextBit.dreg = s.dreg := rfl
@[simp] theorem State.nextBit_curb (s : State) : s.nextBit.curb = s.curb := rfl
@[simp] theorem State.nextBit_nextb (s : State) : s.nextBit.nextb = s.nextb := rfl
@[simp] theorem State.nextBit_pix (s : State) : s.nextBit.pix = s.pix := rfl
@[simp] theorem State.nextBit_slot (s : State) : s.nextBit.slot = s.slot := rfl
@[simp] theorem State.nextBit_biti (s : State) : s.nextBit.biti = s.biti - 1 := rfl
@[simp] theorem State.nextBit_cnt (s : State) : s.nextBit.cnt = s.cnt := rfl
@[simp] theorem State.nextBit_wrap (s : State) : s.nextBit.wrap = s.wrap := rfl
@[simp] theorem State.nextBit_tickval (s : State) : s.nextBit.tickval = s.tickval := rfl
@[simp] theorem State.nextBit_setupLeft (s : State) : s.nextBit.setupLeft = s.setupLeft := rfl
@[simp] theorem State.nextBit_prep (s : State) : s.nextBit.prep = s.prep := rfl
@[simp] theorem State.nextBit_late (s : State) : s.nextBit.late = s.late := rfl
@[simp] theorem State.nextBit_freeIx (s : State) : s.nextBit.freeIx = s.freeIx := rfl
@[simp] theorem State.nextBit_superseded (s : State) : s.nextBit.superseded = s.superseded := rfl
@[simp] theorem State.nextBit_mem (s : State) : s.nextBit.mem = s.mem := rfl
@[simp] theorem State.nextBit_ports (s : State) : s.nextBit.ports = s.ports := rfl
@[simp] theorem State.nextBit_trace (s : State) : s.nextBit.trace = s.trace := rfl

/-! ## shiftByte -/

@[simp] theorem State.shiftByte_cfg (s : State) : s.shiftByte.cfg = s.cfg := rfl
@[simp] theorem State.shiftByte_dstore (s : State) : s.shiftByte.dstore = s.dstore := rfl
@[simp] theorem State.shiftByte_lastmark (s : State) : s.shiftByte.lastmark = s.lastmark := rfl
@[simp] theorem State.shiftByte_now (s : State) : s.shiftByte.now = s.now := rfl
@[simp] theorem State.shiftByte_pinOe (s : State) : s.shiftByte.pinOe = s.pinOe := rfl
@[simp] theorem State.shiftByte_pinOut (s : State) : s.shiftByte.pinOut = s.pinOut := rfl
@[simp] theorem State.shiftByte_cst (s : State) : s.shiftByte.cst = s.cst := rfl
@[simp] theorem State.shiftByte_op (s : State) : s.shiftByte.op = s.op := rfl
@[simp] theorem State.shiftByte_nleds (s : State) : s.shiftByte.nleds = s.nleds := rfl
@[simp] theorem State.shiftByte_base (s : State) : s.shiftByte.base = s.base := rfl
@[simp] theorem State.shiftByte_color (s : State) : s.shiftByte.color = s.color := rfl
@[simp] theorem State.shiftByte_scale (s : State) : s.shiftByte.scale = s.scale := rfl
@[simp] theorem State.shiftByte_sreg (s : State) : s.shiftByte.sreg = s.sreg := rfl
@[simp] theorem State.shiftByte_ereg (s : State) : s.shiftByte.ereg = s.ereg := rfl
@[simp] theorem State.shiftByte_dreg (s : State) : s.shiftByte.dreg = s.dreg := rfl
@[simp] theorem State.shiftByte_curb (s : State) : s.shiftByte.curb = s.nextb := rfl
@[simp] theorem State.shiftByte_nextb (s : State) : s.shiftByte.nextb = s.nextb := rfl
@[simp] theorem State.shiftByte_pix (s : State) : s.shiftByte.pix = s.pix := rfl
@[simp] theorem State.shiftByte_slot (s : State) : s.shiftByte.slot = s.slot := rfl
@[simp] theorem State.shiftByte_biti (s : State) : s.shiftByte.biti = s.biti := rfl
@[simp] theorem State.shiftByte_cnt (s : State) : s.shiftByte.cnt = s.cnt := rfl
@[simp] theorem State.shiftByte_wrap (s : State) : s.shiftByte.wrap = s.wrap := rfl
@[simp] theorem State.shiftByte_tickval (s : State) : s.shiftByte.tickval = s.tickval := rfl
@[simp] theorem State.shiftByte_setupLeft (s : State) : s.shiftByte.setupLeft = s.setupLeft := rfl
@[simp] theorem State.shiftByte_prep (s : State) : s.shiftByte.prep = s.prep := rfl
@[simp] theorem State.shiftByte_late (s : State) : s.shiftByte.late = s.late := rfl
@[simp] theorem State.shiftByte_freeIx (s : State) : s.shiftByte.freeIx = s.freeIx := rfl
@[simp] theorem State.shiftByte_superseded (s : State) : s.shiftByte.superseded = s.superseded := rfl
@[simp] theorem State.shiftByte_mem (s : State) : s.shiftByte.mem = s.mem := rfl
@[simp] theorem State.shiftByte_ports (s : State) : s.shiftByte.ports = s.ports := rfl
@[simp] theorem State.shiftByte_trace (s : State) : s.shiftByte.trace = s.trace := rfl

/-! ## missDeadline -/

@[simp] theorem State.missDeadline_cfg (s : State) : s.missDeadline.cfg = s.cfg := rfl
@[simp] theorem State.missDeadline_dstore (s : State) : s.missDeadline.dstore = s.dstore := rfl
@[simp] theorem State.missDeadline_lastmark (s : State) : s.missDeadline.lastmark = s.lastmark := rfl
@[simp] theorem State.missDeadline_now (s : State) : s.missDeadline.now = s.now := rfl
@[simp] theorem State.missDeadline_pinOe (s : State) : s.missDeadline.pinOe = s.pinOe := rfl
@[simp] theorem State.missDeadline_pinOut (s : State) : s.missDeadline.pinOut = s.pinOut := rfl
@[simp] theorem State.missDeadline_cst (s : State) : s.missDeadline.cst = s.cst := rfl
@[simp] theorem State.missDeadline_op (s : State) : s.missDeadline.op = s.op := rfl
@[simp] theorem State.missDeadline_nleds (s : State) : s.missDeadline.nleds = s.nleds := rfl
@[simp] theorem State.missDeadline_base (s : State) : s.missDeadline.base = s.base := rfl
@[simp] theorem State.missDeadline_color (s : State) : s.missDeadline.color = s.color := rfl
@[simp] theorem State.missDeadline_scale (s : State) : s.missDeadline.scale = s.scale := rfl
@[simp] theorem State.missDeadline_sreg (s : State) : s.missDeadline.sreg = s.sreg := rfl
@[simp] theorem State.missDeadline_ereg (s : State) : s.missDeadline.ereg = s.ereg := rfl
@[simp] theorem State.missDeadline_dreg (s : State) : s.missDeadline.dreg = s.dreg := rfl
@[simp] theorem State.missDeadline_curb (s : State) : s.missDeadline.curb = s.curb := rfl
@[simp] theorem State.missDeadline_nextb (s : State) : s.missDeadline.nextb = s.nextb := rfl
@[simp] theorem State.missDeadline_pix (s : State) : s.missDeadline.pix = s.pix := rfl
@[simp] theorem State.missDeadline_slot (s : State) : s.missDeadline.slot = s.slot := rfl
@[simp] theorem State.missDeadline_biti (s : State) : s.missDeadline.biti = s.biti := rfl
@[simp] theorem State.missDeadline_cnt (s : State) : s.missDeadline.cnt = s.cnt := rfl
@[simp] theorem State.missDeadline_wrap (s : State) : s.missDeadline.wrap = s.wrap := rfl
@[simp] theorem State.missDeadline_tickval (s : State) : s.missDeadline.tickval = s.tickval := rfl
@[simp] theorem State.missDeadline_setupLeft (s : State) : s.missDeadline.setupLeft = s.setupLeft := rfl
@[simp] theorem State.missDeadline_prep (s : State) : s.missDeadline.prep = s.prep := rfl
@[simp] theorem State.missDeadline_late (s : State) : s.missDeadline.late = true := rfl
@[simp] theorem State.missDeadline_freeIx (s : State) : s.missDeadline.freeIx = s.freeIx := rfl
@[simp] theorem State.missDeadline_superseded (s : State) : s.missDeadline.superseded = s.superseded := rfl
@[simp] theorem State.missDeadline_mem (s : State) : s.missDeadline.mem = s.mem := rfl
@[simp] theorem State.missDeadline_ports (s : State) : s.missDeadline.ports = s.ports := rfl
@[simp] theorem State.missDeadline_trace (s : State) : s.missDeadline.trace = s.trace := rfl

/-! ## seed -/

@[simp] theorem State.seed_cfg (s : State) : s.seed.cfg = s.cfg := rfl
@[simp] theorem State.seed_dstore (s : State) : s.seed.dstore = s.dstore := rfl
@[simp] theorem State.seed_lastmark (s : State) : s.seed.lastmark = s.lastmark := rfl
@[simp] theorem State.seed_now (s : State) : s.seed.now = s.now := rfl
@[simp] theorem State.seed_pinOe (s : State) : s.seed.pinOe = s.pinOe := rfl
@[simp] theorem State.seed_pinOut (s : State) : s.seed.pinOut = s.pinOut := rfl
@[simp] theorem State.seed_cst (s : State) : s.seed.cst = s.cst := rfl
@[simp] theorem State.seed_op (s : State) : s.seed.op = s.op := rfl
@[simp] theorem State.seed_nleds (s : State) : s.seed.nleds = s.nleds := rfl
@[simp] theorem State.seed_base (s : State) : s.seed.base = s.base := rfl
@[simp] theorem State.seed_color (s : State) : s.seed.color = s.color := rfl
@[simp] theorem State.seed_scale (s : State) : s.seed.scale = s.scale := rfl
@[simp] theorem State.seed_sreg (s : State) : s.seed.sreg = frameScale s.op s.scale := rfl
@[simp] theorem State.seed_ereg (s : State) : s.seed.ereg = maskAll (frameScale s.op s.scale) := rfl
@[simp] theorem State.seed_dreg (s : State) : s.seed.dreg = seedAll s.dstore (maskAll (frameScale s.op s.scale)) := rfl
@[simp] theorem State.seed_curb (s : State) : s.seed.curb = s.curb := rfl
@[simp] theorem State.seed_nextb (s : State) : s.seed.nextb = s.nextb := rfl
@[simp] theorem State.seed_pix (s : State) : s.seed.pix = 0 := rfl
@[simp] theorem State.seed_slot (s : State) : s.seed.slot = 0 := rfl
@[simp] theorem State.seed_biti (s : State) : s.seed.biti = 7 := rfl
@[simp] theorem State.seed_cnt (s : State) : s.seed.cnt = s.cnt := rfl
@[simp] theorem State.seed_wrap (s : State) : s.seed.wrap = s.wrap := rfl
@[simp] theorem State.seed_tickval (s : State) : s.seed.tickval = s.tickval := rfl
@[simp] theorem State.seed_setupLeft (s : State) : s.seed.setupLeft = s.setupLeft := rfl
@[simp] theorem State.seed_prep (s : State) : s.seed.prep = s.prep := rfl
@[simp] theorem State.seed_late (s : State) : s.seed.late = s.late := rfl
@[simp] theorem State.seed_freeIx (s : State) : s.seed.freeIx = s.freeIx := rfl
@[simp] theorem State.seed_superseded (s : State) : s.seed.superseded = s.superseded := rfl
@[simp] theorem State.seed_mem (s : State) : s.seed.mem = s.mem := rfl
@[simp] theorem State.seed_ports (s : State) : s.seed.ports = s.ports := rfl
@[simp] theorem State.seed_trace (s : State) : s.seed.trace = s.trace := rfl

/-! ## restoreCycle -/

@[simp] theorem State.restoreCycle_cfg (s : State) : s.restoreCycle.cfg = s.cfg := rfl
@[simp] theorem State.restoreCycle_dstore (s : State) : s.restoreCycle.dstore = s.dstore := rfl
@[simp] theorem State.restoreCycle_lastmark (s : State) : s.restoreCycle.lastmark = s.now := rfl
@[simp] theorem State.restoreCycle_now (s : State) : s.restoreCycle.now = s.now := rfl
@[simp] theorem State.restoreCycle_pinOe (s : State) : s.restoreCycle.pinOe = s.pinOe := rfl
@[simp] theorem State.restoreCycle_pinOut (s : State) : s.restoreCycle.pinOut = s.pinOut := rfl
@[simp] theorem State.restoreCycle_cst (s : State) : s.restoreCycle.cst = .idle := rfl
@[simp] theorem State.restoreCycle_op (s : State) : s.restoreCycle.op = s.op := rfl
@[simp] theorem State.restoreCycle_nleds (s : State) : s.restoreCycle.nleds = s.nleds := rfl
@[simp] theorem State.restoreCycle_base (s : State) : s.restoreCycle.base = s.base := rfl
@[simp] theorem State.restoreCycle_color (s : State) : s.restoreCycle.color = s.color := rfl
@[simp] theorem State.restoreCycle_scale (s : State) : s.restoreCycle.scale = s.scale := rfl
@[simp] theorem State.restoreCycle_sreg (s : State) : s.restoreCycle.sreg = s.sreg := rfl
@[simp] theorem State.restoreCycle_ereg (s : State) : s.restoreCycle.ereg = s.ereg := rfl
@[simp] theorem State.restoreCycle_dreg (s : State) : s.restoreCycle.dreg = s.dreg := rfl
@[simp] theorem State.restoreCycle_curb (s : State) : s.restoreCycle.curb = s.curb := rfl
@[simp] theorem State.restoreCycle_nextb (s : State) : s.restoreCycle.nextb = s.nextb := rfl
@[simp] theorem State.restoreCycle_pix (s : State) : s.restoreCycle.pix = s.pix := rfl
@[simp] theorem State.restoreCycle_slot (s : State) : s.restoreCycle.slot = s.slot := rfl
@[simp] theorem State.restoreCycle_biti (s : State) : s.restoreCycle.biti = s.biti := rfl
@[simp] theorem State.restoreCycle_cnt (s : State) : s.restoreCycle.cnt = s.cnt := rfl
@[simp] theorem State.restoreCycle_wrap (s : State) : s.restoreCycle.wrap = s.wrap := rfl
@[simp] theorem State.restoreCycle_tickval (s : State) : s.restoreCycle.tickval = s.tickval := rfl
@[simp] theorem State.restoreCycle_setupLeft (s : State) : s.restoreCycle.setupLeft = s.setupLeft := rfl
@[simp] theorem State.restoreCycle_prep (s : State) : s.restoreCycle.prep = s.prep := rfl
@[simp] theorem State.restoreCycle_late (s : State) : s.restoreCycle.late = s.late := rfl
@[simp] theorem State.restoreCycle_freeIx (s : State) : s.restoreCycle.freeIx = s.freeIx := rfl
@[simp] theorem State.restoreCycle_superseded (s : State) : s.restoreCycle.superseded = s.superseded := rfl
@[simp] theorem State.restoreCycle_mem (s : State) : s.restoreCycle.mem = s.mem := rfl
@[simp] theorem State.restoreCycle_ports (s : State) : s.restoreCycle.ports = s.ports := rfl
@[simp] theorem State.restoreCycle_trace (s : State) : s.restoreCycle.trace = s.trace ++ [.mark] := rfl

/-! ## enterAdjust -/

@[simp] theorem State.enterAdjust_cfg (s : State) : s.enterAdjust.cfg = s.cfg := rfl
@[simp] theorem State.enterAdjust_dstore (s : State) : s.enterAdjust.dstore = s.dstore := rfl
@[simp] theorem State.enterAdjust_lastmark (s : State) : s.enterAdjust.lastmark = s.lastmark := rfl
@[simp] theorem State.enterAdjust_now (s : State) : s.enterAdjust.now = s.now := rfl
@[simp] theorem State.enterAdjust_pinOe (s : State) : s.enterAdjust.pinOe = s.pinOe := rfl
@[simp] theorem State.enterAdjust_pinOut (s : State) : s.enterAdjust.pinOut = s.pinOut := rfl
@[simp] theorem State.enterAdjust_cst (s : State) : s.enterAdjust.cst = .adjust := rfl
@[simp] theorem State.enterAdjust_op (s : State) : s.enterAdjust.op = s.op := rfl
@[simp] theorem State.enterAdjust_nleds (s : State) : s.enterAdjust.nleds = s.nleds := rfl
@[simp] theorem State.enterAdjust_base (s : State) : s.enterAdjust.base = s.base := rfl
@[simp] theorem State.enterAdjust_color (s : State) : s.enterAdjust.color = s.color := rfl
@[simp] theorem State.enterAdjust_scale (s : State) : s.enterAdjust.scale = s.scale := rfl
@[simp] theorem State.enterAdjust_sreg (s : State) : s.enterAdjust.sreg = s.sreg := rfl
@[simp] theorem State.enterAdjust_ereg (s : State) : s.enterAdjust.ereg = s.ereg := rfl
@[simp] theorem State.enterAdjust_dreg (s : State) : s.enterAdjust.dreg = s.dreg := rfl
@[simp] theorem State.enterAdjust_curb (s : State) : s.enterAdjust.curb = s.curb := rfl
@[simp] theorem State.enterAdjust_nextb (s : State) : s.enterAdjust.nextb = s.nextb := rfl
@[simp] theorem State.enterAdjust_pix (s : State) : s.enterAdjust.pix = s.pix := rfl
@[simp] theorem State.enterAdjust_slot (s : State) : s.enterAdjust.slot = s.slot := rfl
@[simp] theorem State.enterAdjust_biti (s : State) : s.enterAdjust.biti = s.biti := rfl
@[simp] theorem State.enterAdjust_cnt (s : State) : s.enterAdjust.cnt = s.cnt := rfl
@[simp] theorem State.enterAdjust_wrap (s : State) : s.enterAdjust.wrap = s.wrap := rfl
@[simp] theorem State.enterAdjust_tickval (s : State) : s.enterAdjust.tickval = BitVec.ofNat 32 (tickMs s.cfg s.nleds.toNat) := rfl
@[simp] theorem State.enterAdjust_setupLeft (s : State) : s.enterAdjust.setupLeft = s.setupLeft := rfl
@[simp] theorem State.enterAdjust_prep (s : State) : s.enterAdjust.prep = .none := rfl
@[simp] theorem State.enterAdjust_late (s : State) : s.enterAdjust.late = s.late := rfl
@[simp] theorem State.enterAdjust_freeIx (s : State) : s.enterAdjust.freeIx = s.freeIx := rfl
@[simp] theorem State.enterAdjust_superseded (s : State) : s.enterAdjust.superseded = s.superseded := rfl
@[simp] theorem State.enterAdjust_mem (s : State) : s.enterAdjust.mem = s.mem := rfl
@[simp] theorem State.enterAdjust_ports (s : State) : s.enterAdjust.ports = s.ports := rfl
@[simp] theorem State.enterAdjust_trace (s : State) : s.enterAdjust.trace = s.trace ++ [.tick (BitVec.ofNat 32 (tickMs s.cfg s.nleds.toNat))] := rfl

end Sys2Proof.Machine
end

