-- ==== Sys2Proof/Laws/Engine.lean ====
section
/-! SUPPORT. What each operation of the sequencer can change, said once. -/

namespace Sys2Proof.Machine

/-- Everything a cycle of the sequencer leaves alone: the configuration, the clock, `PIN_OE`, the operand latches, memory, the noted
races and the inputs. -/
structure Keeps (s t : State) : Prop where
  cfg : t.cfg = s.cfg
  now : t.now = s.now
  pinOe : t.pinOe = s.pinOe
  op : t.op = s.op
  nleds : t.nleds = s.nleds
  base : t.base = s.base
  color : t.color = s.color
  scale : t.scale = s.scale
  superseded : t.superseded = s.superseded
  mem : t.mem = s.mem
  ports : t.ports = s.ports

theorem Keeps.refl (s : State) : Keeps s s := ⟨rfl, rfl, rfl, rfl, rfl, rfl, rfl, rfl, rfl, rfl, rfl⟩

theorem Keeps.trans {s t u : State} (h : Keeps s t) (k : Keeps t u) : Keeps s u :=
  ⟨k.cfg.trans h.cfg, k.now.trans h.now, k.pinOe.trans h.pinOe, k.op.trans h.op, k.nleds.trans h.nleds, k.base.trans h.base,
   k.color.trans h.color, k.scale.trans h.scale, k.superseded.trans h.superseded, k.mem.trans h.mem,
   k.ports.trans h.ports⟩

/-! ## Look-ahead -/

/-- The look-ahead writes `D`, `CURB`, `NEXTB`, its own position and the trace. -/
theorem State.finishByte_frame (s : State) (raw : Byte) :
    ∃ d c n, s.finishByte raw = { s with dreg := d, curb := c, nextb := n, prep := .ready } := by
  unfold State.finishByte
  dsimp only
  split <;> exact ⟨_, _, _, rfl⟩

theorem State.takeRaw_frame (s : State) (raw : Byte) :
    ∃ d c n p, s.takeRaw raw = { s with dreg := d, curb := c, nextb := n, prep := p } := by
  unfold State.takeRaw
  split
  · obtain ⟨d, c, n, h⟩ := s.finishByte_frame raw
    exact ⟨d, c, n, _, h⟩
  · exact ⟨_, _, _, _, rfl⟩

/-- What a read of a raced byte returns: what the memory holds, or one of the values it races with (20_memory.md R71, U6). -/
theorem State.fetched_mem_or_racing (s : State) (a : Addr) (st : Option (Addr × Byte)) :
    s.fetched a st = s.mem.read a.toNat ∨ s.fetched a st ∈ s.racing a st := by
  unfold State.fetched
  split
  · exact .inl rfl
  · next v vs h =>
    rw [h, List.getD_eq_getElem?_getD]
    rcases hg : (v :: vs)[freePick s.freeIx % (vs.length + 2)]? with _ | x
    · exact .inl rfl
    · exact .inr (List.mem_of_getElem? hg)

/-- Without a race a read returns what the memory holds (20_memory.md R70). -/
theorem State.fetched_of_no_race {s : State} {a : Addr} {st : Option (Addr × Byte)} (h : s.racing a st = []) :
    s.fetched a st = s.mem.read a.toNat := by
  unfold State.fetched
  rw [h]

/-- A byte nobody has stored to since acceptance races with nothing. -/
theorem State.racing_eq_nil {s : State} {a : Addr} {st : Option (Addr × Byte)} :
    s.racing a st = [] ↔ (∀ c ∈ s.superseded, c.1 ≠ a) ∧ ∀ x, st = some x → x.1 ≠ a := by
  unfold State.racing
  rw [List.append_eq_nil_iff, List.map_eq_nil_iff, List.filter_eq_nil_iff]
  refine and_congr (forall₂_congr fun c _ => by simp) ?_
  match st with
  | none => simp [storedAt]
  | some (x, v) =>
    by_cases h : x = a
    · simp [storedAt, h]
    · simp [storedAt, h]

theorem State.usePick_frame (s : State) (a : Addr) (st : Option (Addr × Byte)) : ∃ x, s.usePick a st = { s with freeIx := x } := by
  unfold State.usePick
  split_ifs <;> exact ⟨_, rfl⟩

theorem State.prepCycle_frame (s : State) (q : PortIn) :
    ∃ d c n p x e, s.prepCycle q = { s with dreg := d, curb := c, nextb := n, prep := p, freeIx := x, trace := e } := by
  unfold State.prepCycle
  split
  · exact ⟨_, _, _, _, _, _, rfl⟩
  · exact ⟨_, _, _, _, _, _, rfl⟩
  · split
    · next a _ _ =>
      obtain ⟨x, h1⟩ := s.usePick_frame a q.hostStore
      obtain ⟨d, c, n, p, h2⟩ := ((s.usePick a q.hostStore).emit (.read a)).takeRaw_frame (s.fetched a q.hostStore)
      exact ⟨d, c, n, p, x, s.trace ++ [.read a], by rw [h2, h1]; rfl⟩
    · exact ⟨_, _, _, _, _, _, rfl⟩
  · split
    · next raw _ _ _ =>
      obtain ⟨d, c, n, h⟩ := s.finishByte_frame raw
      exact ⟨d, c, n, _, s.freeIx, s.trace, h⟩
    · exact ⟨_, _, _, _, _, _, rfl⟩
  · exact ⟨_, _, _, _, _, _, rfl⟩

theorem State.prepCycle_keeps (s : State) (q : PortIn) : Keeps s (s.prepCycle q) := by
  obtain ⟨_, _, _, _, _, _, h⟩ := s.prepCycle_frame q
  rw [h]; exact ⟨rfl, rfl, rfl, rfl, rfl, rfl, rfl, rfl, rfl, rfl, rfl⟩

/-- The look-ahead of a cycle asks the outside nothing unless a request is outstanding. -/
theorem State.prepCycle_ack (s : State) (h : s.memReq = false) (p q : PortIn) : s.prepCycle p = s.prepCycle q := by
  unfold State.memReq at h
  unfold State.prepCycle
  split <;> simp_all

theorem State.startPrep_frame (s : State) : ∃ p, s.startPrep = { s with prep := p } := by
  unfold State.startPrep
  dsimp only
  split <;> exact ⟨_, rfl⟩

theorem State.issue_frame (s : State) (go : Bool) : ∃ p, s.issue go = { s with prep := p } := by
  unfold State.issue
  split
  · exact s.startPrep_frame
  · exact ⟨_, rfl⟩

theorem State.issue_keeps (s : State) (go : Bool) : Keeps s (s.issue go) := by
  obtain ⟨_, h⟩ := s.issue_frame go
  rw [h]; exact ⟨rfl, rfl, rfl, rfl, rfl, rfl, rfl, rfl, rfl, rfl, rfl⟩

/-- What is not pending is not issued. -/
theorem State.issue_of_ne (s : State) (go : Bool) (h : s.prep ≠ .pending) : s.issue go = s := by
  unfold State.issue
  simp [h]

theorem State.openWindow_frame (s : State) : ∃ p, s.openWindow = { s with prep := p } := by
  unfold State.openWindow
  split <;> exact ⟨_, rfl⟩

/-! ## Micro-operations and indices -/

theorem State.microOps_frame (s : State) : ∃ b e, s.microOps = { s with pinOut := b, trace := e } := by
  unfold State.microOps
  split_ifs <;> exact ⟨_, _, rfl⟩

theorem State.nextIndex_frame (s : State) : ∃ p k, s.nextIndex = { s with biti := 7, pix := p, slot := k } := by
  unfold State.nextIndex
  split_ifs <;> exact ⟨_, _, rfl⟩

theorem State.loadNext_frame (s : State) (r : Bool) : ∃ c l x, s.loadNext r = { s with curb := c, late := l, freeIx := x } := by
  unfold State.loadNext
  split_ifs <;> exact ⟨_, _, _, rfl⟩

/-- The loop of XMIT writes the counter, the indices, `CURB`, the look-ahead's position, and on leaving `CST`, `TICKVAL` and the
trace. -/
theorem State.xmitNext_frame (s : State) (r : Bool) :
    ∃ cn w b k p c l x pr cs tv e, s.xmitNext r =
      { s with
        cnt := cn, wrap := w, biti := b, slot := k, pix := p, curb := c, late := l, freeIx := x
        prep := pr, cst := cs, tickval := tv, trace := e } := by
  unfold State.xmitNext
  split_ifs
  · exact ⟨_, _, _, _, _, _, _, _, _, _, _, _, rfl⟩
  · exact ⟨_, _, _, _, _, _, _, _, _, _, _, _, rfl⟩
  · obtain ⟨p, k, h1⟩ := s.nextIndex_frame
    obtain ⟨c, l, x, h2⟩ := s.nextIndex.loadNext_frame r
    obtain ⟨pr, h3⟩ := (s.nextIndex.loadNext r).openWindow_frame
    rw [h3, h2, h1]
    exact ⟨_, _, _, _, _, _, _, _, _, _, _, _, rfl⟩
  · unfold State.endFrame
    split_ifs <;> exact ⟨_, _, _, _, _, _, _, _, _, _, _, _, rfl⟩

theorem State.xmitNext_keeps (s : State) (r : Bool) : Keeps s (s.xmitNext r) := by
  obtain ⟨_, _, _, _, _, _, _, _, _, _, _, _, h⟩ := s.xmitNext_frame r
  rw [h]; exact ⟨rfl, rfl, rfl, rfl, rfl, rfl, rfl, rfl, rfl, rfl, rfl⟩

theorem State.beginXmitCycle_frame (s : State) (go : Bool) :
    ∃ p b e, s.beginXmitCycle go = { s with prep := p, pinOut := b, trace := e } := by
  unfold State.beginXmitCycle
  split_ifs
  · obtain ⟨p, h1⟩ := s.issue_frame go
    obtain ⟨b, e, h2⟩ := (s.issue go).microOps_frame
    rw [h2, h1]
    exact ⟨_, _, _, rfl⟩
  · exact ⟨_, _, _, rfl⟩

theorem State.beginXmitCycle_keeps (s : State) (go : Bool) : Keeps s (s.beginXmitCycle go) := by
  obtain ⟨_, _, _, h⟩ := s.beginXmitCycle_frame go
  rw [h]; exact ⟨rfl, rfl, rfl, rfl, rfl, rfl, rfl, rfl, rfl, rfl, rfl⟩

theorem State.xmitCycle_keeps (s : State) (p : PortIn) : Keeps s (s.xmitCycle p) :=
  ((s.prepCycle_keeps p).trans (State.xmitNext_keeps _ _)).trans (State.beginXmitCycle_keeps _ _)

/-! ## The phases -/

theorem State.enterSetup_frame (s : State) (go : Bool) :
    ∃ p, s.enterSetup go =
      { s with setupLeft := s.cfg.setupLat, late := false, prep := p, cst := .setup, trace := s.trace ++ [.irqOff] } := by
  unfold State.enterSetup
  obtain ⟨p, h⟩ := State.issue_frame
    ((({ s with setupLeft := s.cfg.setupLat, late := false, prep := if s.nleds = 0 then .none else .pending } : State).goto
      .setup).emit .irqOff) go
  exact ⟨p, by rw [h]; rfl⟩

theorem State.waitIdleCycle_keeps (s : State) (p : PortIn) : Keeps s (s.waitIdleCycle p) := by
  unfold State.waitIdleCycle
  split_ifs
  · obtain ⟨_, h⟩ := s.enterSetup_frame p.go
    rw [h]; exact ⟨rfl, rfl, rfl, rfl, rfl, rfl, rfl, rfl, rfl, rfl, rfl⟩
  · exact Keeps.refl s

theorem State.firstByte_frame (s : State) : ∃ c l x, s.firstByte = { s with curb := c, late := l, freeIx := x } := by
  unfold State.firstByte
  split_ifs <;> exact ⟨_, _, _, rfl⟩

theorem State.enterXmit_frame (s : State) : ∃ p, s.enterXmit =
    { s with cnt := (countStart s.cfg).1, wrap := (countStart s.cfg).2, cst := .xmit, prep := p } := by
  obtain ⟨p, h⟩ := State.openWindow_frame
    (({ s with cnt := (countStart s.cfg).1, wrap := (countStart s.cfg).2 } : State).goto .xmit)
  exact ⟨p, by unfold State.enterXmit; rw [h]; rfl⟩

theorem State.leaveSetup_keeps (s : State) (go : Bool) : Keeps s (s.leaveSetup go) := by
  unfold State.leaveSetup
  split_ifs
  · exact ⟨rfl, rfl, rfl, rfl, rfl, rfl, rfl, rfl, rfl, rfl, rfl⟩
  · refine Keeps.trans ?_ (State.beginXmitCycle_keeps _ _)
    obtain ⟨c, l, x, h1⟩ := s.firstByte_frame
    obtain ⟨p, h2⟩ := s.firstByte.enterXmit_frame
    rw [h2, h1]
    exact ⟨rfl, rfl, rfl, rfl, rfl, rfl, rfl, rfl, rfl, rfl, rfl⟩

theorem State.seedFirst_keeps (s : State) : Keeps s s.seedFirst := by
  unfold State.seedFirst
  split_ifs
  · exact ⟨rfl, rfl, rfl, rfl, rfl, rfl, rfl, rfl, rfl, rfl, rfl⟩
  · exact Keeps.refl s

theorem State.endSetupCycle_keeps (s : State) (go : Bool) : Keeps s (s.endSetupCycle go) := by
  unfold State.endSetupCycle
  split_ifs
  · exact s.leaveSetup_keeps go
  · exact Keeps.trans (t := ({ s with setupLeft := s.setupLeft - 1 } : State))
      ⟨rfl, rfl, rfl, rfl, rfl, rfl, rfl, rfl, rfl, rfl, rfl⟩ (State.issue_keeps _ go)

theorem State.setupCycle_keeps (s : State) (p : PortIn) : Keeps s (s.setupCycle p) :=
  (s.seedFirst_keeps.trans (State.prepCycle_keeps _ _)).trans (State.endSetupCycle_keeps _ _)

theorem State.adjustCycle_keeps (s : State) : Keeps s s.adjustCycle := by
  unfold State.adjustCycle State.writeBack
  split_ifs <;> exact ⟨rfl, rfl, rfl, rfl, rfl, rfl, rfl, rfl, rfl, rfl, rfl⟩

theorem State.restoreCycle_keeps (s : State) : Keeps s s.restoreCycle := ⟨rfl, rfl, rfl, rfl, rfl, rfl, rfl, rfl, rfl, rfl, rfl⟩

/-- A cycle of the sequencer leaves the configuration, the latches, memory and the inputs alone. -/
theorem State.sequencerCycle_keeps (s : State) (p : PortIn) : Keeps s (s.sequencerCycle p) := by
  unfold State.sequencerCycle
  split
  · exact Keeps.refl s
  · exact s.waitIdleCycle_keeps p
  · exact s.setupCycle_keeps p
  · exact s.xmitCycle_keeps p
  · exact s.adjustCycle_keeps
  · exact s.restoreCycle_keeps

end Sys2Proof.Machine
end

