-- ==== Sys2Proof/Laws/Memory.lean ====
section
/-! SUPPORT. Memory: a read after a write, and that every memory operation keeps the canonical form. -/

namespace Sys2Proof.Machine

@[simp] theorem Memory.read_nil (a : Nat) : Memory.read [] a = memDefault := rfl

theorem Memory.wfAbove_mono {lo lo' : Nat} (h : lo ≤ lo') : ∀ m : Memory, m.wfAbove lo' = true → m.wfAbove lo = true
  | [], _ => rfl
  | (k, b) :: rest, hw => by
    simp only [Memory.wfAbove, Bool.and_eq_true, decide_eq_true_eq] at hw ⊢
    exact ⟨⟨h.trans hw.1.1, hw.1.2⟩, hw.2⟩

/-- Below its bound a canonical list holds nothing. -/
theorem Memory.read_below {lo a : Nat} (h : a < lo) : ∀ m : Memory, m.wfAbove lo = true → m.read a = memDefault
  | [], _ => rfl
  | (k, b) :: rest, hw => by
    simp only [Memory.wfAbove, Bool.and_eq_true, decide_eq_true_eq] at hw
    rw [Memory.read, if_neg (by omega)]
    exact Memory.read_below (by omega) rest hw.2

theorem Memory.read_put (m : Memory) (a : Nat) (v : Byte) (x : Nat) :
    (m.put a v).read x = if x = a then v else m.read x := by
  induction m with
  | nil => simp [Memory.put, Memory.read]
  | cons c rest ih =>
    obtain ⟨k, b⟩ := c
    simp only [Memory.put]
    split
    · simp [Memory.read]
    · split
      · subst a; simp only [Memory.read]; split <;> simp_all
      · simp only [Memory.read, ih]; split <;> [skip; rfl]
        rw [if_neg (by omega)]

theorem Memory.read_drop (m : Memory) (a x lo : Nat) (hw : m.wfAbove lo = true) :
    (m.drop a).read x = if x = a then memDefault else m.read x := by
  induction m generalizing lo with
  | nil => simp [Memory.drop]
  | cons c rest ih =>
    obtain ⟨k, b⟩ := c
    simp only [Memory.wfAbove, Bool.and_eq_true, decide_eq_true_eq] at hw
    simp only [Memory.drop]
    split
    · subst a; simp only [Memory.read]
      split
      · subst x; exact Memory.read_below (Nat.lt_succ_self _) rest hw.2
      · rfl
    · simp only [Memory.read, ih _ hw.2]; split <;> [skip; rfl]
      rw [if_neg (by omega)]

/-- A read after a write to the same byte gives what was written; a write leaves every other byte alone. -/
theorem Memory.read_write (m : Memory) (hw : m.wf = true) (a : Nat) (v : Byte) (x : Nat) :
    (m.write a v).read x = if x = a then v else m.read x := by
  simp only [Memory.wf, Bool.and_eq_true] at hw
  unfold Memory.write
  split
  · subst v; exact Memory.read_drop m a x 0 hw.1
  · exact Memory.read_put m a v x

theorem Memory.wfAbove_put (m : Memory) (a : Nat) (v : Byte) (lo : Nat) (hlo : lo ≤ a) (hv : v ≠ memDefault)
    (hw : m.wfAbove lo = true) : (m.put a v).wfAbove lo = true := by
  induction m generalizing lo with
  | nil => simp [Memory.put, Memory.wfAbove, hlo, hv]
  | cons c rest ih =>
    obtain ⟨k, b⟩ := c
    simp only [Memory.wfAbove, Bool.and_eq_true, decide_eq_true_eq] at hw
    simp only [Memory.put]
    split
    · simp only [Memory.wfAbove, Bool.and_eq_true, decide_eq_true_eq, bne_iff_ne, ne_eq]
      exact ⟨⟨hlo, hv⟩, ⟨by omega, by simpa using hw.1.2⟩, hw.2⟩
    · split
      · simp only [Memory.wfAbove, Bool.and_eq_true, decide_eq_true_eq, bne_iff_ne, ne_eq]
        exact ⟨⟨hw.1.1, hv⟩, hw.2⟩
      · simp only [Memory.wfAbove, Bool.and_eq_true, decide_eq_true_eq]
        exact ⟨hw.1, ih (k + 1) (by omega) hw.2⟩

theorem Memory.wfAbove_drop (m : Memory) (a lo : Nat) (hw : m.wfAbove lo = true) : (m.drop a).wfAbove lo = true := by
  induction m generalizing lo with
  | nil => rfl
  | cons c rest ih =>
    obtain ⟨k, b⟩ := c
    simp only [Memory.wfAbove, Bool.and_eq_true, decide_eq_true_eq] at hw
    simp only [Memory.drop]
    split
    · exact Memory.wfAbove_mono (by omega) rest hw.2
    · simp only [Memory.wfAbove, Bool.and_eq_true, decide_eq_true_eq]
      exact ⟨hw.1, ih (k + 1) hw.2⟩

theorem Memory.inSpace_put (m : Memory) (a : Nat) (v : Byte) (ha : a < 2 ^ aW) (h : m.inSpace = true) :
    (m.put a v).inSpace = true := by
  induction m with
  | nil => simpa [Memory.put, Memory.inSpace] using ha
  | cons c rest ih =>
    obtain ⟨k, b⟩ := c
    simp only [Memory.inSpace, Bool.and_eq_true, decide_eq_true_eq] at h
    simp only [Memory.put]
    split
    · simp only [Memory.inSpace, Bool.and_eq_true, decide_eq_true_eq]; exact ⟨ha, h⟩
    · split <;> simp only [Memory.inSpace, Bool.and_eq_true, decide_eq_true_eq]
      · exact h
      · exact ⟨h.1, ih h.2⟩

theorem Memory.inSpace_drop (m : Memory) (a : Nat) (h : m.inSpace = true) : (m.drop a).inSpace = true := by
  induction m with
  | nil => rfl
  | cons c rest ih =>
    obtain ⟨k, b⟩ := c
    simp only [Memory.inSpace, Bool.and_eq_true, decide_eq_true_eq] at h
    simp only [Memory.drop]
    split
    · exact h.2
    · simp only [Memory.inSpace, Bool.and_eq_true, decide_eq_true_eq]; exact ⟨h.1, ih h.2⟩

/-- A store to an address of the space keeps the canonical form. -/
theorem Memory.wf_write (m : Memory) (a : Nat) (v : Byte) (ha : a < 2 ^ aW) (h : m.wf = true) : (m.write a v).wf = true := by
  simp only [Memory.wf, Bool.and_eq_true] at h ⊢
  unfold Memory.write
  split
  · exact ⟨Memory.wfAbove_drop m a 0 h.1, Memory.inSpace_drop m a h.2⟩
  · next hv => exact ⟨Memory.wfAbove_put m a v 0 (Nat.zero_le _) hv h.1, Memory.inSpace_put m a v ha h.2⟩

/-- The host's store of a cycle keeps the canonical form. -/
theorem State.hostStores_wf (s : State) (st : Option (Addr × Byte)) (h : s.mem.wf = true) : (s.hostStores st).mem.wf = true := by
  match st with
  | none => exact h
  | some (a, v) => exact Memory.wf_write s.mem a.toNat v a.isLt h

/-- The host's store changes memory and nothing else. -/
theorem State.hostStores_frame (s : State) (st : Option (Addr × Byte)) : ∃ m, s.hostStores st = { s with mem := m } := by
  match st with
  | none => exact ⟨s.mem, rfl⟩
  | some (a, v) => exact ⟨_, rfl⟩

end Sys2Proof.Machine
end

