-- ==== Sys2Proof/Laws/Step.lean ====
section
/-! SUPPORT. What a step can be, said once: the four ways a step answers a next state, and what an accepted command makes of the
state. -/

namespace Sys2Proof.Machine

theorem State.noteRace_some (s : State) (a : Addr) (v : Byte) :
    s.noteRace (some (a, v)) = if s.lends a then { s with superseded := (a, s.mem.read a.toNat) :: s.superseded } else s := rfl

/-- Noting a race writes the list of races and nothing else. -/
theorem State.noteRace_frame (s : State) (st : Option (Addr × Byte)) : ∃ r, s.noteRace st = { s with superseded := r } := by
  match st with
  | none => exact ⟨_, rfl⟩
  | some (a, v) =>
    rw [State.noteRace_some]
    split_ifs <;> exact ⟨_, rfl⟩

/-- The noted races after a cycle: those before it, and the superseded byte of a store that hit the lent buffer. -/
theorem State.mem_noteRace {s : State} {st : Option (Addr × Byte)} {c : Addr × Byte} (h : c ∈ (s.noteRace st).superseded) :
    c ∈ s.superseded ∨ s.lends c.1 = true := by
  match st with
  | none => exact .inl h
  | some (a, v) =>
    rw [State.noteRace_some] at h
    split_ifs at h with hl
    · rcases List.mem_cons.1 h with rfl | h
      · exact .inr hl
      · exact .inl h
    · exact .inl h

/-- A store outside the lent buffer is no race. -/
theorem State.noteRace_of_not_lent {s : State} {st : Option (Addr × Byte)} (h : ∀ x, st = some x → s.lends x.1 = false) :
    s.noteRace st = s := by
  match st with
  | none => rfl
  | some (a, v) => rw [State.noteRace_some, h (a, v) rfl]; rfl

/-- The end of a cycle notes a race, lets the host's store land, steps `NOW` and brings the next inputs; nothing else. -/
theorem finishCycle_frame (t : State) (st : Option (Addr × Byte)) :
    ∃ m r, finishCycle t st = { t with mem := m, superseded := r, now := t.now + 1, ports := t.ports.tail } := by
  obtain ⟨r, h1⟩ := t.noteRace_frame st
  obtain ⟨m, h2⟩ := (t.noteRace st).hostStores_frame st
  exact ⟨m, r, by unfold finishCycle; rw [h2, h1]; rfl⟩

@[simp] theorem finishCycle_none (t : State) : finishCycle t none = { t with now := t.now + 1, ports := t.ports.tail } := rfl

/-- The memory after a cycle: the host's store has landed, wherever it went. -/
theorem finishCycle_mem (t : State) (st : Option (Addr × Byte)) : (finishCycle t st).mem = (t.hostStores st).mem := by
  match st with
  | none => rfl
  | some (a, v) =>
    obtain ⟨r, h⟩ := t.noteRace_frame (some (a, v))
    unfold finishCycle
    rw [h]; rfl

theorem finishCycle_superseded (t : State) (st : Option (Addr × Byte)) :
    (finishCycle t st).superseded = (t.noteRace st).superseded := by
  obtain ⟨m, h⟩ := (t.noteRace st).hostStores_frame st
  unfold finishCycle
  rw [h]; rfl

/-- The state after the acceptance of a command, before the end of its cycle (43_controller_commands.md R171, R180). -/
def acceptedState (i : Instr) (s : State) : State :=
  match i with
  | .init => { s with pinOe := true, pinOut := false, op := .init, nleds := 0, scale := .zero }
  | .showFrame base n sc => { s with op := .showFrame, nleds := n, scale := sc, base := base, cst := .waitIdle, superseded := [] }
  | .showColor color n sc => { s with op := .showColor, nleds := n, scale := sc, color := color, cst := .waitIdle, superseded := [] }
  | .clear n => { s with op := .clear, nleds := n, scale := .zero, cst := .waitIdle, superseded := [] }

/-- An acceptance under a condition answers a next state exactly where the condition holds. -/
theorem ite_next {c : Prop} [Decidable c] {a u : State} {r : Refusal} :
    (if c then (.next a : Host.Outcome State Fault Refusal) else .refused r) = .next u ↔ c ∧ u = a := by
  split_ifs with h <;> simp [h]
  exact eq_comm

/-- A command has its effect where the instance admits it, and nowhere else. -/
theorem exec_next {i : Instr} {s u : State} :
    exec i s = .next u ↔ i.wellFormed s.cfg = true ∧ u = acceptedState i s := by
  cases i with
  | init =>
    constructor
    · rintro ⟨⟩; exact ⟨rfl, rfl⟩
    · rintro ⟨-, rfl⟩; rfl
  | showFrame base n sc =>
    have e : exec (.showFrame base n sc) s = if bufferFits s.cfg base n = true then
        (if tickFits s.cfg n = true then .next (acceptedState (.showFrame base n sc) s) else .refused .tickTooLarge)
        else .refused .bufferPastTop := rfl
    rw [e, show Instr.wellFormed s.cfg (.showFrame base n sc) = (bufferFits s.cfg base n && tickFits s.cfg n) from rfl,
      Bool.and_eq_true]
    by_cases h : bufferFits s.cfg base n = true
    · rw [if_pos h, ite_next]; simp [h]
    · rw [if_neg h]; simp [h]
  | showColor color n sc =>
    have e : exec (.showColor color n sc) s = if tickFits s.cfg n = true then
        .next (acceptedState (.showColor color n sc) s) else .refused .tickTooLarge := rfl
    rw [e, ite_next]
    exact Iff.rfl
  | clear n =>
    have e : exec (.clear n) s = if tickFits s.cfg n = true then
        .next (acceptedState (.clear n) s) else .refused .tickTooLarge := rfl
    rw [e, ite_next]
    exact Iff.rfl

/-- No command faults. -/
theorem exec_no_fault (i : Instr) (s : State) (f : Fault) : exec i s ≠ .fault f := by
  cases i <;> simp only [exec, execInit, execShow, execShowColor, execClear, acceptFrame] <;> (try split_ifs) <;> simp

/-- A step in a cycle with `RST = 1`. -/
theorem step_of_rst {s : State} (h : s.port.rst = true) : step s = .next (resetCycle s s.port.hostStore) := by
  unfold step
  rw [if_pos h]

/-- A step of an idle block that is offered a command word. -/
theorem step_of_offer {s : State} {i : Instr} (hr : s.port.rst = false) (hi : s.cst = .idle) (ho : s.Offers i) :
    step s = finishAccept s.port.hostStore (exec i s) := by
  unfold step
  simp [hr, hi, ho.1, ho.2]

/-- A step of an idle block that is offered nothing. -/
theorem step_of_idle {s : State} (hr : s.port.rst = false) (hi : s.cst = .idle) (hv : s.port.cmdValid = false) :
    step s = .next (finishCycle s s.port.hostStore) := by
  unfold step
  simp [hr, hi, hv]

/-- A step of a busy block. -/
theorem step_of_busy {s : State} (hr : s.port.rst = false) (hi : s.cst ≠ .idle) (hf : s.busyFault = none) :
    step s = .next (finishCycle (s.sequencerCycle s.port) s.port.hostStore) := by
  unfold step
  simp [hr, hi, hf]

/-- Everything a step that answers a next state can be. -/
theorem step_cases {s t : State} (h : step s = .next t) :
    (s.port.rst = true ∧ t = resetCycle s s.port.hostStore) ∨
    (s.port.rst = false ∧ s.cst = .idle ∧ s.port.cmdValid = true ∧ ∃ i, s.Offers i ∧ i.wellFormed s.cfg = true ∧
      t = finishCycle (acceptedState i s) s.port.hostStore) ∨
    (s.port.rst = false ∧ s.cst = .idle ∧ s.port.cmdValid = false ∧ t = finishCycle s s.port.hostStore) ∨
    (s.port.rst = false ∧ s.cst ≠ .idle ∧ s.busyFault = none ∧
      t = finishCycle (s.sequencerCycle s.port) s.port.hostStore) := by
  by_cases hr : s.port.rst = true
  · rw [step_of_rst hr] at h
    cases h
    exact .inl ⟨hr, rfl⟩
  replace hr : s.port.rst = false := by simpa using hr
  by_cases hi : s.cst = .idle
  · cases hv : s.port.cmdValid with
    | false =>
      rw [step_of_idle hr hi hv] at h
      cases h
      exact .inr (.inr (.inl ⟨hr, hi, rfl, rfl⟩))
    | true =>
      cases hd : decode s.port.cmdWord with
      | error e => unfold step at h; simp [hr, hi, hv, hd] at h
      | ok i =>
        have ho : s.Offers i := ⟨hv, hd⟩
        rw [step_of_offer hr hi ho] at h
        cases he : exec i s with
        | fault f => simp [he, finishAccept] at h
        | refused r => simp [he, finishAccept] at h
        | next u =>
          rw [he, finishAccept] at h
          obtain ⟨hw, rfl⟩ := exec_next.1 he
          cases h
          exact .inr (.inl ⟨hr, hi, rfl, i, ho, hw, rfl⟩)
  · cases hf : s.busyFault with
    | some f => unfold step at h; simp [hr, hi, hf] at h
    | none =>
      rw [step_of_busy hr hi hf] at h
      cases h
      exact .inr (.inr (.inr ⟨hr, hi, rfl, rfl⟩))

/-- One cycle, and then `k` more. -/
theorem runFor_succ {k : Nat} {s t : State} (h : step s = .next t) : runFor (k + 1) s = runFor k t := by
  simp only [runFor, Host.Core.run]
  rw [show Sys2Proof.core.step s = .next t from h]

@[simp] theorem runFor_zero (s : State) : runFor 0 s = .next s := rfl

/-- A run of one cycle more begins with a step. -/
theorem runFor_succ_next {k : Nat} {s u : State} (h : runFor (k + 1) s = .next u) :
    ∃ t, step s = .next t ∧ runFor k t = .next u := by
  cases hs : step s with
  | next t => exact ⟨t, rfl, by rw [← runFor_succ hs]; exact h⟩
  | fault f =>
    simp only [runFor, Host.Core.run] at h
    rw [show Sys2Proof.core.step s = .fault f from hs] at h
    cases h
  | refused r =>
    simp only [runFor, Host.Core.run] at h
    rw [show Sys2Proof.core.step s = .refused r from hs] at h
    cases h

/-- A run of `j + k` cycles is a run of `j` and then one of `k`. -/
theorem runFor_add {j k : Nat} {s t : State} (h : runFor j s = .next t) : runFor (j + k) s = runFor k t := by
  induction j generalizing s with
  | zero => cases h; rw [Nat.zero_add]
  | succ j ih =>
    obtain ⟨u, hs, hu⟩ := runFor_succ_next h
    rw [Nat.succ_add, runFor_succ hs]
    exact ih hu

/-- What every step keeps, every run keeps. -/
theorem runFor_induct {P : State → Prop} (hstep : ∀ s t, P s → step s = .next t → P t) {k : Nat} {s u : State} (hs : P s)
    (h : runFor k s = .next u) : P u := by
  induction k generalizing s with
  | zero => cases h; exact hs
  | succ k ih =>
    obtain ⟨t, ht, hu⟩ := runFor_succ_next h
    exact ih (hstep s t hs ht) hu

end Sys2Proof.Machine
end

