-- ==== Sys2Proof/Laws/Invariant.lean ====
section
/-! SUPPORT. The invariant of Safety.lean, phase by phase: what each operation of the sequencer keeps of it. -/

namespace Sys2Proof.Machine

/-! ## Numbers of the configuration -/

theorem total_pos (cfg : Config) : 0 < total cfg := by have := cfg.t1_pos; unfold total; omega
theorem total_lt (cfg : Config) : total cfg < 2 ^ 24 := cfg.total_lt

theorem ofNat_total (cfg : Config) : (BitVec.ofNat 24 (total cfg)).toNat = total cfg := by
  rw [BitVec.toNat_ofNat, Nat.mod_eq_of_lt (total_lt cfg)]

/-! ## The end of a cycle -/

/-- What ends every cycle keeps the invariant. -/
theorem inv_finish {t : State} (st : Option (Addr × Byte)) (h : t.Inv) : (finishCycle t st).Inv := by
  have hm : (finishCycle t st).mem.wf = true := by rw [finishCycle_mem]; exact t.hostStores_wf st h.mem
  have hr : ∀ c ∈ (finishCycle t st).superseded, t.cst ≠ .idle →
      t.op = .showFrame ∧ inBuffer t.cfg t.base t.nleds c.1 = true := by
    intro c hc hi
    rw [finishCycle_superseded] at hc
    rcases t.mem_noteRace hc with h' | h'
    · exact h.race hi c h'
    · simp only [State.lends, Bool.and_eq_true, beq_iff_eq] at h'
      exact ⟨h'.1.2, h'.2⟩
  obtain ⟨m, r, e⟩ := finishCycle_frame t st
  rw [e] at hm hr ⊢
  exact ⟨hm, h.latches, Nat.le_succ_of_le h.clock, h.setup, h.counter, h.position, h.pin, h.dither, h.prep,
    fun hi c hc => hr c hc hi, h.tick⟩

/-- A byte of a pixel of the frame lies in the lent buffer (20_memory.md R61, R64). -/
theorem pixAddr_inBuffer (s : State) (i : Nat) (c : Fin 3) (hb : bufferFits s.cfg s.base s.nleds = true)
    (hi : i < s.nleds.toNat) :
    inBuffer s.cfg s.base s.nleds (BitVec.ofNat 32 (pixAddr s.cfg s.base i c)) = true := by
  replace hb : s.base.toNat + s.cfg.skip + 3 * s.nleds.toNat ≤ 2 ^ 32 := of_decide_eq_true hb
  have hc := c.isLt
  have e : (BitVec.ofNat 32 (pixAddr s.cfg s.base i c)).toNat = pixAddr s.cfg s.base i c := by
    rw [BitVec.toNat_ofNat, Nat.mod_eq_of_lt]; unfold pixAddr; omega
  simp only [inBuffer, e, Bool.and_eq_true, decide_eq_true_eq]
  unfold pixAddr; omega

/-- No fault: the latches are those of an accepted frame command. -/
theorem State.busyFault_none {s : State} :
    s.busyFault = none ↔ s.op ≠ .init ∧
        (s.op = .showFrame → bufferFits s.cfg s.base s.nleds = true) ∧ tickFits s.cfg s.nleds = true := by
  unfold State.busyFault
  cases s.op <;> simp; split_ifs <;> simp_all

/-! ## The look-ahead -/

/-- A pending byte belongs to a pixel of the frame. -/
theorem prepPos_lt {s : State} (hp : s.PositionOk) (hk : s.PrepOk) (hc : s.cst = .setup ∨ s.cst = .xmit) (h : s.prep = .pending) :
    s.prepPos.1 < s.nleds.toNat := by
  unfold State.prepPos
  rcases hc with hc | hc
  · simpa [hc] using hk.2.1 h hc
  · have h1 := hp.1 hc
    have h2 := hk.2.2.1 h hc
    simp only [State.hasNext, Bool.or_eq_true, decide_eq_true_eq] at h2
    simp only [hc, reduceCtorEq, if_false]
    split_ifs with h3
    · exact h1
    · show s.pix.toNat + 1 < _
      omega

/-- Issuing a read keeps the look-ahead in order. -/
theorem issue_prepOk {s : State} (go : Bool) (hp : s.PositionOk) (hk : s.PrepOk) (hc : s.cst = .setup ∨ s.cst = .xmit)
    (hf : s.busyFault = none) : (s.issue go).PrepOk := by
  by_cases h : s.prep = .pending
  swap
  · rw [s.issue_of_ne go h]; exact hk
  unfold State.issue
  split_ifs
  swap
  · exact hk
  have hlt := prepPos_lt hp hk hc h
  have hbf := (State.busyFault_none.1 hf).2.1
  obtain ⟨p, e⟩ := s.startPrep_frame
  have key : (∀ a, p = .reading a → s.op = .showFrame ∧ inBuffer s.cfg s.base s.nleds a = true) ∧ p ≠ .pending := by
    have e2 : s.startPrep.prep = p := by rw [e]
    rw [← e2]
    unfold State.startPrep
    dsimp only
    split
    · next ho => exact ⟨fun a ha => ⟨ho, by cases ha; exact pixAddr_inBuffer s _ _ (hbf ho) hlt⟩, by simp⟩
    · simp
    · simp
    · simp
  rw [e]
  refine ⟨fun h1 h2 => ?_, fun h1 => absurd h1 key.2, fun h1 => absurd h1 key.2, key.1, fun h1 h2 _ => ?_⟩
  swap
  · have h3 := hk.2.2.1 h h1
    change s.hasNext = false at h2
    rw [h2] at h3; cases h3
  rcases hc with hc | hc
  · exact absurd hc h1
  · exact absurd hc h2

/-- A cycle of the look-ahead opens no window and issues no request. -/
theorem prepCycle_prep {s : State} {q : PortIn} :
    ((s.prepCycle q).prep = .pending → s.prep = .pending) ∧ (∀ a, (s.prepCycle q).prep = .reading a → s.prep = .reading a) ∧
    (s.prep ≠ .none → (s.prepCycle q).prep ≠ .none) ∧ (s.prep = .none → (s.prepCycle q).prep = .none) := by
  have ht : ∀ (s : State) (raw : Byte), (s.takeRaw raw).prep = .ready ∨ ∃ b l, (s.takeRaw raw).prep = .computing b l := by
    intro s raw
    unfold State.takeRaw
    split_ifs
    · left; obtain ⟨_, _, _, h⟩ := s.finishByte_frame raw; rw [h]
    · right; exact ⟨_, _, rfl⟩
  unfold State.prepCycle
  split
  · next h => simp [h]
  · next h => simp [h]
  · next a h =>
    split_ifs
    · rcases ht ((s.usePick a q.hostStore).emit (.read a)) (s.fetched a q.hostStore) with h | ⟨_, _, h⟩ <;> rw [h] <;> simp_all
    · simp [h]
  · next raw left h =>
    split_ifs
    · obtain ⟨_, _, _, h'⟩ := s.finishByte_frame raw; rw [h']; simp [h]
    · simp [h]
  · next h => simp [h]

/-- A cycle of the look-ahead keeps it in order. -/
theorem prepCycle_prepOk {s : State} (q : PortIn) (hk : s.PrepOk) : (s.prepCycle q).PrepOk := by
  have hp := @prepCycle_prep s q
  obtain ⟨d, c, n, p, x, e, h⟩ := s.prepCycle_frame q
  rw [h] at hp ⊢
  exact ⟨fun h1 h2 => hp.2.2.2 (hk.1 h1 h2), fun h1 => hk.2.1 (hp.1 h1), fun h1 => hk.2.2.1 (hp.1 h1),
    fun a ha => hk.2.2.2.1 a (hp.2.1 a ha), fun h1 h2 h3 => hp.2.2.2 (hk.2.2.2.2 h1 h2 h3)⟩

/-! ## The dither registers -/

/-- The registers of a seeded frame: what `DitherOk` says of one. -/
def State.DitherNow (s : State) : Prop :=
  s.sreg = frameScale s.op s.scale ∧ s.ereg = maskAll s.sreg ∧
    ∀ c : Fin 3, s.dreg.get c &&& s.ereg.get c = s.dreg.get c

@[simp] theorem Triple.get_set (t : Triple) (c c' : Fin 3) (v : Byte) : (t.set c v).get c' = if c' = c then v else t.get c' := by
  fin_cases c <;> fin_cases c' <;> rfl

/-- `correct` keeps every `D` within its mask (41_dither_scale.md R131). -/
theorem finishByte_dither {s : State} (raw : Byte) (h : s.DitherNow) : (s.finishByte raw).DitherNow := by
  have key : ∀ c, (correct s.sreg s.ereg s.dreg s.prepChan raw).2.get c &&& s.ereg.get c =
      (correct s.sreg s.ereg s.dreg s.prepChan raw).2.get c := by
    intro c
    simp only [correct, Triple.get_set]
    split_ifs with hc
    · subst hc; unfold advance; rw [BitVec.and_assoc, BitVec.and_self]
    · exact h.2.2 c
  unfold State.finishByte
  dsimp only
  split_ifs <;> exact ⟨h.1, h.2.1, key⟩

theorem takeRaw_dither {s : State} (raw : Byte) (h : s.DitherNow) : (s.takeRaw raw).DitherNow := by
  unfold State.takeRaw
  split_ifs
  · exact finishByte_dither raw h
  · exact h

theorem prepCycle_dither {s : State} (q : PortIn) (h : s.DitherNow) : (s.prepCycle q).DitherNow := by
  unfold State.prepCycle
  split
  · exact h
  · exact h
  · next a _ =>
    split_ifs
    · obtain ⟨x, e⟩ := s.usePick_frame a q.hostStore
      refine takeRaw_dither _ ?_
      rw [e]; exact h
    · exact h
  · split_ifs
    · exact finishByte_dither _ h
    · exact h
  · exact h

/-- The noted races of a busy block: what `RaceOk` says of one. -/
def State.RaceNow (s : State) : Prop := ∀ c ∈ s.superseded, s.op = .showFrame ∧ inBuffer s.cfg s.base s.nleds c.1 = true

/-! ## The pin -/

theorem waveLevel_zero (cfg : Config) (x : Bool) : waveLevel cfg x 0 = true := by
  unfold waveLevel; rw [if_pos cfg.t1_pos]

/-- At a bit boundary the pin goes high (42_bit_engine.md R146). -/
theorem boundary_pin {s : State} (hc : s.cst = .xmit) (hw : s.wrap = true)
    (hn : s.cnt.toNat = total s.cfg) : s.microOps.PinOk := by
  unfold State.microOps waitbDone
  rw [if_pos hw]
  refine ⟨fun _ => ?_, fun h => absurd hc h⟩
  show true = waveLevel s.cfg _ (cOff s.cfg s.cnt)
  rw [show cOff s.cfg s.cnt = 0 by unfold cOff; omega, waveLevel_zero]

/-- Inside a bit the pin moves at the marks only (42_bit_engine.md R146, R147). -/
theorem inner_pin {s : State} (hc : s.cst = .xmit) (hw : s.wrap = false) (h1 : 1 ≤ s.cnt.toNat) (h2 : s.cnt.toNat < total s.cfg)
    (hp : s.pinOut = waveLevel s.cfg (currentBit s) (cOff s.cfg s.cnt - 1)) : s.microOps.PinOk := by
  have ht1 := s.cfg.t1_pos
  have ht2 := s.cfg.t2_pos
  have ht3 := s.cfg.t3_pos
  unfold State.microOps waitbDone
  rw [if_neg (by simp [hw])]
  split_ifs with a b
  · refine ⟨fun _ => ?_, fun h => absurd hc h⟩
    have a' : s.cnt.toNat = t1Mark s.cfg := by simpa [waitmDone] using a
    show currentBit s = waveLevel s.cfg (currentBit s) (cOff s.cfg s.cnt)
    have : cOff s.cfg s.cnt = s.cfg.t1 := by unfold cOff; rw [a']; unfold t1Mark total; omega
    rw [this]; unfold waveLevel; rw [if_neg (by omega), if_pos (by omega)]
  · refine ⟨fun _ => ?_, fun h => absurd hc h⟩
    have b' : s.cnt.toNat = t2Mark s.cfg := by simpa [waitmDone] using b
    show false = waveLevel s.cfg (currentBit s) (cOff s.cfg s.cnt)
    have : cOff s.cfg s.cnt = s.cfg.t1 + s.cfg.t2 := by unfold cOff; rw [b']; unfold t2Mark t1Mark total; omega
    rw [this]; unfold waveLevel; rw [if_neg (by omega), if_neg (by omega)]
  · refine ⟨fun _ => ?_, fun h => absurd hc h⟩
    have a' : s.cnt.toNat ≠ t1Mark s.cfg := by simpa [waitmDone] using a
    have b' : s.cnt.toNat ≠ t2Mark s.cfg := by simpa [waitmDone] using b
    rw [hp]
    unfold t2Mark t1Mark total at b'; unfold t1Mark total at a'
    unfold waveLevel cOff
    unfold total at h2 ⊢
    split_ifs <;> first | rfl | omega

/-! ## The phases -/

/-- WAITIDLE (43_controller_commands.md R172). -/
theorem waitIdle_inv {s : State} (p : PortIn) (h : s.Inv) (hc : s.cst = .waitIdle) (hf : s.busyFault = none) :
    (s.waitIdleCycle p).Inv := by
  unfold State.waitIdleCycle
  split_ifs
  swap
  · exact h
  unfold State.enterSetup
  generalize hs1 : ((({ s with setupLeft := s.cfg.setupLat, late := false, prep := if s.nleds = 0 then .none else .pending } : State).goto .setup).emit .irqOff) = s1
  have hk : s1.PrepOk := by
    subst hs1
    refine ⟨fun a => absurd rfl a, fun a _ => ?_, fun _ a => (by cases a), fun a ha => ?_, fun a => (by cases a)⟩
    · change (if s.nleds = 0 then Prep.none else .pending) = .pending at a
      split_ifs at a with h0
      have : s.nleds.toNat ≠ 0 := fun e => h0 (BitVec.eq_of_toNat_eq e)
      show 0 < s.nleds.toNat
      omega
    · change (if s.nleds = 0 then Prep.none else .pending) = .reading a at ha
      split_ifs at ha
  have hp : s1.PositionOk := by
    subst hs1; exact ⟨fun a => (by cases a), fun _ a => absurd a (lt_irrefl _)⟩
  have hf1 : s1.busyFault = none := by subst hs1; exact hf
  have hc1 : s1.cst = .setup := by subst hs1; rfl
  have hk' := issue_prepOk p.go hp hk (.inl hc1) hf1
  obtain ⟨pr, e⟩ := s1.issue_frame p.go
  rw [e] at hk' ⊢
  subst hs1
  exact ⟨h.mem, fun _ => hf, h.clock, fun _ => ⟨s.cfg.setupLat_pos, le_refl _⟩, fun a => (by cases a), hp,
    ⟨fun a => (by cases a), fun _ => h.pin.2 (by rw [hc]; simp)⟩,
    fun a => (by rcases a with a | a | a | ⟨_, a⟩ <;> first | (cases a) | exact absurd a (lt_irrefl _)), hk',
    fun _ => h.race (by rw [hc]; simp), fun a => (by cases a)⟩

/-- The step into ADJUST (43_controller_commands.md R175, R177). -/
theorem enterAdjust_inv {s : State} (hm : s.MemOk) (hf : s.busyFault = none) (hcl : s.ClockOk) (hd : s.DitherNow)
    (hrc : s.RaceNow) (hpin : s.pinOut = false) : s.enterAdjust.Inv := by
  refine ⟨hm, fun _ => hf, hcl, fun a => (by cases a), fun a => (by cases a), ⟨fun a => (by cases a), fun a => (by cases a)⟩,
      ⟨fun a => (by cases a), fun _ => hpin⟩,
    fun _ => hd, ⟨fun _ _ => rfl, fun a => (by cases a), fun a => (by cases a), fun _ a => (by cases a), fun a => (by cases a)⟩,
    fun _ => hrc, fun _ => ?_⟩
  have ht : tickMs s.cfg s.nleds.toNat < 2 ^ 32 := of_decide_eq_true (State.busyFault_none.1 hf).2.2
  show (BitVec.ofNat 32 (tickMs s.cfg s.nleds.toNat)).toNat = _
  rw [BitVec.toNat_ofNat, Nat.mod_eq_of_lt ht]
  rfl

/-- The start of a cycle of XMIT: all of the invariant holds, the pin having the level of the cycle before. -/
theorem begin_inv {s : State} (go : Bool) (hc : s.cst = .xmit) (hm : s.MemOk) (hf : s.busyFault = none) (hcl : s.ClockOk)
    (hcn : s.CounterOk)
    (hp : s.PositionOk) (hk : s.PrepOk) (hd : s.DitherNow) (hrc : s.RaceNow)
    (hin : s.wrap = false → s.pinOut = waveLevel s.cfg (currentBit s) (cOff s.cfg s.cnt - 1)) : (s.beginXmitCycle go).Inv := by
  unfold State.beginXmitCycle
  rw [if_pos hc]
  have hk' := issue_prepOk go hp hk (.inr hc) hf
  obtain ⟨pr, e⟩ := s.issue_frame go
  rw [e] at hk' ⊢
  have h3 := hcn hc
  have hpin : ({ s with prep := pr } : State).microOps.PinOk := by
    rcases Bool.eq_false_or_eq_true s.wrap with hw | hw
    · exact boundary_pin (s := { s with prep := pr }) hc hw (h3.2.2.1 hw)
    · refine inner_pin (s := { s with prep := pr }) hc hw h3.1 ?_ (hin hw)
      have : s.cnt.toNat ≠ total s.cfg := fun h => by simp [h3.2.2.2 h] at hw
      show s.cnt.toNat < total s.cfg
      omega
  obtain ⟨b, ev, e2⟩ := State.microOps_frame { s with prep := pr }
  rw [e2] at hpin ⊢
  refine ⟨hm, fun _ => hf, hcl, fun a => ?_, hcn, hp, hpin, fun _ => hd, hk', fun _ => hrc, fun a => ?_⟩
  · change s.cst = _ at a; rw [hc] at a; cases a
  · change s.cst = _ at a; rw [hc] at a; cases a

/-- Opening the next byte's window keeps the look-ahead in order; a byte still under way means there is one to come, or a missed
deadline. -/
theorem openWindow_prepOk {s : State} (hc : s.cst = .xmit)
    (hk : ∀ a, s.prep = .reading a → s.op = .showFrame ∧ inBuffer s.cfg s.base s.nleds a = true)
    (hl : s.late = false → s.prep = .ready ∨ s.hasNext = true) : s.openWindow.PrepOk := by
  have base : ({ s with prep := if s.hasNext then .pending else .none } : State).PrepOk := by
    refine ⟨fun _ a => absurd hc a, fun _ a => (by rw [hc] at a; cases a), fun a _ => ?_, fun a ha => ?_, fun _ hn _ => ?_⟩
    · change (if s.hasNext then Prep.pending else .none) = .pending at a
      split_ifs at a with h; exact h
    · change (if s.hasNext then Prep.pending else .none) = .reading a at ha
      split_ifs at ha
    · change s.hasNext = false at hn
      show (if s.hasNext then Prep.pending else .none) = .none
      rw [hn]; rfl
  have held : s.prep ≠ .pending → s.prep ≠ .ready → s.PrepOk := fun hp hr =>
    ⟨fun _ a => absurd hc a, fun a => absurd a hp, fun a => absurd a hp, hk, fun _ hn hlate => by
      rcases hl hlate with h | h
      · exact absurd h hr
      · rw [hn] at h; cases h⟩
  unfold State.openWindow
  split
  · next a h => exact held (by rw [h]; simp) (by rw [h]; simp)
  · next a _ h => exact held (by rw [h]; simp) (by rw [h]; simp)
  · exact base
  · exact base
  · exact base

/-- The end of SETUP (43_controller_commands.md R173). -/
theorem leaveSetup_inv {s : State} (go : Bool) (hm : s.MemOk) (hf : s.busyFault = none) (hcl : s.ClockOk)
    (hz : s.pix = 0 ∧ s.slot = 0 ∧ s.biti = 7) (hk : s.PrepOk) (hd : s.DitherNow)
    (hrc : s.RaceNow) (hpin : s.pinOut = false) : (s.leaveSetup go).Inv := by
  unfold State.leaveSetup
  split_ifs with h0
  · exact enterAdjust_inv hm hf hcl hd hrc hpin
  obtain ⟨c, l, x, e1⟩ := s.firstByte_frame
  have hk' : s.firstByte.enterXmit.PrepOk := by
    unfold State.enterXmit
    refine openWindow_prepOk rfl ?_ (fun _ => .inr ?_)
    · rw [e1]; exact hk.2.2.2.1
    · rw [e1]; simp [State.hasNext, State.goto, hz.2.1]
  obtain ⟨p, e2⟩ := s.firstByte.enterXmit_frame
  rw [e1] at e2
  rw [e1] at hk' ⊢
  rw [e2] at hk' ⊢
  have hn : 0 < s.nleds.toNat := by
    have : s.nleds.toNat ≠ 0 := fun e => h0 (BitVec.eq_of_toNat_eq e)
    omega
  refine begin_inv go rfl hm hf hcl (fun _ => ?_) ⟨fun _ => ?_, fun a => (by cases a)⟩ hk' hd hrc (fun a => (by cases a))
  · refine ⟨?_, ?_, ?_⟩
    · show 1 ≤ (BitVec.ofNat 24 (total s.cfg)).toNat; rw [ofNat_total]; exact total_pos _
    · show (BitVec.ofNat 24 (total s.cfg)).toNat ≤ _; rw [ofNat_total]
    · exact ⟨fun _ => ofNat_total _, fun _ => rfl⟩
  · show s.pix.toNat < s.nleds.toNat
    rw [hz.1]; exact hn

/-- SETUP (43_controller_commands.md R173). -/
theorem setup_inv {s : State} (p : PortIn) (h : s.Inv) (hc : s.cst = .setup) (hf : s.busyFault = none) :
    (s.setupCycle p).Inv := by
  have hsl := h.setup hc
  -- after seedFirst
  obtain ⟨hd0, hz0, hk0, hpin0, hc0, hl0, hcfg0⟩ : s.seedFirst.DitherNow ∧
      (s.seedFirst.pix = 0 ∧ s.seedFirst.slot = 0 ∧ s.seedFirst.biti = 7) ∧
      s.seedFirst.PrepOk ∧ s.seedFirst.pinOut = false ∧ s.seedFirst.cst = .setup ∧ s.seedFirst.setupLeft = s.setupLeft ∧ s.seedFirst.lastmark = s.lastmark := by
    unfold State.seedFirst
    split_ifs with hl
    · refine ⟨⟨rfl, rfl, fun c => ?_⟩, ⟨rfl, rfl, rfl⟩, ⟨fun a => absurd hc a, h.prep.2.1, fun _ a => ?_, h.prep.2.2.2.1, fun a => ?_⟩,
        h.pin.2 (by rw [hc]; simp), hc, rfl, rfl⟩
      · show (seedAll s.dstore _).get c &&& (maskAll _).get c = (seedAll s.dstore _).get c
        fin_cases c <;> simp [seedAll, seedByte, Triple.get, maskAll, BitVec.and_assoc]
      · change s.cst = _ at a; rw [hc] at a; exact nomatch a
      · change s.cst = _ at a; rw [hc] at a; exact nomatch a
    · have hlt : s.setupLeft < s.cfg.setupLat := by omega
      exact ⟨h.dither (.inr (.inr (.inr ⟨hc, hlt⟩))), h.position.2 hc hlt, h.prep, h.pin.2 (by rw [hc]; simp), hc, rfl, rfl⟩
  have hK0 := s.seedFirst_keeps
  unfold State.setupCycle
  generalize s.seedFirst = s0 at *
  have hd1 := prepCycle_dither p hd0
  have hk1 := prepCycle_prepOk p hk0
  have hK1 := hK0.trans (s0.prepCycle_keeps p)
  obtain ⟨d, c, n, pr, x, ev, e⟩ := s0.prepCycle_frame p
  have hf1 : (s0.prepCycle p).busyFault = none := by
    rw [State.busyFault_none] at hf ⊢
    rw [hK1.op, hK1.cfg, hK1.base, hK1.nleds]; exact hf
  have hrc1 : (s0.prepCycle p).RaceNow := by
    unfold State.RaceNow
    rw [hK1.superseded, hK1.op, hK1.cfg, hK1.base, hK1.nleds]; exact h.race (by rw [hc]; simp)
  have hm1 : (s0.prepCycle p).MemOk := by unfold State.MemOk; rw [hK1.mem]; exact h.mem
  have hcl1 : (s0.prepCycle p).ClockOk := by
    unfold State.ClockOk; rw [hK1.now]; rw [e]; show s0.lastmark ≤ _; rw [hcfg0]; exact h.clock
  have hc1 : (s0.prepCycle p).cst = .setup := by rw [e]; exact hc0
  have hz1 : (s0.prepCycle p).pix = 0 ∧ (s0.prepCycle p).slot = 0 ∧
      (s0.prepCycle p).biti = 7 := by rw [e]; exact hz0
  have hpin1 : (s0.prepCycle p).pinOut = false := by rw [e]; exact hpin0
  have hl1 : (s0.prepCycle p).setupLeft = s.setupLeft := by rw [e]; exact hl0
  have hcfg1 := hK1.cfg
  generalize s0.prepCycle p = s1 at *
  unfold State.endSetupCycle
  split_ifs with hle
  · exact leaveSetup_inv p.go hm1 hf1 hcl1 hz1 hk1 hd1 hrc1 hpin1
  · have hp2 : ({ s1 with setupLeft := s1.setupLeft - 1 } : State).PositionOk := ⟨fun a =>
      (by change s1.cst = _ at a; rw [hc1] at a; cases a), fun _ _ => hz1⟩
    have hk2 := issue_prepOk (s := { s1 with setupLeft := s1.setupLeft - 1 }) p.go hp2 hk1 (.inl hc1) hf1
    obtain ⟨pr, e2⟩ := State.issue_frame { s1 with setupLeft := s1.setupLeft - 1 } p.go
    rw [e2] at hk2 ⊢
    refine ⟨hm1, fun _ => hf1, hcl1, fun _ => ?_, fun a => (by change s1.cst = _ at a; rw [hc1] at a; cases a), hp2, ⟨fun a =>
        (by change s1.cst = _ at a; rw [hc1] at a; cases a), fun _ => hpin1⟩,
      fun _ => hd1, hk2, fun _ => hrc1, fun a => (by change s1.cst = _ at a; rw [hc1] at a; cases a)⟩
    show 1 ≤ s1.setupLeft - 1 ∧ s1.setupLeft - 1 ≤ s1.cfg.setupLat
    rw [hcfg1]; omega

/-- One cycle of the counter (40_timing_primitives.md R100). -/
theorem countStep_spec (cfg : Config) (c : BitVec 24) (w : Bool) :
    (1 < c.toNat → (countStep cfg (c, w)).1.toNat = c.toNat - 1 ∧ (countStep cfg (c, w)).2 = false) ∧
    (¬ 1 < c.toNat → (countStep cfg (c, w)).1.toNat = total cfg ∧ (countStep cfg (c, w)).2 = true) := by
  unfold countStep
  constructor
  · intro h
    rw [if_pos h]
    refine ⟨?_, rfl⟩
    show (c - 1).toNat = _
    have := c.isLt
    bv_omega
  · intro h
    rw [if_neg h]
    exact ⟨ofNat_total cfg, rfl⟩

/-- The counter stays in `TOTAL..1`. -/
theorem count_counterOk {s : State} (hle : s.cnt.toNat ≤ total s.cfg) : s.count.CounterOk := by
  intro _
  have h := countStep_spec s.cfg s.cnt s.wrap
  have htp : 3 ≤ total s.cfg := by have := s.cfg.t1_pos; have := s.cfg.t2_pos; have := s.cfg.t3_pos; unfold total; omega
  show 1 ≤ (countStep s.cfg (s.cnt, s.wrap)).1.toNat ∧ (countStep s.cfg (s.cnt, s.wrap)).1.toNat ≤ total s.cfg ∧
    ((countStep s.cfg (s.cnt, s.wrap)).2 = true ↔ (countStep s.cfg (s.cnt, s.wrap)).1.toNat = total s.cfg)
  by_cases h1 : 1 < s.cnt.toNat
  · obtain ⟨a, b⟩ := h.1 h1
    rw [a, b]
    exact ⟨by omega, by omega, fun h => (by cases h), fun h => (by omega)⟩
  · obtain ⟨a, b⟩ := h.2 h1
    rw [a, b]
    exact ⟨by omega, le_refl _, fun _ => rfl, fun _ => rfl⟩

theorem finishByte_curb {s : State} (raw : Byte) (hc : s.cst = .xmit) : (s.finishByte raw).curb = s.curb := by
  unfold State.finishByte; simp [hc]

/-- In XMIT the look-ahead leaves the byte on the wire alone (10_state.md R24). -/
theorem prepCycle_curb {s : State} (q : PortIn) (hc : s.cst = .xmit) : (s.prepCycle q).curb = s.curb := by
  have ht : ∀ (t : State) (raw : Byte), t.cst = .xmit → (t.takeRaw raw).curb = t.curb := by
    intro t raw ht
    unfold State.takeRaw
    split_ifs
    · exact finishByte_curb raw ht
    · rfl
  unfold State.prepCycle
  split
  · rfl
  · rfl
  · next a _ =>
    split_ifs
    · obtain ⟨x, e⟩ := s.usePick_frame a q.hostStore
      rw [ht _ _ (by rw [e]; exact hc), e]; rfl
    · rfl
  · split_ifs
    · exact finishByte_curb _ hc
    · rfl
  · rfl

/-- XMIT (42_bit_engine.md R156). -/
theorem xmit_inv {s : State} (p : PortIn) (h : s.Inv) (hc : s.cst = .xmit) (hf : s.busyFault = none) : (s.xmitCycle p).Inv := by
  have hd0 : s.DitherNow := h.dither (.inl hc)
  have hcn0 := h.counter hc
  have hpin0 := h.pin.1 hc
  have hpos0 := h.position.1 hc
  have hd1 := prepCycle_dither p hd0
  have hk1 := prepCycle_prepOk p h.prep
  have hr : s.prep = .ready → (s.prepCycle p).prep = .ready := by
    intro e; unfold State.prepCycle; simp [e]
  unfold State.xmitCycle
  obtain ⟨d, c, n, pr, x, ev, e⟩ := s.prepCycle_frame p
  have hcurb : c = s.curb := by
    have e' := prepCycle_curb p hc
    rw [e] at e'; exact e'
  subst hcurb
  have hr' : (s.prep == .ready) = true → pr = .ready := by
    intro h1
    have h2 := hr (by simpa using h1)
    rw [e] at h2; exact h2
  generalize (s.prep == .ready) = r at hr' ⊢
  rw [e] at hd1 hk1 ⊢
  clear e hr
  generalize hs1 : ({ s with dreg := d, curb := s.curb, nextb := n, prep := pr, freeIx := x, trace := ev } : State) = s1 at *
  have r1 : r = true → s1.prep = .ready := by subst hs1; exact hr'
  have rc1 : s1.RaceNow := by subst hs1; exact h.race (by rw [hc]; simp)
  have c1 : s1.cst = .xmit := by subst hs1; exact hc
  have m1 : s1.MemOk := by subst hs1; exact h.mem
  have f1 : s1.busyFault = none := by subst hs1; exact hf
  have l1 : s1.ClockOk := by subst hs1; exact h.clock
  have n1 : 1 ≤ s1.cnt.toNat ∧ s1.cnt.toNat ≤ total s1.cfg := by subst hs1; exact ⟨hcn0.1, hcn0.2.1⟩
  have p1 : s1.pix.toNat < s1.nleds.toNat := by subst hs1; exact hpos0
  have w1 : s1.pinOut = waveLevel s1.cfg (currentBit s1) (cOff s1.cfg s1.cnt) := by subst hs1; exact hpin0
  clear hs1 hpin0 hcn0 hpos0 hf h hc hd0 hr'
  unfold State.xmitNext
  have hlast : s1.lastOfBit = true → s1.pinOut = false := by
    intro hl
    have : s1.cnt.toNat = 1 := by
      have : s1.cnt.toNat ≤ 1 := of_decide_eq_true hl
      omega
    rw [w1, show cOff s1.cfg s1.cnt = total s1.cfg - 1 by unfold cOff; rw [this]]
    have := s1.cfg.t3_pos
    unfold waveLevel total
    rw [if_neg (by omega), if_neg (by omega)]
  have cs := countStep_spec s1.cfg s1.cnt s1.wrap
  split_ifs with h1 h2 h3
  · -- inside a bit
    have h1' : 1 < s1.cnt.toNat := by
      simp only [State.lastOfBit, Bool.not_eq_true', decide_eq_false_iff_not] at h1; omega
    refine begin_inv p.go c1 m1 f1 l1 (count_counterOk n1.2) ⟨fun _ => p1, fun a => ?_⟩ hk1 hd1 rc1 (fun _ => ?_)
    · change s1.cst = _ at a; rw [c1] at a; cases a
    · show s1.pinOut = waveLevel s1.cfg (currentBit s1) (cOff s1.cfg (countStep s1.cfg (s1.cnt, s1.wrap)).1 - 1)
      rw [w1]; congr 1
      unfold cOff
      rw [(cs.1 h1').1]
      omega
  · -- next bit
    have h1' : ¬ 1 < s1.cnt.toNat := by
      simp only [State.lastOfBit, Bool.not_eq_true', decide_eq_false_iff_not, not_not] at h1; omega
    refine begin_inv p.go c1 m1 f1 l1 (count_counterOk (s := s1.nextBit) n1.2) ⟨fun _ => p1, fun a => ?_⟩ hk1 hd1 rc1 (fun a => ?_)
    · change s1.cst = _ at a; rw [c1] at a; cases a
    · change (countStep s1.cfg (s1.cnt, s1.wrap)).2 = false at a
      rw [(cs.2 h1').2] at a; cases a
  · -- next byte
    have h1' : ¬ 1 < s1.cnt.toNat := by
      simp only [State.lastOfBit, Bool.not_eq_true', decide_eq_false_iff_not, not_not] at h1; omega
    have hp2 : s1.nextIndex.pix.toNat < s1.nleds.toNat := by
      unfold State.nextIndex
      split_ifs with hs
      · exact p1
      · simp only [State.hasNext, Bool.or_eq_true, decide_eq_true_eq, hs, false_or] at h3
        show (s1.pix + 1).toNat < _
        have := s1.nleds.isLt
        bv_omega
    obtain ⟨pi, sl, e2⟩ := s1.nextIndex_frame
    have hl : (s1.nextIndex.loadNext r).late = false → (s1.nextIndex.loadNext r).prep = .ready := by
      unfold State.loadNext
      split_ifs with hy
      · intro _
        rw [Bool.and_eq_true] at hy
        show s1.nextIndex.prep = _
        rw [e2]; exact r1 hy.1
      · intro a; cases a
    obtain ⟨c, l, x, e3⟩ := s1.nextIndex.loadNext_frame r
    have ho := openWindow_prepOk (s := s1.nextIndex.loadNext r) (by rw [e3, e2]; exact c1) (by rw [e3, e2]; exact hk1.2.2.2.1)
      (fun h => .inl (hl h))
    obtain ⟨pr, e4⟩ := (s1.nextIndex.loadNext r).openWindow_frame
    rw [e4, e3, e2] at ho ⊢
    rw [e2] at hp2
    refine begin_inv p.go c1 m1 f1 l1 (count_counterOk n1.2) ⟨fun _ => hp2, fun a => ?_⟩ ho hd1 rc1 (fun a => ?_)
    · change s1.cst = _ at a; rw [c1] at a; cases a
    · change (countStep s1.cfg (s1.cnt, s1.wrap)).2 = false at a
      rw [(cs.2 h1').2] at a; cases a
  · -- end of the frame
    have h1' : ¬ 1 < s1.cnt.toNat := by
      simp only [State.lastOfBit, Bool.not_eq_true', decide_eq_false_iff_not, not_not] at h1; omega
    have hl : s1.pinOut = false := hlast (by simpa using h1)
    unfold State.endFrame
    split_ifs with hq
    · refine begin_inv p.go c1 m1 f1 l1 (count_counterOk n1.2) ⟨fun _ => p1, fun a => ?_⟩ ⟨hk1.1, hk1.2.1, hk1.2.2.1, hk1.2.2.2.1, fun _ _ a => ?_⟩ hd1 rc1 (fun a => ?_)
      · change s1.cst = _ at a; rw [c1] at a; cases a
      · change s1.late = false at a
        rw [Bool.and_eq_true, a] at hq; cases hq.1
      · change (countStep s1.cfg (s1.cnt, s1.wrap)).2 = false at a
        rw [(cs.2 h1').2] at a; cases a
    · unfold State.beginXmitCycle
      rw [if_neg (by intro a; cases a)]
      exact enterAdjust_inv m1 f1 l1 hd1 rc1 hl

end Sys2Proof.Machine
end

