-- ==== Sys2Proof/Laws/PerInstr.lean ====
section
/-! SUPPORT. What is said of every command, one lemma a constructor. Family `Canonical`: the encoding of a command is a canonical
word of its own row of the opcode table (spec/30_encoding.md R82, R85). -/

namespace Sys2Proof.Laws

/-- The fields of a word under a mask, field by field. -/
theorem assemble_and (arg a : BitVec 32) (sc s : Triple) (r1 r2 : BitVec 8) (n m : BitVec 16) (r0 : BitVec 6) (op : Opcode) (o : BitVec 2) :
    assemble arg sc n op &&& (a ++ r2 ++ packTriple s ++ r1 ++ m ++ r0 ++ o : BitVec 96) =
      (arg &&& a) ++ (0 : BitVec 8) ++ (packTriple sc &&& packTriple s) ++ (0 : BitVec 8) ++ (n &&& m) ++ (0 : BitVec 6) ++
        (opcodeBits op &&& o) := by
  unfold assemble
  refine BitVec.and_append.trans (congrArg₂ _ (BitVec.and_append.trans (congrArg₂ _ (BitVec.and_append.trans (congrArg₂ _
    (BitVec.and_append.trans (congrArg₂ _ (BitVec.and_append.trans (congrArg₂ _ (BitVec.and_append.trans (congrArg₂ _ rfl ?_))
    rfl)) ?_)) rfl)) ?_)) rfl) <;> exact BitVec.zero_and

/-- The opcode bits of an assembled word are those of its opcode. -/
theorem assemble_op (arg : BitVec 32) (sc : Triple) (n : BitVec 16) (op : Opcode) :
    assemble arg sc n op &&& 0x3 = BitVec.zeroExtend 96 (opcodeBits op) := by
  have h := assemble_and arg 0 sc .zero 0 0 n 0 0 op 3
  rw [show ((0 : BitVec 32) ++ (0 : BitVec 8) ++ packTriple .zero ++ (0 : BitVec 8) ++ (0 : BitVec 16) ++ (0 : BitVec 6) ++ (3 : BitVec 2)
    : BitVec 96) = 0x3 by decide] at h
  rw [h, show packTriple .zero = 0 by decide]
  simp only [BitVec.ofNat_eq_ofNat, BitVec.and_zero]
  cases op <;> decide

/-- The row of an assembled word is its opcode's. -/
theorem assemble_row (arg : BitVec 32) (sc : Triple) (n : BitVec 16) (op : Opcode) :
    rowOf (assemble arg sc n op) opcodeTable = opcodeTable.find? (fun r => r.op == op) := by
  have h := assemble_op arg sc n op
  unfold opcodeTable
  simp only [rowOf, h]
  cases op <;> rfl

/-- A word is canonical if it has the canonical code of its row. -/
theorem canonical_of_row {w : CmdWord} {r : OpcodeRow} (h : rowOf w opcodeTable = some r)
    (hc : w &&& r.canonicalMask = r.canonicalCode) : canonical w = true := by
  simp [canonical, h, hc]

/-- The bits of a word that a command without unused fields leaves 0: the reserved ones. -/
theorem assemble_reserved (arg : BitVec 32) (sc : Triple) (n : BitVec 16) (op : Opcode) :
    assemble arg sc n op &&& 0x00000000FF000000FF0000FF = BitVec.zeroExtend 96 (opcodeBits op) := by
  have h := assemble_and arg 0 sc .zero 0xFF 0xFF n 0 0x3F op 3
  rw [show ((0 : BitVec 32) ++ (0xFF : BitVec 8) ++ packTriple .zero ++ (0xFF : BitVec 8) ++ (0 : BitVec 16) ++ (0x3F : BitVec 6) ++
    (3 : BitVec 2) : BitVec 96) = 0x00000000FF000000FF0000FF by decide] at h
  rw [h, show arg &&& 0 = 0 from BitVec.and_zero, show n &&& 0 = 0 from BitVec.and_zero,
    show packTriple sc &&& packTriple .zero = 0 from BitVec.and_zero]
  cases op <;> decide

namespace Canonical

/-- The command's word is canonical, and its row is the command's opcode's. -/
def Statement (i : Instr) : Prop :=
  canonical (encode i) = true ∧ rowOf (encode i) opcodeTable = opcodeTable.find? (fun r => r.op == i.opcode)

theorem init : Statement .init := ⟨by decide, by decide⟩

theorem showFrame (base : Addr) (n : BitVec 16) (sc : Triple) : Statement (.showFrame base n sc) :=
  ⟨canonical_of_row (assemble_row base sc n .showFrame) (assemble_reserved base sc n .showFrame),
    assemble_row base sc n .showFrame⟩

theorem showColor (color : Triple) (n : BitVec 16) (sc : Triple) : Statement (.showColor color n sc) := by
  refine ⟨canonical_of_row (assemble_row _ sc n .showColor) ?_, assemble_row _ sc n .showColor⟩
  have h := assemble_and ((0 : BitVec 8) ++ packTriple color) 0xFF000000 sc .zero 0xFF 0xFF n 0 0x3F .showColor 3
  rw [show ((0xFF000000 : BitVec 32) ++ (0xFF : BitVec 8) ++ packTriple .zero ++ (0xFF : BitVec 8) ++ (0 : BitVec 16) ++
    (0x3F : BitVec 6) ++ (3 : BitVec 2) : BitVec 96) = 0xFF000000FF000000FF0000FF by decide] at h
  have hc : ((0 : BitVec 8) ++ packTriple color : BitVec 32) &&& 0xFF000000 = 0 := by
    refine (BitVec.and_append (x₂ := (0xFF : BitVec 8)) (y₂ := (0 : BitVec 24))).trans ?_
    rw [show packTriple color &&& 0 = 0 from BitVec.and_zero]
    decide
  refine h.trans ?_
  rw [hc, show n &&& 0 = 0 from BitVec.and_zero, show packTriple sc &&& packTriple .zero = 0 from BitVec.and_zero]
  decide

theorem clear (n : BitVec 16) : Statement (.clear n) := by
  refine ⟨canonical_of_row (assemble_row _ _ n .clear) ?_, assemble_row _ _ n .clear⟩
  have h := assemble_and 0 0xFFFFFFFF .zero ⟨255, 255, 255⟩ 0xFF 0xFF n 0 0x3F .clear 3
  rw [show ((0xFFFFFFFF : BitVec 32) ++ (0xFF : BitVec 8) ++ packTriple ⟨255, 255, 255⟩ ++ (0xFF : BitVec 8) ++ (0 : BitVec 16) ++
    (0x3F : BitVec 6) ++ (3 : BitVec 2) : BitVec 96) = 0xFFFFFFFFFFFFFFFFFF0000FF by decide] at h
  refine h.trans ?_
  rw [show n &&& 0 = 0 from BitVec.and_zero]
  decide

end Canonical

end Sys2Proof.Laws
end

