-- ==== Sys2Proof/Tests/Slice0.lean ====
section
/-! SUPPORT. Tests on small states, and a witness for the hypotheses of every statement. Expected values come from
spec/95_test_vectors.md (V<n>, P<n>) or from the rule named. -/

namespace Sys2Proof.Tests

open Sys2Proof Sys2Proof.Machine

/-- What `f` reads of the next state; none where there is none. -/
def after {α : Type} (o : Host.Outcome State Fault Refusal) (f : State → α) : Option α :=
  match o with
  | .next t => some (f t)
  | .fault _ => none
  | .refused _ => none

/-- The refusal of an outcome. -/
def refusalOf : Host.Outcome State Fault Refusal → Option Refusal
  | .next _ => none
  | .fault _ => none
  | .refused r => some r

/-- The instance P4 with another bit period and divider. -/
def cfgWith (t1 clks : Nat) (h : t1 + 4 + 3 < 2 ^ 24) (h1 : 0 < t1) (h2 : 0 < clks) : Config :=
  { Config.reference with t1 := t1, clksPerUs := clks, t1_pos := h1, total_lt := h, clksPerUs_pos := h2 }

/-- P4's instance with two skip bytes and the order BGR (P5). -/
def cfgP5 : Config := { Config.reference with order := .bgr, skip := 2 }

/-- `TOTAL` = 16504378: with `n` = 10843 the tick value is 2^32 - 1, the last that fits. -/
def cfgSlow : Config := cfgWith 16504371 1 (by decide) (by decide) (by decide)

/-- `TOTAL` = 16025519: with `n` = 11167 the tick value is 2^32, the first that does not fit. -/
def cfgSlower : Config := cfgWith 16025512 1 (by decide) (by decide) (by decide)

/-- `TOTAL` = 105, `CLKS_PER_US` = 84 (V80). -/
def cfg84 : Config := cfgWith 98 84 (by decide) (by decide) (by decide)

/-- An idle machine that is offered a word. -/
def offered (w : Nat) : State := State.reset.withFetchWord 96 w

/-- A machine in a state of the controller, running a CLEAR of one pixel. -/
def busyIn (c : Cst) : State := { State.reset with cst := c, op := .clear, nleds := 1 }

/-- In XMIT at counter `k`, running a CLEAR of `n` pixels. -/
def inXmit (k : BitVec 24) (n : BitVec 16) : State :=
  { busyIn .xmit with cnt := k, nleds := n, wrap := k == 10, biti := 7, pinOut := decide (7 < k.toNat), ereg := ⟨255, 255, 255⟩ }

/-! ## WellFormed: the two checks -/

/-- R66: `BASE + SKIP + 3n` = 2^32 + 1 is refused, 2^32 is not. -/
theorem test_wellFormed_buffer :
    Instr.wellFormed Config.reference (.showFrame 0xFFFFFFFE 1 .zero) = false ∧
    Instr.wellFormed Config.reference (.showFrame 0xFFFFFFFD 1 .zero) = true := by decide

/-- R177: a tick value of 2^32 is refused, 2^32 - 1 is not. -/
theorem test_wellFormed_tick :
    Instr.wellFormed cfgSlower (.clear 11167) = false ∧ Instr.wellFormed cfgSlow (.clear 10843) = true := by decide

/-! ## Decode: the words of V1 to V9 -/

theorem test_decode_init : decodeTableWord 8 0b00 = some .init ∧ decodeTableWord 96 0 = some .init := by decide

theorem test_decode_show :
    decodeTableWord 96 0x000010000014014000000201 = some (.showFrame 0x1000 2 ⟨64, 1, 20⟩) ∧
    decodeTableWord 96 0x2000000000FFFFFF00000101 = some (.showFrame 0x20000000 1 ⟨255, 255, 255⟩) := by decide

theorem test_decode_showColor :
    decodeTableWord 96 0x001E140A00FF208000000302 = some (.showColor ⟨10, 20, 30⟩ 3 ⟨128, 32, 255⟩) ∧
    decodeTableWord 8 0b10 = some (.showColor .zero 0 .zero) := by decide

theorem test_decode_clear :
    decodeTableWord 96 0x000000000000000000005703 = some (.clear 87) ∧ decodeTableWord 8 0b11 = some (.clear 0) := by decide

/-- V9 and R85: the hardware would read CLEAR 0; the model refuses the word, and one with an unused field set, by name. -/
theorem test_decode_refuses :
    hwDecode 0xFF = .clear 0 ∧ decode 0xFF = .error .reservedBitSet ∧ decode 0x100000003 = .error .unusedFieldSet ∧
    decode 0x010000000000000000000002 = .error .unusedFieldSet ∧ decode 0x100000000000001 = .error .reservedBitSet := by decide

theorem test_encode :
    encode (.showFrame 0x1000 2 ⟨64, 1, 20⟩) = 0x000010000014014000000201 ∧
    encode (.showColor ⟨10, 20, 30⟩ 3 ⟨128, 32, 255⟩) = 0x001E140A00FF208000000302 ∧ encode (.clear 87) = 0x5703 ∧
    encode .init = 0 := by decide

/-! ## The commands -/

/-- R180. -/
theorem test_init :
    after (step { offered 0 with pinOut := true }) (fun t => (t.pinOe, t.pinOut, t.cst, t.now)) =
      some (true, false, .idle, 1) := by decide

/-- R171, R83 with the word V3. -/
theorem test_show_accept :
    after (step (offered 0x000010000014014000000201)) (fun t => (t.cst, t.op, t.nleds, t.base, t.scale, t.busy)) =
      some (.waitIdle, .showFrame, 2, 0x1000, ⟨64, 1, 20⟩, true) := by decide

/-- P5: the wire bytes, the reads and the Dither State of its SHOW. -/
theorem test_show_frame :
    let m : Memory := [(0x100, 0xAA), (0x101, 0xBB), (0x102, 1), (0x103, 2), (0x104, 3), (0x105, 4), (0x106, 5), (0x107, 6)]
    commandFrame cfgP5 m .zero (.showFrame 0x100 2 ⟨255, 255, 255⟩) =
      ([3, 2, 1, 6, 5, 4].flatMap (fun b : Byte => byteBits b), .zero) ∧
    commandReads cfgP5 (.showFrame 0x100 2 ⟨255, 255, 255⟩) = [0x104, 0x103, 0x102, 0x107, 0x106, 0x105] := by decide

/-- R171, R83 with the word V5. -/
theorem test_showColor_accept :
    after (step (offered 0x001E140A00FF208000000302)) (fun t => (t.cst, t.nleds, t.color, t.scale, t.base)) =
      some (.waitIdle, 3, ⟨10, 20, 30⟩, ⟨128, 32, 255⟩, 0) := by decide

/-- P6: the wire bytes and the Dither State of its SHOWCOLOR. -/
theorem test_showColor_frame :
    commandFrame cfgP5 [] .zero (.showColor ⟨10, 20, 30⟩ 3 ⟨128, 32, 255⟩) =
      ([30, 3, 5, 30, 3, 5, 30, 3, 5].flatMap (fun b : Byte => byteBits b), ⟨0, 1, 0⟩) := by decide

/-- R171, R83, with an old SCALE in the latch. -/
theorem test_clear_accept :
    after (step { offered 0x203 with scale := ⟨1, 2, 3⟩ }) (fun t => (t.cst, t.op, t.nleds, t.scale)) =
      some (.waitIdle, .clear, 2, .zero) := by decide

/-- P2: its two CLEARs: 48 zero bits, `DSTORE` (6,6,6) and then (12,12,12). -/
theorem test_clear_frame :
    commandFrame Config.reference [] .zero (.clear 2) = (List.replicate 48 false, ⟨6, 6, 6⟩) ∧
    commandFrame Config.reference [] ⟨6, 6, 6⟩ (.clear 2) = (List.replicate 48 false, ⟨12, 12, 12⟩) := by decide

/-- U4, U7, U9: the refusals by name. -/
theorem test_refusals :
    refusalOf (step (offered 0xFF)) = some (.nonCanonicalWord .reservedBitSet) ∧
    refusalOf (exec (.showFrame 0xFFFFFFFE 1 .zero) State.reset) = some .bufferPastTop ∧
    refusalOf (exec (.clear 11167) { State.reset with cfg := cfgSlower }) = some .tickTooLarge := by decide

/-! ## Dither and scale -/

/-- V20 to V28. -/
theorem test_mask :
    [0, 1, 2, 3, 4, 7, 8, 15, 16, 31, 32, 63, 64, 127, 128, 255].map mask =
      [0xFF, 0x7F, 0x3F, 0x3F, 0x1F, 0x1F, 0x0F, 0x0F, 0x07, 0x07, 0x03, 0x03, 0x01, 0x01, 0x00, 0x00] := by decide

/-- V35 to V41. -/
theorem test_ditherAdd :
    [(0, 0xFF), (1, 0xFF), (250, 9), (250, 5), (250, 4), (255, 0), (100, 0)].map (fun p : Byte × Byte => ditherAdd p.1 p.2) =
      [0, 255, 255, 255, 254, 255, 100] := by decide

/-- V42 to V54. -/
theorem test_scale :
    [(255, 255), (255, 128), (255, 1), (128, 128), (200, 100), (1, 127), (1, 128), (127, 1), (128, 1), (3, 85), (254, 254),
      (77, 0), (0, 200)].map (fun p : Byte × Byte => scaleByte p.1 p.2) =
      [255, 128, 1, 64, 78, 0, 1, 0, 1, 1, 253, 0, 0] := by decide

/-- V29d: the ramp at `E` = 7, and V34: it wraps at 256 under `E` = 0xFF. -/
theorem test_advance :
    (List.range 8).map (fun i => (fun d => advance d 7)^[i + 1] (0 : Byte)) = [3, 6, 1, 4, 7, 2, 5, 0] ∧
    advance 0xFE 0xFF = 1 := by decide

/-- V55: eight pixels of raw 95 at scale 20 (channel R, the other channels black at scale 255). -/
theorem test_correct_frame :
    (frameBytes .rgb ⟨20, 255, 255⟩ ⟨7, 0, 0⟩ (fun _ c => if c = 0 then 95 else 0) 8 0 .zero) =
      ([8, 0, 0, 8, 0, 0, 8, 0, 0, 8, 0, 0, 8, 0, 0, 8, 0, 0, 8, 0, 0, 7, 0, 0], .zero) := by decide

/-! ## Timing -/

/-- V10, V11. -/
theorem test_counter :
    (List.range 12).map (fun k => ((countSteps Config.reference k (countStart Config.reference)).1.toNat,
      (countSteps Config.reference k (countStart Config.reference)).2)) =
      [(10, true), (9, false), (8, false), (7, false), (6, false), (5, false), (4, false), (3, false), (2, false), (1, false),
       (10, true), (9, false)] := by decide

/-- V86 to V88. -/
theorem test_schedule :
    [(3, 0, 1), (265, 264, 1), (1000, 528, 0)].map (fun q : Nat × Nat × Nat =>
      (waitEnd Config.reference q.1 q.2.1, firstBit Config.reference q.1 q.2.1, adjustAt Config.reference q.1 q.2.1 q.2.2)) =
      [(20, 23, 263), (284, 287, 527), (1001, 1004, 1004)] := by decide

/-- V80 to V82, V85. -/
theorem test_tick : [100, 30, 34, 65535].map (tickMs cfg84) = [3, 0, 1, 1966] := by decide

/-- V60, V61: the pin over a bit period, entering each cycle from the one before (a 1 bit, a 0 bit). -/
theorem test_waveform :
    (List.range 10).map (waveLevel Config.reference true) =
      [true, true, true, true, true, true, true, false, false, false] ∧
    (List.range 10).map (waveLevel Config.reference false) =
      [true, true, true, false, false, false, false, false, false, false] := by decide

/-- R175, R176: the edges at the end of a frame. -/
theorem test_adjust_restore :
    after (step { busyIn .adjust with dreg := ⟨3, 4, 5⟩ }) (fun t => (t.dstore, t.cst)) = some (⟨3, 4, 5⟩, .restore) ∧
    after (step { busyIn .restore with now := 264 }) (fun t => (t.lastmark, t.cst, t.now)) = some (264, .idle, 265) := by decide

/-- Log 27, R242: `RST` sampled in the cycle of ADJUST: the strobe is up in that cycle and its event stays; no write-back, no mark. -/
theorem test_adjust_rst :
    let s : State := { busyIn .adjust with dreg := ⟨3, 4, 5⟩, trace := [.tick 0], ports := [{ PortIn.quiet with rst := true }] }
    s.tickValid = true ∧ after (step s) (fun t => (t.tickValid, t.dstore, t.lastmark, t.trace)) = some (false, .zero, 0, [.tick 0]) := by
  decide

/-- R172 at its boundary: `WAIT` = 20, mark 0, in cycle 19 and in cycle 20. -/
theorem test_waitIdle :
    after (step { busyIn .waitIdle with now := 19 }) State.cst = some .waitIdle ∧
    after (step { busyIn .waitIdle with now := 20 }) State.cst = some .setup := by decide

/-! ## Witnesses: states and operands that meet the hypotheses of each statement -/

/-- A machine of P4's instance in XMIT of a CLEAR of one pixel, whose first bit is on the wire, meets the invariant. -/
theorem inXmit_inv {k : BitVec 24} (h : k = 10 ∨ k = 3) : (inXmit k 1).Inv := by
  rcases h with rfl | rfl <;>
  exact ⟨(rfl : Memory.wf [] = true), fun _ => by decide, le_refl 0, fun h => (by cases h), fun _ => ⟨by decide, by decide, by decide⟩,
    ⟨fun _ => by decide, fun h => (by cases h)⟩, ⟨fun _ => by decide, fun h => absurd rfl h⟩, fun _ => ⟨rfl, by decide, by decide⟩,
    ⟨fun _ _ => rfl, fun h => (by cases h), fun h => (by cases h), fun _ h => (by cases h), fun _ _ _ => rfl⟩,
    fun _ _ h => (by cases h), fun h => (by cases h)⟩

/-- The record that P4's instance is built from. -/
def rawP4 : RawConfig :=
  { t1 := 3, t2 := 4, t3 := 3, order := (0, 1, 2), flip := false, wait := 20, skip := 0, clksPerUs := 1, pinId := 0,
    hasShowColor := true, setupLat := 2, prepLat := 0 }

/-- LegalConfigurationsAreBuiltOthersRefused, clause 1, and the three clauses of 3 at the least and the greatest `TOTAL`. -/
theorem witness_buildConfig :
    buildConfig rawP4 = .ok Config.reference ∧
    buildConfig { rawP4 with flip := true } = .error .flipUndefined ∧
    buildConfig { rawP4 with hasShowColor := false } = .error .noShowColor ∧
    (buildConfig { rawP4 with t1 := 1, t2 := 1, t3 := 1, order := (2, 0, 1) }).toOption.isSome = true ∧
    (buildConfig { rawP4 with t1 := 2 ^ 24 - 8 }).toOption.isSome = true := by decide

/-- LegalConfigurationsAreBuiltOthersRefused, clause 4: each disjunct (V16 among them). -/
theorem witness_illegal :
    buildConfig { rawP4 with t1 := 0 } = .error .illegal ∧ buildConfig { rawP4 with t2 := 0 } = .error .illegal ∧
    buildConfig { rawP4 with t3 := 0 } = .error .illegal ∧ buildConfig { rawP4 with t1 := 2 ^ 24 - 7 } = .error .illegal ∧
    buildConfig { rawP4 with clksPerUs := 0 } = .error .illegal ∧
    buildConfig { rawP4 with order := (0, 1, 1) } = .error .illegal ∧
    ∀ o : ColorOrder, ((0, 1, 1) : Nat × Nat × Nat) ≠ ((channelAt o 0).val, (channelAt o 1).val, (channelAt o 2).val) := by
  refine ⟨by decide, by decide, by decide, by decide, by decide, by decide, fun o => ?_⟩
  cases o <;> decide

/-- ConfigurationNeverChanges, ControllerTakesOnlyItsEdges, PersistentStateHasOneWriter, OnlyTheHostWritesMemory: a step without
reset that answers a next state. -/
theorem witness_step : State.reset.port.rst = false ∧ State.reset.MemOk ∧ (after (step State.reset) State.now) = some 1 ∧
    after (runFor 3 State.reset) State.now = some 3 := ⟨rfl, rfl, by decide, by decide⟩

/-- AdmittedWordIsTheEncoding. -/
theorem witness_admitted : decode 0x5703 = .ok (.clear 87) := by decide

/-- NonCanonicalWordsRefusedByName: a canonical word, one with a reserved bit, one with an unused field, and such a word on the port
of an idle block. -/
theorem witness_nonCanonical :
    encode (hwDecode 0x5703) = 0x5703 ∧ encode (hwDecode 0xFF) ≠ 0xFF ∧ encode (hwDecode 0x100000003) ≠ 0x100000003 ∧
    (offered 0xFF).cst = .idle ∧ (offered 0xFF).port.rst = false ∧ (offered 0xFF).port.cmdValid = true ∧
    encode (hwDecode (offered 0xFF).port.cmdWord) ≠ (offered 0xFF).port.cmdWord := by decide

/-- StepRunsTheOfferedCommand, and the last clause of InitDrivesThePinLow. -/
theorem witness_offer :
    (offered 0).cst = .idle ∧ (offered 0).Calm ∧ (offered 0).Offers .init ∧ (offered 0).port.cmdWord = 0 ∧
    ∃ t, exec .init (offered 0) = .next t :=
  ⟨rfl, rfl, ⟨rfl, by decide⟩, by decide, _, rfl⟩

/-- InitDrivesThePinLow: INIT twice, and a busy block that goes on while INIT is offered. -/
theorem witness_init_twice : (∃ t u, exec .init State.reset = .next t ∧ exec .init t = .next u) ∧
    after (step { offered 0 with cst := .waitIdle, op := .clear }) State.pinOe = some false := ⟨⟨_, _, rfl, rfl⟩, by decide⟩

/-- CommandPortIgnoredUnlessReady: a busy block, and an idle one that is offered nothing. -/
theorem witness_port :
    (busyIn .waitIdle).cst ≠ .idle ∧ State.reset.port.cmdValid = false ∧ State.reset.cst = .idle ∧ State.reset.Calm :=
  ⟨by decide, rfl, rfl, rfl⟩

/-- AckWithoutRequestIgnored. -/
theorem witness_ack : (busyIn .setup).memReq = false := rfl

/-- ResetOverridesEverything and ResetLeavesTheOutsideAlone: `RST` in the middle of XMIT. -/
theorem witness_rst :
    let s : State := { inXmit 5 1 with ports := [{ PortIn.quiet with rst := true }] }
    s.port.rst = true ∧ s.port.hostStore = none ∧ s.cst = .xmit := ⟨rfl, rfl, rfl⟩

/-- ShowIsAccepted at the greatest buffer, ShowColorIsAccepted and ClearIsAccepted at the greatest tick value. -/
theorem witness_accept :
    (0xFFFFFFFD : Addr).toNat + Config.reference.skip + 3 * (1 : BitVec 16).toNat = 2 ^ 32 ∧
    tickMs Config.reference (1 : BitVec 16).toNat < 2 ^ 32 ∧ tickMs cfgSlow (10843 : BitVec 16).toNat = 2 ^ 32 - 1 := by decide

/-- OnlyTheBoundsAreRefused: each clause at its boundary. -/
theorem witness_bounds :
    2 ^ 32 < (0xFFFFFFFE : Addr).toNat + Config.reference.skip + 3 * (1 : BitVec 16).toNat ∧
    (Instr.clear 11167).opcode.isFrame = true ∧ (Instr.clear 11167).bufferOk cfgSlower = true ∧
    tickMs cfgSlower (Instr.clear 11167).count.toNat = 2 ^ 32 ∧
    Instr.wellFormed Config.reference (.showFrame 0xFFFFFFFD 1 .zero) = true := by decide

/-- WaitIdleEndsWithTheInterval: on both sides of its condition, with mark 0. -/
theorem witness_waitIdle :
    (busyIn .waitIdle).cst = .waitIdle ∧ (busyIn .waitIdle).Calm ∧ (busyIn .waitIdle).busyFault = none ∧
    (busyIn .waitIdle).lastmark = 0 ∧ (busyIn .waitIdle).lastmark + (busyIn .waitIdle).cfg.wait = 20 ∧
    after (step { busyIn .waitIdle with now := 20 }) State.cst = some .setup :=
  ⟨rfl, rfl, by decide, rfl, rfl, by decide⟩

/-- SetupSeedsTheFrame: a request answered at once, a raw byte in the last cycle of the data path, and neither (the request is not yet
issued; it is not answered). -/
theorem witness_setup :
    let s := { busyIn .setup with setupLeft := 2, op := .showFrame, base := 0x100, scale := ⟨20, 20, 20⟩, mem := [(0x100, 95)] }
    let a : State := { s with prep := .reading 0x100 }
    let b : State := { a with ports := [{ PortIn.quiet with memAck := false }] }
    (s.cst = .setup ∧ s.setupLeft = s.cfg.setupLat ∧ s.Calm ∧ b.Calm ∧ s.busyFault = none) ∧
    (a.prep = .reading 0x100 ∧ a.port.memAck = true ∧ a.cfg.prepLat = 0 ∧ b.port.memAck = false) ∧
    after (step a) (fun t => (t.curb, t.dreg)) = some (8, ⟨3, 0, 0⟩) ∧
    after (step { s with prep := .computing 95 0 }) (fun t => (t.curb, t.dreg)) = some (8, ⟨3, 0, 0⟩) ∧
    after (step { s with prep := .pending }) State.dreg = some .zero ∧ after (step b) State.dreg = some .zero :=
  ⟨⟨rfl, rfl, rfl, rfl, by decide⟩, ⟨rfl, rfl, rfl, rfl⟩, by decide, by decide, by decide, by decide⟩

/-- XmitLoopSteps: each of its five clauses (for the first, `CNT` at 2 and at `TOTAL`). -/
theorem witness_xmit :
    (∀ k : BitVec 24, ((inXmit k 2).cst = .xmit ∧ (inXmit k 2).late = false) ∧ (inXmit k 2).Calm) ∧
    (inXmit 2 2).busyFault = none ∧ 1 < (inXmit 2 2).cnt.toNat ∧ 1 < (inXmit 10 2).cnt.toNat ∧
    ((inXmit 1 2).cnt.toNat = 1 ∧ (inXmit 1 2).biti ≠ 0) ∧
    (let s := { inXmit 1 2 with biti := 0, slot := 1, prep := .ready }
     s.cnt.toNat = 1 ∧ s.biti = 0 ∧ s.slot ≠ 2 ∧ s.prep = .ready ∧ s.busyFault = none) ∧
    (let s := { inXmit 1 2 with biti := 0, slot := 2, prep := .ready }
     s.cnt.toNat = 1 ∧ s.biti = 0 ∧ s.slot = 2 ∧ s.pix.toNat + 1 < s.nleds.toNat ∧ s.prep = .ready ∧ s.busyFault = none) ∧
    (let s := { inXmit 1 2 with biti := 0, slot := 2, pix := 1 }
     s.cnt.toNat = 1 ∧ s.biti = 0 ∧ s.slot = 2 ∧ ¬ s.pix.toNat + 1 < s.nleds.toNat ∧ s.busyFault = none) :=
  ⟨fun _ => ⟨⟨rfl, rfl⟩, rfl⟩, by decide, by decide, by decide, by decide, by decide, by decide, by decide⟩

/-- LookAheadPreparesTheNextByte: the three positions that wait (the last of them in the last cycle of a bit); a preparation issued; a request unanswered, and answered with PREP_LAT = 0 and above; the data path
before its last cycle and in it. -/
theorem witness_lookAhead :
    let s := { inXmit 5 2 with op := .showFrame, base := 0x100, mem := [(0x101, 9)], sreg := ⟨255, 255, 255⟩, ereg := .zero }
    let read (p : PortIn) : State := { s with prep := .reading 0x101, ports := [p] }
    (s.cst = .xmit ∧ s.Calm ∧ s.busyFault = none ∧ 1 < s.cnt.toNat ∧ s.biti ≠ 0) ∧
    ([{ s with prep := .none }, { s with prep := .ready },
        { s with prep := .pending, cnt := 1, ports := [{ PortIn.quiet with go := false }] }].map
          (fun s => after (step s) (fun t => (t.prep, t.memReq, t.trace)))
        = [some (.none, false, []), some (.ready, false, []), some (.pending, false, [.bit false])]) ∧
    (after (step { s with prep := .pending }) State.memAddr = some (some 0x101) ∧
      after (step { s with prep := .pending, slot := 2, pix := 0 }) State.memAddr = some (some 0x103)) ∧
    after (step (read { PortIn.quiet with memAck := false })) State.memAddr = some (some 0x101) ∧
    after (step (read .quiet)) (fun t => (t.prep, t.nextb, t.trace)) = some (.ready, 9, [.read 0x101]) ∧
    after (step { read .quiet with cfg := { Config.reference with prepLat := 2 } }) State.prep = some (.computing 9 1) ∧
    after (step { s with prep := .computing 9 1 }) State.prep = some (.computing 9 0) ∧
    after (step { s with prep := .computing 9 0 }) (fun t => (t.prep, t.nextb)) = some (.ready, 9) :=
  ⟨⟨rfl, rfl, by decide, by decide, by decide⟩, by decide, ⟨by decide, by decide⟩, by decide, by decide, by decide, by decide, by decide⟩

/-- ByteBoundaryOpensTheNextWindow: a byte follows and one after it, issued at once and not; a byte follows and none after it; none
follows. -/
theorem witness_boundary :
    let s := { inXmit 1 1 with op := .showFrame, base := 0x100, biti := 0, prep := .ready, nextb := 9 }
    (s.cst = .xmit ∧ s.Calm ∧ s.busyFault = none ∧ s.late = false ∧ s.cnt.toNat = 1 ∧ s.biti = 0 ∧ s.hasNext = true) ∧
    after (step s) (fun t => (t.curb, t.hasNext, t.memAddr)) = some (9, true, some 0x102) ∧
    after (step { s with ports := [{ PortIn.quiet with go := false }] }) (fun t => (t.curb, t.hasNext, t.prep)) =
      some (9, true, .pending) ∧
    after (step { s with slot := 1 }) (fun t => (t.curb, t.hasNext, t.prep)) = some (9, false, .none) ∧
    ({ s with slot := 2 } : State).hasNext = false ∧ after (step { s with slot := 2, prep := .none }) State.cst = some .adjust :=
  ⟨⟨rfl, rfl, by decide, rfl, by decide, rfl, by decide⟩, by decide, by decide, by decide, by decide, by decide⟩

/-- A SHOW of one pixel in XMIT with a request that no cycle acknowledges. -/
def unanswered (late : Bool) : State :=
  { inXmit 1 1 with op := .showFrame, biti := 0, prep := .reading 0x1, late := late, dstore := ⟨1, 2, 3⟩
                    ports := [{ PortIn.quiet with memAck := false }] }

/-- RequestIsHeldUntilAnswered, at a byte boundary. -/
theorem witness_held : (unanswered false).Inv ∧ (unanswered false).prep = .reading 0x1 ∧ (unanswered false).Undisturbed 1 ∧
    (∀ j < 1, ((unanswered false).portAt j).memAck = false) ∧ after (step (unanswered false)) State.memAddr = some (some 0x1) := by
  refine ⟨⟨(rfl : Memory.wf [] = true), fun _ => by decide, le_refl 0, fun h => (by cases h), fun _ => ⟨by decide, by decide, by decide⟩,
    ⟨fun _ => by decide, fun h => (by cases h)⟩, ⟨fun _ => by decide, fun h => absurd rfl h⟩, fun _ => ⟨rfl, by decide, by decide⟩,
    ⟨fun _ h => absurd rfl h, fun h => (by cases h), fun h => (by cases h), fun _ h => (by cases h; decide), fun _ h => (by revert h; decide)⟩,
    fun _ _ h => (by cases h), fun h => (by cases h)⟩, rfl, fun j hj => ?_, fun j hj => ?_, by decide⟩ <;>
  (obtain rfl : j = 0 := Nat.lt_one_iff.1 hj) <;> rfl

/-- MissedDeadlineSendsAnyByte: at a byte boundary the request is unanswered; in the last cycle of SETUP nothing is issued, the request
is unanswered, the data path is not done; the last byte of a late frame ends with the request unanswered, and with none; ADJUST. -/
theorem witness_missed :
    let s := unanswered false
    let setup (q : Prep) : State := { busyIn .setup with setupLeft := 1, op := .showFrame, prep := q, ports := s.ports }
    let last := { unanswered true with slot := 2 }
    (s.cst = .xmit ∧ s.Calm ∧ s.busyFault = none ∧ s.cnt.toNat = 1 ∧ s.biti = 0 ∧ s.hasNext = true ∧ s.prep ≠ .ready) ∧
    (∀ q ∈ [Prep.pending, .reading 0, .computing 0 1], (setup q).setupLeft = 1 ∧ (setup q).nleds ≠ 0 ∧ (setup q).Calm ∧
      (setup q).busyFault = none ∧ after (step (setup q)) (fun t => (t.cst, t.late, t.freeIx)) = some (.xmit, true, 1)) ∧
    (last.cst = .xmit ∧ last.Calm ∧ last.busyFault = none ∧ last.hasNext = false ∧ last.late = true ∧ last.port.memAck = false) ∧
    after (step last) (fun t => (t.cst, t.prep)) = some (.xmit, .reading 0x1) ∧
    after (step { last with prep := .none }) State.cst = some .adjust ∧
    after (step { busyIn .adjust with late := true }) (fun t => (t.cst, t.freeIx)) = some (.restore, 3) :=
  ⟨⟨rfl, rfl, by decide, by decide, rfl, by decide, by decide⟩, by unfold State.Calm; decide, ⟨rfl, rfl, by decide, by decide, rfl, rfl⟩,
    by decide, by decide, by decide⟩

/-- AdjustWritesTheDitherStateBack and RestoreMarksTheTime. -/
theorem witness_end :
    ((busyIn .adjust).cst = .adjust ∧ (busyIn .adjust).Calm ∧ (busyIn .adjust).busyFault = none ∧ (busyIn .adjust).late = false) ∧
    ((busyIn .restore).cst = .restore ∧ (busyIn .restore).Calm ∧ (busyIn .restore).busyFault = none) :=
  ⟨⟨rfl, rfl, by decide, rfl⟩, rfl, rfl, by decide⟩

/-- PersistentStateHasOneWriter: each kind of change happens. -/
theorem witness_writers :
    after (step { busyIn .adjust with dreg := ⟨3, 4, 5⟩ }) State.dstore = some ⟨3, 4, 5⟩ ∧
    after (step { busyIn .restore with now := 9 }) State.lastmark = some 9 ∧ after (step (offered 0)) State.pinOe = some true := by
  decide

/-- A running SHOW of one pixel at 0x100 (`SKIP` = 0), with a host that stores to `a`. -/
def lending (a : Addr) : State :=
  { busyIn .waitIdle with op := .showFrame, base := 0x100, ports := [{ PortIn.quiet with hostStore := some (a, 7) }] }

/-- OnlyTheHostWritesMemory with a store, and HostStoreRacesWithTheReads, clause 1: the first and the last byte of the lent buffer, the
bytes next to it on both sides, and a store while no SHOW runs. -/
theorem witness_store :
    (∀ a, (lending a).cst ≠ .idle ∧ (lending a).cst ≠ .restore ∧ (lending a).op = .showFrame ∧ (lending a).Calm ∧
      (lending a).busyFault = none ∧ (lending a).port.hostStore = some (a, 7) ∧ (lending a).MemOk) ∧
    [0xFF, 0x100, 0x102, 0x103].map (fun a => after (step (lending a)) (fun t => (t.mem, t.superseded))) =
      [some ([(0xFF, 7)], []), some ([(0x100, 7)], [(0x100, 0)]), some ([(0x102, 7)], [(0x102, 0)]), some ([(0x103, 7)], [])] ∧
    after (step { lending 0x100 with op := .clear }) (fun t => (t.mem, t.superseded)) = some ([(0x100, 7)], []) :=
  ⟨fun _ => ⟨fun h => (by cases h), fun h => (by cases h), rfl, rfl, (by decide : (lending 0).busyFault = none), rfl, rfl⟩,
    by decide, by decide⟩

/-- HostStoreRacesWithTheReads, clause 2: the host stores to the first byte of the buffer, and past its last, in the accepting cycle. -/
theorem witness_store_accept :
    let s (a : Addr) : State :=
      { State.reset with ports := [{ offerWord .quiet 0x000010000014014000000201 with hostStore := some (a, 7) }] }
    (∀ a, (s a).MemOk ∧ (s a).cst = .idle ∧ (s a).Calm ∧ (s a).Offers (.showFrame 0x1000 2 ⟨64, 1, 20⟩) ∧
      Instr.wellFormed (s a).cfg (.showFrame 0x1000 2 ⟨64, 1, 20⟩) = true ∧ (s a).port.hostStore = some (a, 7)) ∧
    [0x1000, 0x1005, 0x1006].map (fun a => after (step (s a)) (fun t => (t.mem, t.superseded))) =
      [some ([(0x1000, 7)], [(0x1000, 0)]), some ([(0x1005, 7)], [(0x1005, 0)]), some ([(0x1006, 7)], [])] :=
  ⟨fun _ => ⟨rfl, rfl, rfl, ⟨rfl, (by decide : decode 0x000010000014014000000201 = .ok (.showFrame 0x1000 2 ⟨64, 1, 20⟩))⟩,
    (by decide : Instr.wellFormed Config.reference (.showFrame 0x1000 2 ⟨64, 1, 20⟩) = true), rfl⟩, by decide⟩

/-- R71, U6: a byte stored to twice since acceptance and once in the cycle of its read may read as any of its four values; its neighbour
reads as the memory holds it (R70). -/
theorem test_race :
    let s : State := { lending 0x100 with mem := [(0x100, 3), (0x101, 5)], superseded := [(0x100, 2), (0x102, 9), (0x100, 1)] }
    s.racing 0x100 s.port.hostStore = [2, 1, 7] ∧ s.racing 0x101 s.port.hostStore = [] ∧
    s.fetched 0x101 s.port.hostStore = 5 := ⟨by decide, by decide, rfl⟩

/-- CounterRunsFromTotalToOne: XMIT is entered, and goes on with `CNT` above 1 and at 1. -/
theorem witness_counter :
    after (step { busyIn .setup with setupLeft := 1, prep := .ready }) (fun t => (t.cst, t.cnt, t.wrap)) =
      some (.xmit, 10, true) ∧
    after (step (inXmit 2 1)) (fun t => (t.cst, t.cnt, t.wrap)) = some (.xmit, 1, false) ∧
    after (step (inXmit 1 1)) (fun t => (t.cst, t.cnt, t.wrap)) = some (.xmit, 10, true) := by decide

/-- MarksFallInOrder, in the first and the last cycle of a bit period (V12 between). -/
theorem witness_marks :
    (inXmit 10 1).CounterOk ∧ (inXmit 1 1).CounterOk ∧ cOff Config.reference 7 = 3 ∧ cOff Config.reference 3 = 7 :=
  ⟨fun _ => ⟨by decide, by decide, by decide⟩, fun _ => ⟨by decide, by decide, by decide⟩, by decide, by decide⟩

/-- WaitsCompleteInTheirCycle: V14 (WAITM(7) issued at `CNT` = 10), WAITB where `WRAP` is 1, and V13 (WAITB issued at `CNT` = 3, a bit
following). -/
theorem witness_waits :
    ((inXmit 10 1).Inv ∧ (inXmit 10 1).cst = .xmit ∧ (inXmit 3 1).Inv ∧ (inXmit 3 1).cst = .xmit) ∧
    (1 ≤ 7 ∧ 7 < (inXmit 10 1).cnt.toNat ∧ (inXmit 10 1).Undisturbed 3 ∧ t1Mark Config.reference = 7) ∧
    (inXmit 10 1).cnt.toNat = total (inXmit 10 1).cfg ∧
    ((inXmit 3 1).cnt.toNat < total (inXmit 3 1).cfg ∧ (inXmit 3 1).biti ≠ 0 ∧ (inXmit 3 1).Undisturbed 3) ∧
    (List.range 4).map (fun k => after (runFor k (inXmit 10 1)) (waitmDone 7)) = [some false, some false, some false, some true] ∧
    (List.range 4).map (fun k => after (runFor k (inXmit 3 1)) waitbDone) = [some false, some false, some false, some true] :=
  ⟨⟨inXmit_inv (by decide), rfl, inXmit_inv (by decide), rfl⟩, ⟨by decide, by decide, fun _ _ => rfl, by decide⟩, by decide,
    ⟨by decide, by decide, fun _ _ => rfl⟩, by decide, by decide⟩

/-- PinMovesAtTheMarksOnly: into the boundary, `T1_MARK`, `T2_MARK`, and a cycle between (a 0 bit). -/
theorem witness_pin :
    [inXmit 1 1, inXmit 8 1, inXmit 4 1, inXmit 6 1].map (fun s => after (step s) (fun t => (t.cst, t.wrap, t.cnt.toNat, t.pinOut))) =
      [some (.xmit, true, 10, true), some (.xmit, false, 7, false), some (.xmit, false, 3, false),
       some (.xmit, false, 5, false)] := by decide

/-- CorrectKeepsToItsChannel: a scale of 0, a scale of 255 with its mask, another channel. -/
theorem witness_correct :
    (Triple.get ⟨0, 255, 20⟩ 0 = 0 ∧ Triple.get ⟨0, 255, 20⟩ 1 = 255) ∧
    Triple.get (maskAll ⟨0, 255, 20⟩) 1 = mask (Triple.get ⟨0, 255, 20⟩ 1) ∧ (2 : Fin 3) ≠ 1 := by decide

/-- RampHasItsClosedForm: periods between 0 and `E + 1`, and a value in `0..E`. -/
theorem witness_ramp : 0 < 7 ∧ 7 < (mask 20).toNat + 1 ∧ (7 : Byte).toNat ≤ (mask 20).toNat := by decide

/-- FrameHasItsLengthAndDitherState, ShortFormsEqualShow (both clauses), FullScaleSendsTheBuffer, ReadsCoverTheBufferOnce. -/
theorem witness_frame :
    (Instr.clear 2).opcode.isFrame = true ∧
    (∀ i < (1 : BitVec 16).toNat, ∀ c : Fin 3, Memory.read [(0x102, 5), (0x103, 6)] (pixAddr cfgP5 0x100 i c) = Triple.get ⟨5, 6, 0⟩ c) ∧
    (∀ i < (1 : BitVec 16).toNat, ∀ c : Fin 3, Memory.read [(0x101, 5)] (pixAddr cfgP5 0x100 i c) = 0) ∧
    (0xFFFFFFFB : Addr).toNat + cfgP5.skip + 3 * (1 : BitVec 16).toNat = 2 ^ 32 := by decide

/-- Beyond the list the wires are quiet. -/
theorem portAt_one (s : State) (p : PortIn) (h : s.ports = [p]) (j : Nat) : s.portAt (j + 1) = .quiet := by
  simp [State.portAt, h]

/-- An idle machine that is offered a command in this cycle and then nothing more. -/
theorem starts_of_offer {i : Instr} {w : Nat} (hf : i.opcode.isFrame = true) (hw : i.wellFormed Config.reference = true)
    (hd : decode (BitVec.ofNat 96 (w % 2 ^ 96)) = .ok i) : (offered w).StartsFrame i := by
  have hp : ∀ j, (offered w).portAt (j + 1) = .quiet := portAt_one _ _ rfl
  refine ⟨hf, hw, rfl, ⟨rfl, hd⟩, rfl, rfl, fun j _ => ?_, 1, 1, fun j => ?_, fun _ j => ?_, le_refl 1,
    show 1 + 1 + 0 ≤ 8 * total Config.reference by decide, show 1 + 1 + 0 ≤ 2 + 1 by decide⟩
  · cases j with
    | zero => rfl
    | succ j => rw [hp j]; rfl
  · refine ⟨0, by decide, ?_⟩
    cases j with
    | zero => rfl
    | succ j => rw [Nat.add_zero, hp j]; rfl
  · refine ⟨0, by decide, ?_⟩
    cases j with
    | zero => rfl
    | succ j => rw [Nat.add_zero, hp j]; rfl

/-- The premise on the host of FrameCommandHasItsFrameEffect and FrameHasItsWaveform: nothing is stored. -/
theorem keepsLoan_offered (w : Nat) (i : Instr) (k : Nat) : (offered w).KeepsLoan i k := by
  intro j _ x hx
  cases j with
  | zero => cases hx
  | succ j => rw [portAt_one _ _ rfl j] at hx; cases hx

/-- FrameCommandHasItsFrameEffect, FrameReadsInTheirWindows, FrameFollowsItsSchedule, FrameHasItsWaveform: a frame of each command
starts, right after reset. -/
theorem witness_startsFrame :
    (offered 0x000010000014014000000201).StartsFrame (.showFrame 0x1000 2 ⟨64, 1, 20⟩) ∧
    (offered 0x001E140A00FF208000000302).StartsFrame (.showColor ⟨10, 20, 30⟩ 3 ⟨128, 32, 255⟩) ∧
    (offered 0x203).StartsFrame (.clear 2) :=
  ⟨starts_of_offer (by decide) (by decide) (by decide), starts_of_offer (by decide) (by decide) (by decide),
    starts_of_offer (by decide) (by decide) (by decide)⟩

/-- FrameFollowsItsSchedule at the last cycle, FrameHasItsWaveform at the last cycle of the last bit of CLEAR 2 (and its first). -/
theorem witness_schedule_ends :
    (505 ≤ busyCycles Config.reference 0 0 2 ∧ busyCycles Config.reference 0 0 2 = 505) ∧ 47 < 24 * (Instr.clear 2).count.toNat ∧
    9 < total Config.reference ∧ 0 < 24 * (Instr.clear 2).count.toNat := by decide

/-- OneBitHasItsWaveform, EveryStepKeepsTheInvariant, NoStepFaults (busy), TimingDoesNotDependOnData: a machine at a bit boundary meets
the invariant. -/
theorem witness_inv_xmit : (inXmit 10 1).Inv ∧ (inXmit 10 1).cst = .xmit ∧ (inXmit 10 1).wrap = true ∧
    9 < total (inXmit 10 1).cfg ∧ (inXmit 10 1).Undisturbed 9 :=
  ⟨inXmit_inv (by decide), rfl, rfl, by decide, fun _ _ => rfl⟩

/-- TimingDoesNotDependOnData: two such machines that differ in a pixel byte and in the Dither State. -/
theorem witness_sameTiming :
    SameTiming (inXmit 10 1) { inXmit 10 1 with curb := 0xFF, dstore := ⟨1, 2, 3⟩, mem := [(0, 1)] } := by
  constructor <;> rfl

/-- EveryStepKeepsTheInvariant: that machine has a next state. -/
theorem witness_inv_step : after (step (inXmit 10 1)) State.cnt = some 9 := by decide

/-- NoStepFaults, its clause for an idle block. -/
theorem witness_idle : State.reset.cst = .idle ∧ State.reset.port.cmdValid = false ∧ State.reset.port.hostStore = none := ⟨rfl, rfl, rfl⟩

/-- ResetMeetsTheInvariant: a canonical memory. -/
theorem witness_mem : Memory.wf [(0, 1), (0xFFFFFFFF, 2)] = true ∧ Memory.wf [(1, 0)] = false ∧ Memory.wf [(2 ^ 32, 1)] = false := by
  decide

/-- ZeroPixelFrameStillWaitsAndMarks. -/
theorem witness_zero :
    (Instr.clear 0).opcode.isFrame = true ∧ (Instr.clear 0).count = 0 ∧ Instr.wellFormed Config.reference (.clear 0) = true ∧
    (offered 3).cst = .idle ∧ (offered 3).Offers (.clear 0) ∧
    (offered 3).Undisturbed (busyCycles Config.reference 0 0 0) := by
  have h := (starts_of_offer (i := .clear 0) (w := 3) (by decide) (by decide) (by decide))
  exact ⟨h.frame, rfl, h.admitted, rfl, h.offered, h.noReset⟩

/-- ScheduleIsBounded: a mark in the past, and a second frame accepted as early as can be (V86, V87). -/
theorem witness_bounded : 0 ≤ 3 ∧ adjustAt Config.reference 3 0 1 + 2 ≤ 265 := by decide

/-- TickTruncatesTwice: an instance with the vectors' numbers. -/
theorem witness_tick : total cfg84 = 105 ∧ cfg84.clksPerUs = 84 := by decide

/-- P4's instance without an idle interval, in the ADJUST of a CLEAR, with the next CLEAR on the port two cycles later. -/
def adjusting : State :=
  { busyIn .adjust with
    cfg := { Config.reference with wait := 0 }, ereg := ⟨255, 255, 255⟩, dreg := ⟨3, 4, 5⟩
    ports := [.quiet, .quiet, offerWord .quiet 0x103] }

/-- DitherStateCarriesToTheNextFrame: four cycles later the next frame is in its first cycle of SETUP, and no other ADJUST has been. -/
theorem witness_dither :
    (adjusting.Inv ∧ adjusting.cst = .adjust ∧ adjusting.late = false) ∧ adjusting.Undisturbed 4 ∧
    (List.range 5).map (fun k => after (runFor k adjusting) State.cst) =
      [some .adjust, some .restore, some .idle, some .waitIdle, some .setup] ∧
    after (runFor 4 adjusting) (fun v => (v.dstore, v.setupLeft, v.cfg.setupLat, v.port.rst)) = some (⟨3, 4, 5⟩, 2, 2, false) ∧
    after (runFor 5 adjusting) State.dreg = some ⟨6, 4, 5⟩ := by
  refine ⟨⟨⟨(rfl : Memory.wf [] = true), fun _ => by decide, le_refl 0, fun h => (by cases h), fun h => (by cases h),
    ⟨fun h => (by cases h), fun h => (by cases h)⟩, ⟨fun h => (by cases h), fun _ => rfl⟩, fun _ => ⟨rfl, by decide, by decide⟩,
    ⟨fun _ _ => rfl, fun h => (by cases h), fun h => (by cases h), fun _ h => (by cases h), fun h => (by cases h)⟩,
    fun _ _ h => (by cases h), fun _ => by decide⟩, rfl, rfl⟩, fun j hj => ?_, by decide, by decide, by decide⟩
  interval_cases j <;> rfl

end Sys2Proof.Tests
end

