-- ==== Sys2Proof/Proofs/Configuration.lean ====
section
/-! PROOFS. The configuration: how it is built (spec/00_scope.md R9, R10) and that nothing changes it (R8). -/

namespace Sys2Proof.Machine

/-! ## The colour order and its code -/

/-- `orderOfCode` inverts the code `(ORDER[0], ORDER[1], ORDER[2])` of R90. -/
theorem orderOfCode_eq_some {c : Nat × Nat × Nat} {o : ColorOrder} :
    orderOfCode c = some o ↔ c = ((channelAt o 0).val, (channelAt o 1).val, (channelAt o 2).val) := by
  constructor
  · unfold orderOfCode
    split <;> rintro ⟨⟩ <;> rfl
  · rintro rfl
    cases o <;> rfl

theorem orderOfCode_eq_none {c : Nat × Nat × Nat} :
    orderOfCode c = none ↔ ∀ o : ColorOrder, c ≠ ((channelAt o 0).val, (channelAt o 1).val, (channelAt o 2).val) := by
  simp only [Option.eq_none_iff_forall_ne_some, ne_eq, orderOfCode_eq_some]

/-- Every colour order sends each buffer position in exactly one wire slot. -/
theorem channelAt_bijective (o : ColorOrder) : Function.Bijective (channelAt o) := by
  cases o <;> decide

/-! ## Building a configuration -/

/-- The numbers of a record keep the contract R10, with R9's range of SETUP_LAT (log 5). -/
def NumbersLegal (r : RawConfig) : Prop :=
  0 < r.t1 ∧ 0 < r.t2 ∧ 0 < r.t3 ∧ r.t1 + r.t2 + r.t3 < 2 ^ 24 ∧ 0 < r.clksPerUs ∧ 0 < r.setupLat

/-- A record whose order is no permutation is refused (U1). -/
theorem buildConfig_of_no_order {r : RawConfig} (ho : orderOfCode r.order = none) : buildConfig r = .error .illegal := by
  unfold buildConfig
  rw [ho]

/-- A record with a number outside the contract is refused (U1). -/
theorem buildConfig_of_not_legal {r : RawConfig} (h : ¬ NumbersLegal r) : buildConfig r = .error .illegal := by
  unfold buildConfig
  split
  · rfl
  · exact dif_neg h

/-- The configuration of a legal record: its numbers, with the order its code names. -/
def configOf (r : RawConfig) (o : ColorOrder) (h : NumbersLegal r) : Config where
  t1 := r.t1
  t2 := r.t2
  t3 := r.t3
  order := o
  wait := r.wait
  skip := r.skip
  clksPerUs := r.clksPerUs
  pinId := r.pinId
  setupLat := r.setupLat
  prepLat := r.prepLat
  t1_pos := h.1
  t2_pos := h.2.1
  t3_pos := h.2.2.1
  total_lt := h.2.2.2.1
  clksPerUs_pos := h.2.2.2.2.1
  setupLat_pos := h.2.2.2.2.2

/-- What becomes of a legal record is decided by FLIP and then by HAS_SHOWCOLOR (U3, U10). -/
theorem buildConfig_of_legal {r : RawConfig} {o : ColorOrder} (ho : orderOfCode r.order = some o) (h : NumbersLegal r) :
    buildConfig r = if r.flip then .error .flipUndefined
      else if r.hasShowColor then .ok (configOf r o h) else .error .noShowColor := by
  unfold buildConfig
  rw [ho]
  exact dif_pos h

/-- A configuration is built from nothing but a legal record with `FLIP = 0` and `HAS_SHOWCOLOR = 1`, and is that record's. -/
theorem buildConfig_eq_ok {r : RawConfig} {cfg : Config} :
    buildConfig r = .ok cfg ↔
      ∃ (o : ColorOrder) (h : NumbersLegal r), orderOfCode r.order = some o ∧ r.flip = false ∧ r.hasShowColor = true ∧
        cfg = configOf r o h := by
  constructor
  · intro hb
    cases ho : orderOfCode r.order with
    | none => rw [buildConfig_of_no_order ho] at hb; cases hb
    | some o =>
      by_cases hl : NumbersLegal r
      · rw [buildConfig_of_legal ho hl] at hb
        split_ifs at hb with hf hs
        cases hb
        exact ⟨o, hl, rfl, by simpa using hf, hs, rfl⟩
      · rw [buildConfig_of_not_legal hl] at hb; cases hb
  · rintro ⟨o, hl, ho, hf, hs, rfl⟩
    rw [buildConfig_of_legal ho hl]
    simp [hf, hs]

/-! ## The configuration along a run -/

@[simp] theorem finishCycle_cfg (t : State) (st : Option (Addr × Byte)) : (finishCycle t st).cfg = t.cfg := by
  obtain ⟨m, r, h⟩ := finishCycle_frame t st
  rw [h]

@[simp] theorem acceptedState_cfg (i : Instr) (s : State) : (acceptedState i s).cfg = s.cfg := by
  cases i <;> rfl

@[simp] theorem resetCycle_cfg (s : State) (st : Option (Addr × Byte)) : (resetCycle s st).cfg = s.cfg := by
  obtain ⟨m, h⟩ := s.resetBlock.hostStores_frame st
  unfold resetCycle
  rw [h]
  rfl

/-- No step changes the configuration: not a reset, an acceptance, an idle cycle or a cycle of the sequencer. -/
theorem step_cfg {s t : State} (h : step s = .next t) : t.cfg = s.cfg := by
  obtain ⟨-, rfl⟩ | ⟨-, -, -, i, -, -, rfl⟩ | ⟨-, -, -, rfl⟩ | ⟨-, -, -, rfl⟩ := step_cases h
  · exact resetCycle_cfg s _
  · rw [finishCycle_cfg, acceptedState_cfg]
  · exact finishCycle_cfg s _
  · rw [finishCycle_cfg, (s.sequencerCycle_keeps s.port).cfg]

/-! ## The obligations -/

/-- Settles O1: a record is refused for its order or its numbers before FLIP and HAS_SHOWCOLOR are looked at, so
`buildConfig_eq_ok` and the refusals of `buildConfig_of_legal` cover every record. -/
theorem legalConfigurationsAreBuiltOthersRefused : Obligations.LegalConfigurationsAreBuiltOthersRefused := by
  refine ⟨fun r cfg hb => ?_, channelAt_bijective, fun r o h1 h2 h3 ht hc hs hcode => ?_, fun r hbad => ?_⟩
  · obtain ⟨o, ⟨h1, h2, h3, ht, hc, hs⟩, ho, hflip, hshow, rfl⟩ := buildConfig_eq_ok.1 hb
    exact ⟨h1, h2, h3, ht, hc, hs, hflip, hshow, orderOfCode_eq_some.1 ho, rfl, rfl, rfl, rfl, rfl, rfl, rfl, rfl, rfl⟩
  · have hl : NumbersLegal r := ⟨h1, h2, h3, ht, hc, hs⟩
    have ho : orderOfCode r.order = some o := orderOfCode_eq_some.2 hcode
    refine ⟨fun hflip => ?_, fun hflip hshow => ?_, fun hflip hshow => ?_⟩
    · simp [buildConfig_of_legal ho hl, hflip]
    · simp [buildConfig_of_legal ho hl, hflip, hshow]
    · exact ⟨configOf r o hl, buildConfig_eq_ok.2 ⟨o, hl, ho, hflip, hshow, rfl⟩, rfl⟩
  · simp only [← or_assoc] at hbad
    obtain hnumber | hperm := hbad
    · refine buildConfig_of_not_legal fun ⟨_, _, _, _, _, _⟩ => ?_
      omega
    · exact buildConfig_of_no_order (orderOfCode_eq_none.2 hperm)

/-- Settles O2: what every step keeps, every run keeps, from any state. -/
theorem configurationNeverChanges : Obligations.ConfigurationNeverChanges := by
  intro k s u hrun
  exact runFor_induct (P := fun t => t.cfg = s.cfg) (fun _ _ hcfg hstep => (step_cfg hstep).trans hcfg) rfl hrun

end Sys2Proof.Machine
end

