-- ==== Sys2Proof/Proofs/Invariant.lean ====
section
/-! PROOFS. The invariant of Safety.lean: the state after reset meets it and every step keeps it (spec/10_state.md R20 to R39). -/

namespace Sys2Proof.Machine

/-! ## Outside SETUP and XMIT -/

/-- Outside SETUP and XMIT the counter, the indices and the SETUP cycles are free; the look-ahead rests and the pin is low. -/
theorem inv_of_engine_off {s : State} (hsetup : s.cst ≠ .setup) (hxmit : s.cst ≠ .xmit) (hprep : s.prep = .none)
    (hpin : s.pinOut = false) (hmem : s.MemOk) (hlatches : s.LatchesOk) (hclock : s.ClockOk) (hdither : s.DitherOk)
    (hrace : s.RaceOk) (htick : s.TickOk) : s.Inv where
  mem := hmem
  latches := hlatches
  clock := hclock
  setup h := absurd h hsetup
  counter h := absurd h hxmit
  position := ⟨fun h => absurd h hxmit, fun h => absurd h hsetup⟩
  pin := ⟨fun h => absurd h hxmit, fun _ => hpin⟩
  dither := hdither
  prep := ⟨fun _ _ => hprep, fun _ h => absurd h hsetup, fun _ h => absurd h hxmit, by simp [hprep], fun h => absurd h hxmit⟩
  race := hrace
  tick := htick

/-- What the invariant says of a state outside SETUP and XMIT: no preparation is under way and the pin is low. -/
theorem State.Inv.engine_off {s : State} (h : s.Inv) (hsetup : s.cst ≠ .setup) (hxmit : s.cst ≠ .xmit) :
    s.prep = .none ∧ s.pinOut = false :=
  ⟨h.prep.1 hsetup hxmit, h.pin.2 hxmit⟩

/-- An idle block's latches, dither registers and noted races are free. -/
theorem inv_of_idle {s : State} (hcst : s.cst = .idle) (hprep : s.prep = .none) (hpin : s.pinOut = false) (hmem : s.MemOk)
    (hclock : s.ClockOk) : s.Inv := by
  refine inv_of_engine_off ?_ ?_ hprep hpin hmem (fun hbusy => absurd hcst hbusy) hclock ?_ (fun hbusy => absurd hcst hbusy) ?_
  · simp [hcst]
  · simp [hcst]
  · simp [State.DitherOk, State.Seeded, hcst]
  · simp [State.TickOk, hcst]

/-- A block that has just accepted a frame command: its latches keep the bounds of R255 and nothing has raced yet. -/
theorem inv_of_waitIdle {s : State} (hcst : s.cst = .waitIdle) (hf : s.busyFault = none) (hrace : s.superseded = [])
    (hprep : s.prep = .none) (hpin : s.pinOut = false) (hmem : s.MemOk) (hclock : s.ClockOk) : s.Inv := by
  refine inv_of_engine_off ?_ ?_ hprep hpin hmem (fun _ => hf) hclock ?_ ?_ ?_
  · simp [hcst]
  · simp [hcst]
  · simp [State.DitherOk, State.Seeded, hcst]
  · simp [State.RaceOk, hrace]
  · simp [State.TickOk, hcst]

/-! ## Reset -/

/-- The reset state of a configuration meets the invariant over any canonical memory (10_state.md R39). -/
theorem resetWith_inv {cfg : Config} {m : Memory} (ps : List PortIn) (es : List Event) (x : Nat) (hm : m.wf = true) :
    (State.resetWith cfg m ps es x).Inv :=
  inv_of_idle rfl rfl rfl hm (le_refl 0)

/-- A cycle with RST leads to the reset state of the same configuration, around what is outside the block (log 25). -/
theorem resetCycle_eq (s : State) (st : Option (Addr × Byte)) :
    resetCycle s st = State.resetWith s.cfg (s.hostStores st).mem s.ports.tail s.trace s.freeIx := by
  cases st <;> rfl

theorem resetCycle_inv {s : State} (st : Option (Addr × Byte)) (h : s.Inv) : (resetCycle s st).Inv := by
  rw [resetCycle_eq]
  exact resetWith_inv _ _ _ (s.hostStores_wf st h.mem)

/-! ## Acceptance -/

/-- An admitted command keeps the invariant: INIT stays in IDLE, a frame command goes to WAITIDLE (R171, R180). -/
theorem acceptedState_inv {s : State} {i : Instr} (h : s.Inv) (hidle : s.cst = .idle) (hw : i.wellFormed s.cfg = true) :
    (acceptedState i s).Inv := by
  obtain ⟨hprep, hpin⟩ := h.engine_off (by simp [hidle]) (by simp [hidle])
  cases i with
  | init => exact inv_of_idle hidle hprep rfl h.mem h.clock
  | showFrame base n sc =>
    obtain ⟨hbuffer, htick⟩ := Bool.and_eq_true_iff.1 hw
    exact inv_of_waitIdle rfl (State.busyFault_none.2 ⟨nofun, fun _ => hbuffer, htick⟩) rfl hprep hpin h.mem h.clock
  | showColor color n sc =>
    exact inv_of_waitIdle rfl (State.busyFault_none.2 ⟨nofun, nofun, hw⟩) rfl hprep hpin h.mem h.clock
  | clear n =>
    exact inv_of_waitIdle rfl (State.busyFault_none.2 ⟨nofun, nofun, hw⟩) rfl hprep hpin h.mem h.clock

/-! ## ADJUST and RESTORE -/

theorem State.writeBack_frame (s : State) : ∃ d x, s.writeBack = { s with dstore := d, freeIx := x } := by
  unfold State.writeBack
  split_ifs <;> exact ⟨_, _, rfl⟩

/-- ADJUST (43_controller_commands.md R175). -/
theorem adjust_inv {s : State} (h : s.Inv) (hc : s.cst = .adjust) (hf : s.busyFault = none) : s.adjustCycle.Inv := by
  obtain ⟨hprep, hpin⟩ := h.engine_off (by simp [hc]) (by simp [hc])
  have hdither : s.DitherNow := h.dither (.inr (.inl hc))
  have hrace : s.RaceNow := h.race (by simp [hc])
  unfold State.adjustCycle
  obtain ⟨d, x, e⟩ := s.writeBack_frame
  rw [e]
  exact inv_of_engine_off nofun nofun hprep hpin h.mem (fun _ => hf) h.clock (fun _ => hdither) (fun _ => hrace) nofun

/-- RESTORE (43_controller_commands.md R176): the mark is this very cycle, so not in the future. -/
theorem restore_inv {s : State} (h : s.Inv) (hc : s.cst = .restore) : s.restoreCycle.Inv := by
  obtain ⟨hprep, hpin⟩ := h.engine_off (by simp [hc]) (by simp [hc])
  exact inv_of_idle rfl hprep hpin h.mem (le_refl s.now)

/-! ## The step -/

/-- A cycle of the sequencer keeps the invariant, phase by phase. -/
theorem sequencerCycle_inv {s : State} (p : PortIn) (h : s.Inv) (hf : s.busyFault = none) : (s.sequencerCycle p).Inv := by
  unfold State.sequencerCycle
  split
  · exact h
  · next hc => exact waitIdle_inv p h hc hf
  · next hc => exact setup_inv p h hc hf
  · next hc => exact xmit_inv p h hc hf
  · next hc => exact adjust_inv h hc hf
  · next hc => exact restore_inv h hc

/-- Settles O52: each of the four things a step can be (`step_cases`) keeps the invariant, and so does what ends every cycle
(`inv_finish`). -/
theorem everyStepKeepsTheInvariant : Obligations.EveryStepKeepsTheInvariant := by
  intro s t h hstep
  obtain ⟨-, rfl⟩ | ⟨-, hidle, -, i, -, hw, rfl⟩ | ⟨-, -, -, rfl⟩ | ⟨-, -, hf, rfl⟩ := step_cases hstep
  · exact resetCycle_inv _ h
  · exact inv_finish _ (acceptedState_inv h hidle hw)
  · exact inv_finish _ h
  · exact inv_finish _ (sequencerCycle_inv _ h hf)

/-- Settles O53: the reset state of every configuration over a canonical memory is an idle block at rest; `State.reset` is one over the
empty memory. -/
theorem resetMeetsTheInvariant : Obligations.ResetMeetsTheInvariant :=
  ⟨resetWith_inv _ _ _ rfl, fun _ _ ps es x hm => resetWith_inv ps es x hm⟩

end Sys2Proof.Machine
end

