-- ==== Sys2Proof/Proofs/Ports.lean ====
section
/-! PROOFS. What a cycle reads of the input wires: the sequencer looks at the wires of its own cycle only, at `MEM_ACK` only while a
request is outstanding, and an idle block at the command port (spec/10_state.md R41, R42; spec/60_exceptions.md R215). -/

namespace Sys2Proof.Machine

/-! ## Operations that ignore the list of inputs -/

/-- `s` with other input wires in this cycle and in those to come. -/
def State.withPorts (s : State) (ps : List PortIn) : State := { s with ports := ps }

@[simp] theorem State.withPorts_cfg (s : State) (ps : List PortIn) : (s.withPorts ps).cfg = s.cfg := rfl
@[simp] theorem State.withPorts_cst (s : State) (ps : List PortIn) : (s.withPorts ps).cst = s.cst := rfl
@[simp] theorem State.withPorts_prep (s : State) (ps : List PortIn) : (s.withPorts ps).prep = s.prep := rfl
@[simp] theorem State.withPorts_op (s : State) (ps : List PortIn) : (s.withPorts ps).op = s.op := rfl
@[simp] theorem State.withPorts_busyFault (s : State) (ps : List PortIn) : (s.withPorts ps).busyFault = s.busyFault := rfl

/-- `f` neither reads nor writes the list of inputs. -/
def IgnoresPorts (f : State → State) : Prop := ∀ s ps, f (s.withPorts ps) = (f s).withPorts ps

theorem IgnoresPorts.comp {f g : State → State} (hg : IgnoresPorts g) (hf : IgnoresPorts f) : IgnoresPorts (fun s => g (f s)) :=
  fun s ps => (congrArg g (hf s ps)).trans (hg (f s) ps)

/-- A choice under a condition that does not look at the inputs. -/
theorem IgnoresPorts.ite {c : State → Prop} {_ : DecidablePred c} {f g : State → State}
    (hc : ∀ s ps, c (s.withPorts ps) ↔ c s) (hf : IgnoresPorts f) (hg : IgnoresPorts g) :
    IgnoresPorts (fun s => if c s then f s else g s) := by
  intro s ps
  simp only [hc s ps, hf s ps, hg s ps]
  exact (apply_ite (State.withPorts · ps) _ _ _).symm

theorem ignoresPorts_id : IgnoresPorts (fun s => s) := fun _ _ => rfl

/-! ## The look-ahead -/

theorem finishByte_ignoresPorts (raw : Byte) : IgnoresPorts (State.finishByte · raw) :=
  .ite (fun _ _ => Iff.rfl) (fun _ _ => rfl) (fun _ _ => rfl)

theorem takeRaw_ignoresPorts (raw : Byte) : IgnoresPorts (State.takeRaw · raw) :=
  .ite (fun _ _ => Iff.rfl) (finishByte_ignoresPorts raw) (fun _ _ => rfl)

theorem usePick_ignoresPorts (a : Addr) (st : Option (Addr × Byte)) : IgnoresPorts (State.usePick · a st) :=
  .ite (fun _ _ => Iff.rfl) ignoresPorts_id (fun _ _ => rfl)

theorem prepCycle_ignoresPorts (p : PortIn) : IgnoresPorts (State.prepCycle · p) := by
  intro s ps
  simp only [State.prepCycle, State.withPorts_prep]
  cases s.prep with
  | none => rfl
  | pending => rfl
  | ready => rfl
  | reading a =>
    dsimp only
    split_ifs
    · have hpick : (s.withPorts ps).usePick a p.hostStore = (s.usePick a p.hostStore).withPorts ps :=
        usePick_ignoresPorts a p.hostStore s ps
      rw [hpick]
      exact takeRaw_ignoresPorts (s.fetched a p.hostStore) ((s.usePick a p.hostStore).emit (.read a)) ps
    · rfl
  | computing raw left =>
    dsimp only
    split_ifs
    · exact finishByte_ignoresPorts raw s ps
    · rfl

theorem startPrep_ignoresPorts : IgnoresPorts State.startPrep := by
  intro s ps
  simp only [State.startPrep, State.withPorts_op]
  cases s.op <;> rfl

theorem issue_ignoresPorts (go : Bool) : IgnoresPorts (State.issue · go) :=
  .ite (fun _ _ => Iff.rfl) startPrep_ignoresPorts ignoresPorts_id

theorem openWindow_ignoresPorts : IgnoresPorts State.openWindow := by
  intro s ps
  simp only [State.openWindow, State.withPorts_prep]
  cases s.prep <;> rfl

/-! ## The loop of XMIT -/

theorem microOps_ignoresPorts : IgnoresPorts State.microOps :=
  .ite (fun _ _ => Iff.rfl) (fun _ _ => rfl) <| .ite (fun _ _ => Iff.rfl) (fun _ _ => rfl) <|
    .ite (fun _ _ => Iff.rfl) (fun _ _ => rfl) ignoresPorts_id

theorem nextIndex_ignoresPorts : IgnoresPorts State.nextIndex :=
  .ite (fun _ _ => Iff.rfl) (fun _ _ => rfl) (fun _ _ => rfl)

theorem loadNext_ignoresPorts (r : Bool) : IgnoresPorts (State.loadNext · r) :=
  .ite (fun _ _ => Iff.rfl) (fun _ _ => rfl) (fun _ _ => rfl)

theorem count_ignoresPorts : IgnoresPorts State.count := fun _ _ => rfl

theorem enterAdjust_ignoresPorts : IgnoresPorts State.enterAdjust := fun _ _ => rfl

theorem endFrame_ignoresPorts : IgnoresPorts State.endFrame :=
  .ite (fun _ _ => Iff.rfl) (fun _ _ => rfl) enterAdjust_ignoresPorts

theorem xmitNext_ignoresPorts (r : Bool) : IgnoresPorts (State.xmitNext · r) :=
  .ite (fun _ _ => Iff.rfl) count_ignoresPorts <| .ite (fun _ _ => Iff.rfl) (fun _ _ => rfl) <|
    .ite (fun _ _ => Iff.rfl)
      (count_ignoresPorts.comp (openWindow_ignoresPorts.comp ((loadNext_ignoresPorts r).comp nextIndex_ignoresPorts)))
      endFrame_ignoresPorts

theorem beginXmitCycle_ignoresPorts (go : Bool) : IgnoresPorts (State.beginXmitCycle · go) :=
  .ite (fun _ _ => Iff.rfl) (microOps_ignoresPorts.comp (issue_ignoresPorts go)) ignoresPorts_id

theorem xmitCycle_ignoresPorts (p : PortIn) : IgnoresPorts (State.xmitCycle · p) := fun s ps =>
  ((beginXmitCycle_ignoresPorts p.go).comp ((xmitNext_ignoresPorts (s.prep == .ready)).comp (prepCycle_ignoresPorts p))) s ps

/-! ## The phases -/

theorem enterSetup_ignoresPorts (go : Bool) : IgnoresPorts (State.enterSetup · go) :=
  (issue_ignoresPorts go).comp
    (f := fun s => (({ s with setupLeft := s.cfg.setupLat, late := false,
                              prep := if s.nleds = 0 then .none else .pending } : State).goto .setup).emit .irqOff)
    (fun _ _ => rfl)

theorem waitIdleCycle_ignoresPorts (p : PortIn) : IgnoresPorts (State.waitIdleCycle · p) :=
  .ite (fun _ _ => Iff.rfl) (enterSetup_ignoresPorts p.go) ignoresPorts_id

theorem seedFirst_ignoresPorts : IgnoresPorts State.seedFirst :=
  .ite (fun _ _ => Iff.rfl) (fun _ _ => rfl) ignoresPorts_id

theorem firstByte_ignoresPorts : IgnoresPorts State.firstByte :=
  .ite (fun _ _ => Iff.rfl) ignoresPorts_id (fun _ _ => rfl)

theorem enterXmit_ignoresPorts : IgnoresPorts State.enterXmit :=
  openWindow_ignoresPorts.comp
    (f := fun s => ({ s with cnt := (countStart s.cfg).1, wrap := (countStart s.cfg).2 } : State).goto .xmit) (fun _ _ => rfl)

theorem leaveSetup_ignoresPorts (go : Bool) : IgnoresPorts (State.leaveSetup · go) :=
  .ite (fun _ _ => Iff.rfl) enterAdjust_ignoresPorts
    ((beginXmitCycle_ignoresPorts go).comp (enterXmit_ignoresPorts.comp firstByte_ignoresPorts))

theorem endSetupCycle_ignoresPorts (go : Bool) : IgnoresPorts (State.endSetupCycle · go) :=
  .ite (fun _ _ => Iff.rfl) (leaveSetup_ignoresPorts go)
    ((issue_ignoresPorts go).comp (f := fun s => { s with setupLeft := s.setupLeft - 1 }) (fun _ _ => rfl))

theorem setupCycle_ignoresPorts (p : PortIn) : IgnoresPorts (State.setupCycle · p) :=
  (endSetupCycle_ignoresPorts p.go).comp ((prepCycle_ignoresPorts p).comp seedFirst_ignoresPorts)

theorem writeBack_ignoresPorts : IgnoresPorts State.writeBack :=
  .ite (fun _ _ => Iff.rfl) (fun _ _ => rfl) (fun _ _ => rfl)

theorem adjustCycle_ignoresPorts : IgnoresPorts State.adjustCycle := fun s ps => by
  unfold State.adjustCycle
  rw [writeBack_ignoresPorts s ps]
  rfl

/-- A cycle of the sequencer looks at the wires it is given, not at the list they come from. -/
theorem sequencerCycle_ignoresPorts (p : PortIn) : IgnoresPorts (State.sequencerCycle · p) := by
  intro s ps
  simp only [State.sequencerCycle, State.withPorts_cst]
  cases s.cst with
  | idle => rfl
  | waitIdle => exact waitIdleCycle_ignoresPorts p s ps
  | setup => exact setupCycle_ignoresPorts p s ps
  | xmit => exact xmitCycle_ignoresPorts p s ps
  | adjust => exact adjustCycle_ignoresPorts s ps
  | restore => rfl

/-! ## The wires of the running cycle -/

/-- Without a request outstanding a cycle of the sequencer looks at the input go alone (R42, R215). -/
theorem sequencerCycle_of_no_request {s : State} {p q : PortIn} (hreq : s.memReq = false) (hgo : p.go = q.go) :
    s.sequencerCycle p = s.sequencerCycle q := by
  have hseed : s.seedFirst.memReq = false := by
    unfold State.seedFirst
    split_ifs <;> exact hreq
  unfold State.sequencerCycle
  cases s.cst with
  | idle => rfl
  | waitIdle => simp only [State.waitIdleCycle, hgo]
  | setup => simp only [State.setupCycle, State.prepCycle_ack _ hseed p q, hgo]
  | xmit => simp only [State.xmitCycle, s.prepCycle_ack hreq p q, hgo]
  | adjust => rfl
  | restore => rfl

/-! ## The step -/

theorem noteRace_ignoresPorts (st : Option (Addr × Byte)) : IgnoresPorts (State.noteRace · st) := by
  match st with
  | none => exact ignoresPorts_id
  | some (a, v) => exact .ite (fun _ _ => Iff.rfl) (fun _ _ => rfl) ignoresPorts_id

theorem finishCycle_withPorts (t : State) (ps : List PortIn) (st : Option (Addr × Byte)) :
    finishCycle (t.withPorts ps) st = (finishCycle t st).withPorts ps.tail := by
  have hrace : (t.withPorts ps).noteRace st = (t.noteRace st).withPorts ps := noteRace_ignoresPorts st t ps
  unfold finishCycle
  rw [hrace]
  cases st <;> rfl

/-- The end of a cycle drops the wires of this cycle and looks at none of them. -/
theorem finishCycle_congr_ports {t : State} {ps : List PortIn} (st : Option (Addr × Byte)) (h : ps.tail = t.ports.tail) :
    finishCycle (t.withPorts ps) st = finishCycle t st := by
  obtain ⟨m, r, e⟩ := finishCycle_frame t st
  rw [finishCycle_withPorts, h, e]
  rfl

/-- A frame command goes to WAITIDLE, or is refused, whatever is on the wires. -/
theorem finishAccept_acceptFrame_withPorts {s : State} {ps : List PortIn} (n : BitVec 16) (st : Option (Addr × Byte))
    (h : ps.tail = s.ports.tail) : finishAccept st (acceptFrame n (s.withPorts ps)) = finishAccept st (acceptFrame n s) := by
  unfold acceptFrame
  rw [State.withPorts_cfg]
  split_ifs
  · exact congrArg Host.Outcome.next (finishCycle_congr_ports (t := (s.goto .waitIdle).freshLoan) st h)
  · rfl

/-- A command is admitted or refused for its operands, and its effect is the same, whatever is on the wires. -/
theorem finishAccept_exec_withPorts {s : State} {ps : List PortIn} (i : Instr) (st : Option (Addr × Byte))
    (h : ps.tail = s.ports.tail) : finishAccept st (exec i (s.withPorts ps)) = finishAccept st (exec i s) := by
  cases i with
  | init => exact congrArg Host.Outcome.next (finishCycle_congr_ports (t := acceptedState .init s) st h)
  | showFrame base n sc =>
    simp only [exec, execShow]
    by_cases hb : bufferFits s.cfg base n = true
    · rw [if_pos (c := bufferFits (s.withPorts ps).cfg base n = true) hb, if_pos hb]
      exact finishAccept_acceptFrame_withPorts (s := (s.latch (.showFrame base n sc)).latchBase base) n st h
    · rw [if_neg (c := bufferFits (s.withPorts ps).cfg base n = true) hb, if_neg hb]
  | showColor color n sc =>
    exact finishAccept_acceptFrame_withPorts (s := (s.latch (.showColor color n sc)).latchColor color) n st h
  | clear n => exact finishAccept_acceptFrame_withPorts (s := s.latch (.clear n)) n st h

/-- What a step reads of the wires of its cycle: RST and the host's store always; the command port in IDLE, the word only with
`CMD_VALID`; and in a busy block what its sequencer reads. -/
theorem step_withPort {s : State} {p : PortIn} (hrst : p.rst = s.port.rst) (hstore : p.hostStore = s.port.hostStore)
    (hvalid : s.cst = .idle → p.cmdValid = s.port.cmdValid)
    (hword : s.cst = .idle → s.port.cmdValid = true → p.cmdWord = s.port.cmdWord)
    (hseq : s.cst ≠ .idle → s.sequencerCycle p = s.sequencerCycle s.port) :
    step (s.withPorts (p :: s.ports.tail)) = step s := by
  have hport : (s.withPorts (p :: s.ports.tail)).port = p := rfl
  unfold step
  rw [hport, hrst, hstore, State.withPorts_cst, State.withPorts_busyFault]
  by_cases hr : s.port.rst = true
  · rw [if_pos hr, if_pos hr, resetCycle_eq, resetCycle_eq]
    cases s.port.hostStore <;> rfl
  rw [if_neg hr, if_neg hr]
  by_cases hi : s.cst = .idle
  · rw [if_pos hi, if_pos hi, hvalid hi]
    by_cases hv : s.port.cmdValid = true
    · rw [if_pos hv, if_pos hv, hword hi hv]
      cases decode s.port.cmdWord with
      | error why => rfl
      | ok i => exact finishAccept_exec_withPorts i _ rfl
    · rw [if_neg hv, if_neg hv]
      exact congrArg Host.Outcome.next (finishCycle_congr_ports s.port.hostStore rfl)
  · have hcycle : (s.withPorts (p :: s.ports.tail)).sequencerCycle p = (s.sequencerCycle p).withPorts (p :: s.ports.tail) :=
      sequencerCycle_ignoresPorts p s _
    rw [if_neg hi, if_neg hi, hcycle, hseq hi, finishCycle_congr_ports]
    rw [(s.sequencerCycle_keeps s.port).ports]
    rfl

/-- Settles O10: `MEM_ACK` is no wire of the command port, and without a request no sequencer reads it. -/
theorem ackWithoutRequestIgnored : Obligations.AckWithoutRequestIgnored :=
  fun _ _ hreq => step_withPort rfl rfl (fun _ => rfl) (fun _ _ => rfl) (fun _ => sequencerCycle_of_no_request hreq rfl)

end Sys2Proof.Machine
end

