-- ==== Sys2Proof/Proofs/Registers.lean ====
section
/-! PROOFS. The registers that outlive a command, who writes them, the status outputs and the state after reset (spec/10_state.md
R27 to R46). -/

namespace Sys2Proof.Machine

/-! ## The status outputs -/

theorem State.busy_iff (s : State) : s.busy = true ↔ s.cst ≠ .idle := by simp [State.busy]

theorem State.cmdReady_iff (s : State) : s.cmdReady = true ↔ s.cst = .idle := by simp [State.cmdReady]

theorem State.irqInhibit_iff (s : State) : s.irqInhibit = true ↔ (s.cst = .setup ∨ s.cst = .xmit ∨ s.cst = .adjust) := by
  unfold State.irqInhibit
  cases s.cst <;> decide

theorem State.tickValid_iff (s : State) : s.tickValid = true ↔ s.cst = .adjust := by simp [State.tickValid]

theorem State.counterEnabled_iff (s : State) : s.counterEnabled = true ↔ s.cst = .xmit := by simp [State.counterEnabled]

/-! ## The registers that outlive a frame -/

/-- `DSTORE` and `LASTMARK` keep their values. -/
structure KeepsRecord (s t : State) : Prop where
  dstore : t.dstore = s.dstore
  lastmark : t.lastmark = s.lastmark

theorem KeepsRecord.trans {s t u : State} (h : KeepsRecord s t) (k : KeepsRecord t u) : KeepsRecord s u :=
  ⟨k.dstore.trans h.dstore, k.lastmark.trans h.lastmark⟩

theorem prepCycle_keepsRecord (s : State) (p : PortIn) : KeepsRecord s (s.prepCycle p) := by
  obtain ⟨_, _, _, _, _, _, e⟩ := s.prepCycle_frame p
  rw [e]; exact ⟨rfl, rfl⟩

theorem beginXmitCycle_keepsRecord (s : State) (go : Bool) : KeepsRecord s (s.beginXmitCycle go) := by
  obtain ⟨_, _, _, e⟩ := s.beginXmitCycle_frame go
  rw [e]; exact ⟨rfl, rfl⟩

theorem xmitNext_keepsRecord (s : State) (r : Bool) : KeepsRecord s (s.xmitNext r) := by
  obtain ⟨_, _, _, _, _, _, _, _, _, _, _, _, e⟩ := s.xmitNext_frame r
  rw [e]; exact ⟨rfl, rfl⟩

theorem xmitCycle_keepsRecord (s : State) (p : PortIn) : KeepsRecord s (s.xmitCycle p) :=
  ((prepCycle_keepsRecord s p).trans (xmitNext_keepsRecord _ _)).trans (beginXmitCycle_keepsRecord _ _)

theorem waitIdleCycle_keepsRecord (s : State) (p : PortIn) : KeepsRecord s (s.waitIdleCycle p) := by
  unfold State.waitIdleCycle
  split_ifs
  · obtain ⟨_, e⟩ := s.enterSetup_frame p.go
    rw [e]; exact ⟨rfl, rfl⟩
  · exact ⟨rfl, rfl⟩

theorem seedFirst_keepsRecord (s : State) : KeepsRecord s s.seedFirst := by
  unfold State.seedFirst
  split_ifs <;> exact ⟨rfl, rfl⟩

theorem leaveSetup_keepsRecord (s : State) (go : Bool) : KeepsRecord s (s.leaveSetup go) := by
  unfold State.leaveSetup
  split_ifs
  · exact ⟨rfl, rfl⟩
  · refine KeepsRecord.trans ?_ (beginXmitCycle_keepsRecord _ _)
    obtain ⟨_, e⟩ := s.firstByte.enterXmit_frame
    obtain ⟨_, _, _, e'⟩ := s.firstByte_frame
    rw [e, e']; exact ⟨rfl, rfl⟩

theorem endSetupCycle_keepsRecord (s : State) (go : Bool) : KeepsRecord s (s.endSetupCycle go) := by
  unfold State.endSetupCycle
  split_ifs
  · exact leaveSetup_keepsRecord s go
  · obtain ⟨_, e⟩ := ({ s with setupLeft := s.setupLeft - 1 } : State).issue_frame go
    rw [e]; exact ⟨rfl, rfl⟩

theorem setupCycle_keepsRecord (s : State) (p : PortIn) : KeepsRecord s (s.setupCycle p) :=
  ((seedFirst_keepsRecord s).trans (prepCycle_keepsRecord _ p)).trans (endSetupCycle_keepsRecord _ _)

/-- In a cycle of the sequencer `DSTORE` is written in ADJUST only (R128). -/
theorem sequencerCycle_dstore {s : State} (p : PortIn) (h : s.cst ≠ .adjust) : (s.sequencerCycle p).dstore = s.dstore := by
  unfold State.sequencerCycle
  split
  · rfl
  · exact (waitIdleCycle_keepsRecord s p).dstore
  · exact (setupCycle_keepsRecord s p).dstore
  · exact (xmitCycle_keepsRecord s p).dstore
  · next hc => exact absurd hc h
  · rfl

/-- In a cycle of the sequencer `LASTMARK` is written in RESTORE only, with `NOW` (R176). -/
theorem sequencerCycle_lastmark (s : State) (p : PortIn) :
    (s.sequencerCycle p).lastmark = if s.cst = .restore then s.now else s.lastmark := by
  unfold State.sequencerCycle
  cases s.cst with
  | idle => rfl
  | waitIdle => exact (waitIdleCycle_keepsRecord s p).lastmark
  | setup => exact (setupCycle_keepsRecord s p).lastmark
  | xmit => exact (xmitCycle_keepsRecord s p).lastmark
  | adjust =>
    obtain ⟨_, _, e⟩ := s.writeBack_frame
    simp only [State.adjustCycle, e]
    rfl
  | restore => rfl

/-! ## The end of a cycle and the accepting cycle -/

@[simp] theorem finishCycle_dstore (t : State) (st : Option (Addr × Byte)) : (finishCycle t st).dstore = t.dstore := by
  obtain ⟨m, r, e⟩ := finishCycle_frame t st
  rw [e]

@[simp] theorem finishCycle_lastmark (t : State) (st : Option (Addr × Byte)) : (finishCycle t st).lastmark = t.lastmark := by
  obtain ⟨m, r, e⟩ := finishCycle_frame t st
  rw [e]

@[simp] theorem finishCycle_pinOe (t : State) (st : Option (Addr × Byte)) : (finishCycle t st).pinOe = t.pinOe := by
  obtain ⟨m, r, e⟩ := finishCycle_frame t st
  rw [e]

@[simp] theorem finishCycle_now (t : State) (st : Option (Addr × Byte)) : (finishCycle t st).now = t.now + 1 := by
  obtain ⟨m, r, e⟩ := finishCycle_frame t st
  rw [e]

@[simp] theorem acceptedState_dstore (i : Instr) (s : State) : (acceptedState i s).dstore = s.dstore := by cases i <;> rfl
@[simp] theorem acceptedState_lastmark (i : Instr) (s : State) : (acceptedState i s).lastmark = s.lastmark := by cases i <;> rfl
@[simp] theorem acceptedState_now (i : Instr) (s : State) : (acceptedState i s).now = s.now := by cases i <;> rfl

/-- An accepted command writes `PIN_OE` if it is INIT, and then 1 (R180). -/
theorem acceptedState_pinOe (i : Instr) (s : State) : (acceptedState i s).pinOe = if i = .init then true else s.pinOe := by
  cases i <;> rfl

/-! ## The obligations -/

/-- Settles O27: of the three things a step without RST can be, an acceptance writes at most `PIN_OE`, an idle cycle none of these
registers, and a cycle of the sequencer `DSTORE` in ADJUST and `LASTMARK` in RESTORE. -/
theorem persistentStateHasOneWriter : Obligations.PersistentStateHasOneWriter := by
  intro s t hr hstep
  obtain ⟨hr', -⟩ | ⟨-, hidle, -, i, hoffer, -, rfl⟩ | ⟨-, -, -, rfl⟩ | ⟨-, -, -, rfl⟩ := step_cases hstep
  · simp [hr] at hr'
  · refine ⟨by simp, by simp, fun hpin => ?_, by simp⟩
    rw [finishCycle_pinOe, acceptedState_pinOe] at hpin ⊢
    split_ifs at hpin ⊢ with hi
    · subst hi
      exact ⟨rfl, hidle, hoffer⟩
    · exact absurd rfl hpin
  · simp
  · have hkeeps := s.sequencerCycle_keeps s.port
    refine ⟨fun hd => ?_, fun hm => ?_, ?_, ?_⟩
    · by_contra hc
      exact hd (by rw [finishCycle_dstore, sequencerCycle_dstore _ hc])
    · rw [finishCycle_lastmark, sequencerCycle_lastmark] at hm ⊢
      split_ifs at hm ⊢ with hc
      · exact ⟨hc, rfl⟩
      · exact absurd rfl hm
    · simp [hkeeps.pinOe]
    · simp [hkeeps.now]

/-- Settles O8: `step_of_offer`, and without a host store the end of the cycle is `NOW` and the next inputs (`finishCycle_none`). -/
theorem stepRunsTheOfferedCommand : Obligations.StepRunsTheOfferedCommand := by
  intro s i hidle hr hoffer
  have hstep := step_of_offer hr hidle hoffer
  refine ⟨hstep, fun t hexec hstore => ?_⟩
  rw [hstep, hexec, hstore, finishAccept, finishCycle_none]

/-- Settles O12: the values of R39 are those `State.resetWith` is written with, and `State.reset` is it in `Config.reference`. -/
theorem stateAfterReset : Obligations.StateAfterReset :=
  ⟨fun _ _ _ _ _ => ⟨rfl, rfl, rfl, rfl, rfl, rfl, rfl, rfl, rfl, rfl, rfl, rfl⟩, rfl⟩

/-- Settles O13: one equivalence per output, read off its definition, and the line as `State.line` gives it. -/
theorem statusOutputsFollowCst : Obligations.StatusOutputsFollowCst :=
  fun s => ⟨s.busy_iff, s.cmdReady_iff, s.irqInhibit_iff, s.tickValid_iff, s.counterEnabled_iff, rfl⟩

end Sys2Proof.Machine
end

