-- ==== Sys2Proof/Proofs/HeldRequest.lean ====
section
/-! PROOFS. A memory request is held with its address until it is acknowledged (spec/10_state.md R42; spec/20_memory.md R72;
spec/93_implementation_defined.md U2). -/

namespace Sys2Proof.Machine

/-! ## The reads of a trace -/

theorem traceReads_append (es fs : List Event) : traceReads (es ++ fs) = traceReads es ++ traceReads fs := by
  induction es with
  | nil => rfl
  | cons e es ih => cases e <;> simp [traceReads, ih]

/-- The micro-operations put bits on the trace, no reads. -/
theorem traceReads_microOps (s : State) : traceReads s.microOps.trace = traceReads s.trace := by
  unfold State.microOps
  split_ifs
  · simp [traceReads_append, traceReads]
  · rfl
  · rfl
  · rfl

/-! ## A cycle with the request unanswered -/

/-- From `s` to `t` the request for the byte at `a` stays outstanding in XMIT, and nothing is read. -/
structure HoldsInXmit (a : Addr) (s t : State) : Prop where
  cst : t.cst = .xmit
  prep : t.prep = .reading a
  reads : traceReads t.trace = traceReads s.trace

/-- A request waits until a cycle acknowledges it. -/
theorem prepCycle_of_no_ack {s : State} {p : PortIn} {a : Addr} (hprep : s.prep = .reading a) (hack : p.memAck = false) :
    s.prepCycle p = s := by
  simp [State.prepCycle, hprep, hack]

theorem issue_of_reading {s : State} {a : Addr} (go : Bool) (hprep : s.prep = .reading a) : s.issue go = s :=
  s.issue_of_ne go (by simp [hprep])

theorem openWindow_of_reading {s : State} {a : Addr} (hprep : s.prep = .reading a) : s.openWindow = s := by
  simp [State.openWindow, hprep]

/-- The micro-operations of a cycle of XMIT leave a request alone. -/
theorem beginXmitCycle_holds {a : Addr} {s t : State} (go : Bool) (h : HoldsInXmit a s t) :
    HoldsInXmit a s (t.beginXmitCycle go) := by
  unfold State.beginXmitCycle
  rw [if_pos h.cst, issue_of_reading go h.prep]
  obtain ⟨_, _, e⟩ := t.microOps_frame
  refine ⟨?_, ?_, (traceReads_microOps t).trans h.reads⟩
  · rw [e]; exact h.cst
  · rw [e]; exact h.prep

/-- The loop of XMIT leaves a request alone: at a byte boundary its window is held, and the last byte of a frame ends XMIT only
without one (U2). -/
theorem xmitNext_holds {a : Addr} {s : State} (r : Bool) (hc : s.cst = .xmit) (hprep : s.prep = .reading a)
    (hlate : s.hasNext = false → s.late = true) : HoldsInXmit a s (s.xmitNext r) := by
  unfold State.xmitNext
  split_ifs with h1 h2 h3
  · exact ⟨hc, hprep, rfl⟩
  · exact ⟨hc, hprep, rfl⟩
  · obtain ⟨_, _, e1⟩ := s.nextIndex_frame
    obtain ⟨_, _, _, e2⟩ := s.nextIndex.loadNext_frame r
    rw [openWindow_of_reading (a := a) (by rw [e2, e1]; exact hprep), e2, e1]
    exact ⟨hc, hprep, rfl⟩
  · unfold State.endFrame
    rw [if_pos (by simp [State.memReq, hprep, hlate (by simpa using h3)])]
    exact ⟨hc, hprep, rfl⟩

theorem xmitCycle_holds {a : Addr} {s : State} {p : PortIn} (h : s.Inv) (hc : s.cst = .xmit) (hprep : s.prep = .reading a)
    (hack : p.memAck = false) : HoldsInXmit a s (s.xmitCycle p) := by
  have hlate : s.hasNext = false → s.late = true := by
    intro hlast
    by_contra hl
    obtain ⟨-, -, -, -, hlastByte⟩ := h.prep
    have hnone := hlastByte hc hlast (by simpa using hl)
    simp [hprep] at hnone
  unfold State.xmitCycle
  rw [prepCycle_of_no_ack hprep hack]
  exact beginXmitCycle_holds _ (xmitNext_holds _ hc hprep hlate)

/-- SETUP ends in XMIT with the request still outstanding: a request means that the frame has a pixel. -/
theorem leaveSetup_holds {a : Addr} {s : State} (go : Bool) (hn : s.nleds ≠ 0) (hprep : s.prep = .reading a) :
    HoldsInXmit a s (s.leaveSetup go) := by
  unfold State.leaveSetup
  rw [if_neg hn]
  refine beginXmitCycle_holds go ?_
  obtain ⟨_, _, _, e⟩ := s.firstByte_frame
  unfold State.enterXmit
  rw [openWindow_of_reading (a := a) (by rw [e]; exact hprep), e]
  exact ⟨rfl, hprep, rfl⟩

theorem seedFirst_frame (s : State) : ∃ sr er dr p k b, s.seedFirst =
    { s with sreg := sr, ereg := er, dreg := dr, pix := p, slot := k, biti := b } := by
  unfold State.seedFirst
  split_ifs <;> exact ⟨_, _, _, _, _, _, rfl⟩

/-- From `s` to `t` the request for the byte at `a` stays outstanding, in SETUP or XMIT, XMIT is not left, and nothing is read. -/
structure HoldsRequest (a : Addr) (s t : State) : Prop where
  cst : t.cst = .setup ∨ t.cst = .xmit
  stays : s.cst = .xmit → t.cst = .xmit
  prep : t.prep = .reading a
  reads : traceReads t.trace = traceReads s.trace

theorem HoldsRequest.trans {a : Addr} {s t u : State} (h : HoldsRequest a s t) (k : HoldsRequest a t u) : HoldsRequest a s u :=
  ⟨k.cst, fun hx => k.stays (h.stays hx), k.prep, k.reads.trans h.reads⟩

theorem HoldsInXmit.holdsRequest {a : Addr} {s t : State} (h : HoldsInXmit a s t) : HoldsRequest a s t :=
  ⟨.inr h.cst, fun _ => h.cst, h.prep, h.reads⟩

/-- Under the invariant a request is outstanding in SETUP and XMIT only. -/
theorem cst_of_reading {a : Addr} {s : State} (h : s.Inv) (hprep : s.prep = .reading a) : s.cst = .setup ∨ s.cst = .xmit := by
  by_contra hc
  obtain ⟨hsetup, hxmit⟩ := not_or.1 hc
  simp [(h.engine_off hsetup hxmit).1] at hprep

/-- Under the invariant a request is for a byte of the buffer, so the frame has a pixel. -/
theorem nleds_ne_zero_of_reading {a : Addr} {s : State} (h : s.Inv) (hprep : s.prep = .reading a) : s.nleds ≠ 0 := by
  intro hn
  have hzero : s.nleds.toNat = 0 := by simp [hn]
  obtain ⟨-, -, -, hreading, -⟩ := h.prep
  obtain ⟨-, hbuffer⟩ := hreading a hprep
  simp only [inBuffer, Bool.and_eq_true, decide_eq_true_eq] at hbuffer
  omega

theorem setupCycle_holds {a : Addr} {s : State} {p : PortIn} (h : s.Inv) (hc : s.cst = .setup) (hprep : s.prep = .reading a)
    (hack : p.memAck = false) : HoldsRequest a s (s.setupCycle p) := by
  have hn : s.seedFirst.nleds ≠ 0 := by
    rw [s.seedFirst_keeps.nleds]
    exact nleds_ne_zero_of_reading h hprep
  obtain ⟨_, _, _, _, _, _, e⟩ := seedFirst_frame s
  have hprep' : s.seedFirst.prep = .reading a := by rw [e]; exact hprep
  have hseed : HoldsRequest a s s.seedFirst := by
    rw [e]
    exact ⟨.inl hc, id, hprep, rfl⟩
  unfold State.setupCycle State.endSetupCycle
  rw [prepCycle_of_no_ack hprep' hack]
  split_ifs
  · exact hseed.trans (leaveSetup_holds p.go hn hprep').holdsRequest
  · rw [issue_of_reading (s := { s.seedFirst with setupLeft := s.seedFirst.setupLeft - 1 }) p.go hprep']
    exact ⟨hseed.cst, hseed.stays, hprep', hseed.reads⟩

/-- A cycle of the sequencer that is not acknowledged holds the request. -/
theorem sequencerCycle_holds {a : Addr} {s : State} {p : PortIn} (h : s.Inv) (hprep : s.prep = .reading a)
    (hack : p.memAck = false) : HoldsRequest a s (s.sequencerCycle p) := by
  unfold State.sequencerCycle
  obtain hc | hc := cst_of_reading h hprep
  · simp only [hc]
    exact setupCycle_holds h hc hprep hack
  · simp only [hc]
    exact (xmitCycle_holds h hc hprep hack).holdsRequest

/-- What ends every cycle holds the request. -/
theorem finishCycle_holds {a : Addr} {s t : State} (st : Option (Addr × Byte)) (h : HoldsRequest a s t) :
    HoldsRequest a s (finishCycle t st) := by
  obtain ⟨m, r, e⟩ := finishCycle_frame t st
  rw [e]
  exact ⟨h.cst, h.stays, h.prep, h.reads⟩

/-- A step with a request outstanding, without reset and without acknowledge, goes on and holds it. -/
theorem step_holds {a : Addr} {s : State} (h : s.Inv) (hprep : s.prep = .reading a) (hr : s.port.rst = false)
    (hack : s.port.memAck = false) : ∃ t, step s = .next t ∧ t.ports = s.ports.tail ∧ HoldsRequest a s t := by
  have hbusy : s.cst ≠ .idle := by
    obtain hc | hc := cst_of_reading h hprep <;> simp [hc]
  refine ⟨_, step_of_busy hr hbusy (h.latches hbusy), ?_, finishCycle_holds _ (sequencerCycle_holds h hprep hack)⟩
  obtain ⟨m, r, e⟩ := finishCycle_frame (s.sequencerCycle s.port) s.port.hostStore
  rw [e, (s.sequencerCycle_keeps s.port).ports]

/-! ## Any number of cycles -/

theorem State.port_eq_portAt_zero (s : State) : s.port = s.portAt 0 := by
  unfold State.port State.portAt
  cases s.ports <;> rfl

theorem portAt_of_ports_tail {s t : State} (h : t.ports = s.ports.tail) (j : Nat) : t.portAt j = s.portAt (j + 1) := by
  unfold State.portAt
  rw [h]
  cases s.ports <;> rfl

/-- A run in which no cycle acknowledges the request holds it, however long it is. -/
theorem runFor_holds {a : Addr} {s : State} (k : Nat) (h : s.Inv) (hprep : s.prep = .reading a) (hr : s.Undisturbed k)
    (hack : ∀ j < k, (s.portAt j).memAck = false) : ∃ u, runFor k s = .next u ∧ HoldsRequest a s u := by
  induction k generalizing s with
  | zero => exact ⟨s, rfl, cst_of_reading h hprep, id, hprep, rfl⟩
  | succ k ih =>
    have hr0 : s.port.rst = false := s.port_eq_portAt_zero ▸ hr 0 k.succ_pos
    have hack0 : s.port.memAck = false := s.port_eq_portAt_zero ▸ hack 0 k.succ_pos
    obtain ⟨t, hstep, hports, hholds⟩ := step_holds h hprep hr0 hack0
    have hlater := portAt_of_ports_tail hports
    obtain ⟨u, hrun, hholds'⟩ := ih (everyStepKeepsTheInvariant s t h hstep) hholds.prep
      (fun j hj => hlater j ▸ hr (j + 1) (by omega)) (fun j hj => hlater j ▸ hack (j + 1) (by omega))
    exact ⟨u, (runFor_succ hstep).trans hrun, hholds.trans hholds'⟩

/-- Settles O58: the request is held over the whole run (`runFor_holds`), and in SETUP and XMIT both outputs are 1. -/
theorem requestIsHeldUntilAnswered : Obligations.RequestIsHeldUntilAnswered := by
  intro s a k h hprep hr hack
  obtain ⟨u, hrun, hcst, hstays, hreading, hreads⟩ := runFor_holds k h hprep hr hack
  refine ⟨u, hrun, ?_, ?_, hreads, hcst, hstays, u.busy_iff.2 ?_, u.irqInhibit_iff.2 ?_⟩
  · simp [State.memReq, hreading]
  · simp [State.memAddr, hreading]
  · obtain hc | hc := hcst <;> simp [hc]
  · exact hcst.imp_right .inl

end Sys2Proof.Machine
end

