-- ==== Sys2Proof/Proofs/HostMemory.lean ====
section
/-! PROOFS. The bounds a command has to keep, and memory as the host's: who writes it and what a read of a raced byte returns
(spec/20_memory.md R60, R64, R66, R69 to R71). -/

namespace Sys2Proof.Machine

/-! ## The two bounds of R255 -/

theorem bufferFits_iff {cfg : Config} {base : Addr} {n : BitVec 16} :
    bufferFits cfg base n = true ↔ base.toNat + cfg.skip + 3 * n.toNat ≤ 2 ^ 32 := decide_eq_true_iff

theorem tickFits_iff {cfg : Config} {n : BitVec 16} : tickFits cfg n = true ↔ tickMs cfg n.toNat < 2 ^ 32 := decide_eq_true_iff

theorem execShow_of_not_bufferFits {s : State} {base : Addr} {n : BitVec 16} (sc : Triple)
    (h : ¬ bufferFits s.cfg base n = true) : execShow base n sc s = .refused .bufferPastTop := if_neg h

theorem acceptFrame_of_not_tickFits {s : State} {n : BitVec 16} (h : ¬ tickFits s.cfg n = true) :
    acceptFrame n s = .refused .tickTooLarge := if_neg h

/-- A frame command within its buffer bound is refused for its tick value alone (U9). -/
theorem exec_of_not_tickFits {s : State} {i : Instr} (hi : i.opcode.isFrame = true) (hb : i.bufferOk s.cfg = true)
    (ht : ¬ tickFits s.cfg i.count = true) : exec i s = .refused .tickTooLarge := by
  cases i with
  | init => cases hi
  | showFrame base n sc =>
    exact (if_pos hb).trans (acceptFrame_of_not_tickFits ht)
  | showColor color n sc => exact acceptFrame_of_not_tickFits ht
  | clear n => exact acceptFrame_of_not_tickFits ht

/-- Settles O18: the two refusals are the two bounds' own branches, and inside both a command is accepted (`exec_next`). -/
theorem onlyTheBoundsAreRefused : Obligations.OnlyTheBoundsAreRefused := by
  refine ⟨fun s base n sc h => ?_, fun s i hi hb ht => ?_, fun s i hw => ⟨_, exec_next.2 ⟨hw, rfl⟩⟩⟩
  · exact execShow_of_not_bufferFits sc (by rw [bufferFits_iff]; omega)
  · exact exec_of_not_tickFits hi hb (by rw [tickFits_iff]; omega)

/-! ## The host's store -/

/-- Every byte after the host's store of a cycle: the one it wrote, and the others as before. -/
theorem State.read_hostStores {s : State} (hm : s.MemOk) (st : Option (Addr × Byte)) (a : Nat) :
    (s.hostStores st).mem.read a = match st with
      | none => s.mem.read a
      | some (x, v) => if a = x.toNat then v else s.mem.read a := by
  cases st with
  | none => rfl
  | some c => exact Memory.read_write s.mem hm c.1.toNat c.2 a

theorem State.hostStores_mem_congr {s t : State} (h : t.mem = s.mem) (st : Option (Addr × Byte)) :
    (t.hostStores st).mem = (s.hostStores st).mem := by
  cases st with
  | none => exact h
  | some c => exact congrArg (·.write c.1.toNat c.2) h

@[simp] theorem acceptedState_mem (i : Instr) (s : State) : (acceptedState i s).mem = s.mem := by cases i <;> rfl

/-- The memory after any step is the one before it with the host's store of that cycle. -/
theorem step_mem {s t : State} (h : step s = .next t) : t.mem = (s.hostStores s.port.hostStore).mem := by
  obtain ⟨-, rfl⟩ | ⟨-, -, -, i, -, -, rfl⟩ | ⟨-, -, -, rfl⟩ | ⟨-, -, -, rfl⟩ := step_cases h
  · rw [resetCycle_eq]; rfl
  · rw [finishCycle_mem, State.hostStores_mem_congr (acceptedState_mem i s)]
  · rw [finishCycle_mem]
  · rw [finishCycle_mem, State.hostStores_mem_congr (s.sequencerCycle_keeps s.port).mem]

/-- Settles O28: no step does anything to memory but the host's store (`step_mem`). -/
theorem onlyTheHostWritesMemory : Obligations.OnlyTheHostWritesMemory := by
  intro s t hm hstep a
  rw [step_mem hstep]
  exact State.read_hostStores hm _ a

/-! ## Races -/

theorem State.lends_iff {s : State} {a : Addr} :
    s.lends a = true ↔ s.cst ≠ .idle ∧ s.op = .showFrame ∧ s.base.toNat + s.cfg.skip ≤ a.toNat ∧
      a.toNat < s.base.toNat + s.cfg.skip + 3 * s.nleds.toNat := by
  simp [State.lends, State.busy_iff, inBuffer, and_assoc]

/-- A store is noted with the value it supersedes if the byte is lent; no other store is. -/
theorem State.noteRace_superseded (s : State) (a : Addr) (v : Byte) :
    (s.noteRace (some (a, v))).superseded = (if s.lends a then [(a, s.mem.read a.toNat)] else []) ++ s.superseded := by
  rw [State.noteRace_some]
  split_ifs <;> rfl

theorem prepCycle_cst (s : State) (p : PortIn) : (s.prepCycle p).cst = s.cst := by
  obtain ⟨_, _, _, _, _, _, e⟩ := s.prepCycle_frame p
  rw [e]

theorem beginXmitCycle_cst (s : State) (go : Bool) : (s.beginXmitCycle go).cst = s.cst := by
  obtain ⟨_, _, _, e⟩ := s.beginXmitCycle_frame go
  rw [e]

theorem xmitNext_cst {s : State} (r : Bool) (hc : s.cst = .xmit) : (s.xmitNext r).cst = .xmit ∨ (s.xmitNext r).cst = .adjust := by
  unfold State.xmitNext
  split_ifs
  · exact .inl hc
  · exact .inl hc
  · obtain ⟨_, _, e1⟩ := s.nextIndex_frame
    obtain ⟨_, _, _, e2⟩ := s.nextIndex.loadNext_frame r
    obtain ⟨_, e3⟩ := (s.nextIndex.loadNext r).openWindow_frame
    rw [e3, e2, e1]
    exact .inl hc
  · unfold State.endFrame
    split_ifs
    · exact .inl hc
    · exact .inr rfl

theorem leaveSetup_cst (s : State) (go : Bool) : (s.leaveSetup go).cst = if s.nleds = 0 then .adjust else .xmit := by
  unfold State.leaveSetup
  split_ifs
  · rfl
  · rw [beginXmitCycle_cst]
    obtain ⟨_, e⟩ := s.firstByte.enterXmit_frame
    rw [e]

theorem setupCycle_cst {s : State} (p : PortIn) (hc : s.cst = .setup) :
    (s.setupCycle p).cst = .setup ∨ (s.setupCycle p).cst = .xmit ∨ (s.setupCycle p).cst = .adjust := by
  have hc' : (s.seedFirst.prepCycle p).cst = .setup := by
    obtain ⟨_, _, _, _, _, _, e⟩ := seedFirst_frame s
    rw [prepCycle_cst, e, hc]
  unfold State.setupCycle State.endSetupCycle
  split_ifs
  · rw [leaveSetup_cst]
    split_ifs
    · exact .inr (.inr rfl)
    · exact .inr (.inl rfl)
  · obtain ⟨_, e⟩ := ({ s.seedFirst.prepCycle p with setupLeft := (s.seedFirst.prepCycle p).setupLeft - 1 } : State).issue_frame p.go
    rw [e]
    exact .inl hc'

/-- The values `CST` can have after a cycle of the sequencer: the edges of R170 outside acceptance, and staying where that is possible. -/
def Cst.successors : Cst → List Cst
  | .idle => [.idle]
  | .waitIdle => [.waitIdle, .setup]
  | .setup => [.setup, .xmit, .adjust]
  | .xmit => [.xmit, .adjust]
  | .adjust => [.restore]
  | .restore => [.idle]

theorem Cst.idle_mem_successors {c : Cst} : Cst.idle ∈ c.successors ↔ c = .idle ∨ c = .restore := by cases c <;> decide

theorem Cst.waitIdle_mem_successors {c : Cst} : Cst.waitIdle ∈ c.successors ↔ c = .waitIdle := by cases c <;> decide

theorem waitIdleCycle_cst {s : State} (p : PortIn) (hc : s.cst = .waitIdle) :
    (s.waitIdleCycle p).cst = .waitIdle ∨ (s.waitIdleCycle p).cst = .setup := by
  unfold State.waitIdleCycle
  split_ifs
  · obtain ⟨_, e⟩ := s.enterSetup_frame p.go
    exact .inr (by rw [e])
  · exact .inl hc

theorem xmitCycle_cst {s : State} (p : PortIn) (hc : s.cst = .xmit) : (s.xmitCycle p).cst = .xmit ∨ (s.xmitCycle p).cst = .adjust := by
  unfold State.xmitCycle
  rw [beginXmitCycle_cst]
  exact xmitNext_cst _ ((prepCycle_cst s p).trans hc)

theorem sequencerCycle_cst (s : State) (p : PortIn) : (s.sequencerCycle p).cst ∈ s.cst.successors := by
  unfold State.sequencerCycle
  cases hc : s.cst with
  | idle => simp [hc, Cst.successors]
  | waitIdle => simpa [Cst.successors] using waitIdleCycle_cst p hc
  | setup => simpa [Cst.successors] using setupCycle_cst p hc
  | xmit => simpa [Cst.successors] using xmitCycle_cst p hc
  | adjust => exact List.mem_singleton_self _
  | restore => exact List.mem_singleton_self _

/-- A busy block becomes idle from RESTORE only. -/
theorem sequencerCycle_busy {s : State} (p : PortIn) (hi : s.cst ≠ .idle) (hr : s.cst ≠ .restore) :
    (s.sequencerCycle p).cst ≠ .idle := fun hidle =>
  (Cst.idle_mem_successors.1 (hidle ▸ sequencerCycle_cst s p)).elim hi hr

/-- A store in a cycle that leaves the block busy with a frame lands, and is noted if that frame borrows the byte. -/
theorem finishCycle_store {t : State} (a : Addr) (v : Byte) (hm : t.MemOk) (hc : t.cst ≠ .idle) :
    (finishCycle t (some (a, v))).mem.read a.toNat = v ∧
      (finishCycle t (some (a, v))).superseded =
        (if t.op = .showFrame ∧ t.base.toNat + t.cfg.skip ≤ a.toNat ∧ a.toNat < t.base.toNat + t.cfg.skip + 3 * t.nleds.toNat
          then [(a, t.mem.read a.toNat)] else []) ++ t.superseded := by
  refine ⟨?_, ?_⟩
  · rw [finishCycle_mem, State.read_hostStores hm]
    exact if_pos rfl
  · rw [finishCycle_superseded, State.noteRace_superseded]
    congr 1
    exact if_congr (by rw [State.lends_iff]; simp [hc]) rfl rfl

/-- The values a read of `a` races with, one by one (R71, U6). -/
theorem State.mem_racing {s : State} {a : Addr} {st : Option (Addr × Byte)} {b : Byte} :
    b ∈ s.racing a st ↔ (a, b) ∈ s.superseded ∨ st = some (a, b) := by
  unfold State.racing
  rw [List.mem_append]
  refine or_congr ?_ ?_
  · simp
  · match st with
    | none => simp [storedAt]
    | some (x, v) =>
      simp only [storedAt, Option.some.injEq, Prod.mk.injEq]
      split_ifs with h
      · simp [h, eq_comm]
      · simp [h]

/-- Settles O29: a busy cycle before RESTORE and the accepting cycle both leave the block busy (`finishCycle_store`); what a read returns
is `State.fetched_mem_or_racing`, and what it races with `State.mem_racing`. -/
theorem hostStoreRacesWithTheReads : Obligations.HostStoreRacesWithTheReads := by
  refine ⟨fun s a v hm hi hre hr hf hst => ?_, fun s base n sc a v hm hi hr ho hw hst => ?_,
    fun s a st => ⟨s.fetched_mem_or_racing a st, fun b => State.mem_racing⟩⟩
  · have k := s.sequencerCycle_keeps s.port
    have hstore := finishCycle_store (t := s.sequencerCycle s.port) a v (by rw [State.MemOk, k.mem]; exact hm)
      (sequencerCycle_busy s.port hi hre)
    rw [k.op, k.base, k.cfg, k.nleds, k.mem, k.superseded, ← hst] at hstore
    exact ⟨_, step_of_busy hr hi hf, hstore⟩
  · have hstep : step s = .next (finishCycle (acceptedState (.showFrame base n sc) s) s.port.hostStore) := by
      rw [step_of_offer hr hi ho, exec_next.2 ⟨hw, rfl⟩]; rfl
    have hstore := finishCycle_store (t := acceptedState (.showFrame base n sc) s) a v hm nofun
    rw [← hst] at hstore
    exact ⟨_, hstep, hstore.1, by simpa [acceptedState] using hstore.2⟩

end Sys2Proof.Machine
end

