-- ==== Sys2Proof/Proofs/ReadAddresses.lean ====
section
/-! PROOFS. The reads of a SHOW as a list of addresses, byte by byte in transmission order (spec/20_memory.md R61, R64, R65). -/

namespace Sys2Proof.Machine

/-- The address of byte `j` of a SHOW, counted in transmission order: pixel `j / 3`, wire slot `j mod 3` (R61, R65). -/
def byteAddr (cfg : Config) (base : Addr) (j : Nat) : Addr :=
  BitVec.ofNat 32 (pixAddr cfg base (j / 3) (channelAt cfg.order (Fin.ofNat 3 j)))

theorem byteAddr_pixel (cfg : Config) (base : Addr) (i : Nat) (k : Fin 3) :
    byteAddr cfg base (3 * i + k.val) = BitVec.ofNat 32 (pixAddr cfg base i (channelAt cfg.order k)) := by
  have hpixel : (3 * i + k.val) / 3 = i := by omega
  have hslot : Fin.ofNat 3 (3 * i + k.val) = k := Fin.ext (by simp only [Fin.val_ofNat]; omega)
  rw [byteAddr, hpixel, hslot]

/-- The reads of `k` pixels from pixel `i` on are those of `3k` bytes in a row. -/
theorem showReads_eq_map (cfg : Config) (base : Addr) (k i : Nat) :
    showReads cfg base k i = (List.range (3 * k)).map (fun j => byteAddr cfg base (3 * i + j)) := by
  induction k generalizing i with
  | zero => rfl
  | succ k ih =>
    have hrest : (fun j => byteAddr cfg base (3 * i + j)) ∘ (3 + ·) = fun j => byteAddr cfg base (3 * (i + 1) + j) := by
      funext j
      show byteAddr cfg base (3 * i + (3 + j)) = _
      congr 1
      omega
    rw [showReads, ih, show 3 * (k + 1) = 3 + 3 * k by omega, List.range_add, List.map_append, List.map_map, hrest,
      ← byteAddr_pixel cfg base i 0, ← byteAddr_pixel cfg base i 1, ← byteAddr_pixel cfg base i 2]
    rfl

section Bounded

variable {cfg : Config} {base : Addr} {n : Nat} (hb : base.toNat + cfg.skip + 3 * n ≤ 2 ^ 32)
include hb

/-- Within R66's bound an address is its value in unbounded integers: nothing wraps. -/
theorem byteAddr_toNat {j : Nat} (hj : j < 3 * n) :
    (byteAddr cfg base j).toNat = base.toNat + cfg.skip + 3 * (j / 3) + (channelAt cfg.order (Fin.ofNat 3 j)).val := by
  have hchan := (channelAt cfg.order (Fin.ofNat 3 j)).isLt
  rw [byteAddr, BitVec.toNat_ofNat, pixAddr, Nat.mod_eq_of_lt (by omega)]

/-- No two bytes of the frame have one address: the pixels' triples are disjoint, and the colour order is a permutation. -/
theorem byteAddr_inj {j k : Nat} (hj : j < 3 * n) (hk : k < 3 * n) (h : byteAddr cfg base j = byteAddr cfg base k) : j = k := by
  have hval := congrArg BitVec.toNat h
  rw [byteAddr_toNat hb hj, byteAddr_toNat hb hk] at hval
  have hcj := (channelAt cfg.order (Fin.ofNat 3 j)).isLt
  have hck := (channelAt cfg.order (Fin.ofNat 3 k)).isLt
  have hchan : channelAt cfg.order (Fin.ofNat 3 j) = channelAt cfg.order (Fin.ofNat 3 k) := Fin.ext (by omega)
  have hslot : j % 3 = k % 3 := by simpa using congrArg Fin.val ((channelAt_bijective cfg.order).1 hchan)
  omega

end Bounded

/-- Settles O43: the reads are the addresses of bytes `0..3n-1` (`showReads_eq_map`), which differ (`byteAddr_inj`) and lie where R61
puts them (`byteAddr_toNat`). -/
theorem readsCoverTheBufferOnce : Obligations.ReadsCoverTheBufferOnce := by
  intro cfg base n hb
  have hreads : showReads cfg base n 0 = (List.range (3 * n)).map (byteAddr cfg base) := by
    simpa using showReads_eq_map cfg base n 0
  rw [hreads]
  refine ⟨by simp, ?_, fun a ha => ?_, fun i hi k => ?_⟩
  · exact List.Nodup.map_on
      (fun j hj k hk h => byteAddr_inj hb (List.mem_range.1 hj) (List.mem_range.1 hk) h) List.nodup_range
  · obtain ⟨j, hj, rfl⟩ := List.mem_map.1 ha
    rw [List.mem_range] at hj
    have hchan := (channelAt cfg.order (Fin.ofNat 3 j)).isLt
    rw [byteAddr_toNat hb hj]
    omega
  · have hk := k.isLt
    have hchan := (channelAt cfg.order k).isLt
    rw [List.getElem?_map, List.getElem?_range (by omega), Option.map_some, Option.map_some, byteAddr_pixel, BitVec.toNat_ofNat,
      pixAddr, Nat.mod_eq_of_lt (by omega)]

end Sys2Proof.Machine
end

