-- ==== Sys2Proof/Proofs/LookAhead.lean ====
section
/-! PROOFS. The look-ahead in one cycle, said case by case, and its deadline: a preparation that has so many cycles left is one cycle
later still within them, if the platform keeps to its bounds (spec/20_memory.md R65; spec/42_bit_engine.md R150, R151). -/

namespace Sys2Proof.Machine

/-! ## What the look-ahead and the pin leave alone -/

/-- The command is the same: the configuration and the latches that the reads and the timing depend on. -/
structure SameCommand (s t : State) : Prop where
  cfg : t.cfg = s.cfg
  op : t.op = s.op
  nleds : t.nleds = s.nleds
  base : t.base = s.base

/-- The phase the command is in and the frame's mark of lateness are the same too. -/
structure SameFrame (s t : State) : Prop extends SameCommand s t where
  cst : t.cst = s.cst
  late : t.late = s.late

/-- The byte on the wire is the same too. -/
structure SameByte (s t : State) : Prop extends SameFrame s t where
  pix : t.pix = s.pix
  slot : t.slot = s.slot

/-- The place in the frame, down to the cycle, is the same; the look-ahead's own registers, the pin and the trace may differ. -/
structure SamePlace (s t : State) : Prop extends SameByte s t where
  lastmark : t.lastmark = s.lastmark
  now : t.now = s.now
  biti : t.biti = s.biti
  cnt : t.cnt = s.cnt
  wrap : t.wrap = s.wrap
  setupLeft : t.setupLeft = s.setupLeft

theorem SameCommand.trans {s t u : State} (h : SameCommand s t) (k : SameCommand t u) : SameCommand s u :=
  ⟨k.cfg.trans h.cfg, k.op.trans h.op, k.nleds.trans h.nleds, k.base.trans h.base⟩

theorem SameFrame.trans {s t u : State} (h : SameFrame s t) (k : SameFrame t u) : SameFrame s u where
  toSameCommand := h.toSameCommand.trans k.toSameCommand
  cst := k.cst.trans h.cst
  late := k.late.trans h.late

theorem SameByte.trans {s t u : State} (h : SameByte s t) (k : SameByte t u) : SameByte s u where
  toSameFrame := h.toSameFrame.trans k.toSameFrame
  pix := k.pix.trans h.pix
  slot := k.slot.trans h.slot

theorem SamePlace.trans {s t u : State} (h : SamePlace s t) (k : SamePlace t u) : SamePlace s u where
  toSameByte := h.toSameByte.trans k.toSameByte
  lastmark := k.lastmark.trans h.lastmark
  now := k.now.trans h.now
  biti := k.biti.trans h.biti
  cnt := k.cnt.trans h.cnt
  wrap := k.wrap.trans h.wrap
  setupLeft := k.setupLeft.trans h.setupLeft

theorem count_sameByte (s : State) : SameByte s s.count := ⟨⟨⟨rfl, rfl, rfl, rfl⟩, rfl, rfl⟩, rfl, rfl⟩

theorem nextBit_sameByte (s : State) : SameByte s s.nextBit := ⟨⟨⟨rfl, rfl, rfl, rfl⟩, rfl, rfl⟩, rfl, rfl⟩

theorem prepCycle_samePlace (s : State) (p : PortIn) : SamePlace s (s.prepCycle p) := by
  obtain ⟨_, _, _, _, _, _, e⟩ := s.prepCycle_frame p
  rw [e]
  exact ⟨⟨⟨⟨rfl, rfl, rfl, rfl⟩, rfl, rfl⟩, rfl, rfl⟩, rfl, rfl, rfl, rfl, rfl, rfl⟩

theorem issue_samePlace (s : State) (go : Bool) : SamePlace s (s.issue go) := by
  obtain ⟨_, e⟩ := s.issue_frame go
  rw [e]
  exact ⟨⟨⟨⟨rfl, rfl, rfl, rfl⟩, rfl, rfl⟩, rfl, rfl⟩, rfl, rfl, rfl, rfl, rfl, rfl⟩

theorem microOps_samePlace (s : State) : SamePlace s s.microOps := by
  obtain ⟨_, _, e⟩ := s.microOps_frame
  rw [e]
  exact ⟨⟨⟨⟨rfl, rfl, rfl, rfl⟩, rfl, rfl⟩, rfl, rfl⟩, rfl, rfl, rfl, rfl, rfl, rfl⟩

theorem SameByte.hasNext {s t : State} (h : SameByte s t) : t.hasNext = s.hasNext := by
  unfold State.hasNext
  rw [h.slot, h.pix, h.nleds]

theorem SameByte.prepPos {s t : State} (h : SameByte s t) : t.prepPos = s.prepPos := by
  unfold State.prepPos
  rw [h.cst, h.slot, h.pix]

/-! ## One cycle of the look-ahead -/

/-- The number, in transmission order, of the byte to prepare. -/
def State.nextIx (s : State) : Nat := 3 * s.prepPos.1 + s.prepPos.2.val

theorem SameByte.nextIx {s t : State} (h : SameByte s t) : t.nextIx = s.nextIx := by
  unfold State.nextIx
  rw [h.prepPos]

theorem nextIx_setup {s : State} (hc : s.cst = .setup) : s.nextIx = 0 := by
  simp [State.nextIx, State.prepPos, hc]

/-- In XMIT it is the byte after the one on the wire (R150). -/
theorem nextIx_xmit {s : State} (hc : s.cst = .xmit) : s.nextIx = 3 * s.pix.toNat + s.slot.val + 1 := by
  have hslot := s.slot.isLt
  simp only [State.nextIx, State.prepPos, hc, reduceCtorEq, if_false]
  split_ifs with h
  · have hval : (s.slot + 1).val = s.slot.val + 1 := by simp only [Fin.val_add, Fin.val_one]; omega
    simp only [hval]
    omega
  · simp only [Fin.val_zero]
    omega

/-- A SHOW asks for the byte's address; the other frames have their raw byte at once (20_memory.md R64, R75). -/
theorem startPrep_cases (s : State) :
    (s.op = .showFrame ∧ s.startPrep.prep = .reading (byteAddr s.cfg s.base s.nextIx)) ∨
    (s.op ≠ .showFrame ∧ ∃ raw, s.startPrep.prep = .computing raw (s.cfg.prepLat - 1)) := by
  unfold State.startPrep
  cases hop : s.op with
  | showFrame => exact .inl ⟨rfl, congrArg Prep.reading (byteAddr_pixel s.cfg s.base s.prepPos.1 s.prepPos.2).symm⟩
  | init => exact .inr ⟨nofun, _, rfl⟩
  | showColor => exact .inr ⟨nofun, _, rfl⟩
  | clear => exact .inr ⟨nofun, _, rfl⟩

/-- What is pending is issued in the cycle the implementation chooses, and nothing else is. -/
theorem issue_cases (s : State) (go : Bool) :
    (s.prep = .pending ∧ go = true ∧ s.issue go = s.startPrep) ∨ ((s.prep = .pending → go = false) ∧ s.issue go = s) := by
  unfold State.issue
  split_ifs with h
  · simp only [decide_eq_true_eq, Bool.and_eq_true] at h
    exact .inl ⟨h.1, h.2, rfl⟩
  · simp only [decide_eq_true_eq, Bool.and_eq_true, not_and, Bool.not_eq_true] at h
    exact .inr ⟨h, rfl⟩

theorem issue_prep_eq_none {s : State} {go : Bool} : (s.issue go).prep = .none ↔ s.prep = .none := by
  obtain ⟨hq, -, e⟩ | ⟨-, e⟩ := issue_cases s go <;> rw [e]
  obtain ⟨-, e⟩ | ⟨-, _, e⟩ := startPrep_cases s <;> simp [e, hq]

theorem prepCycle_prep_eq_none {s : State} {p : PortIn} : (s.prepCycle p).prep = .none ↔ s.prep = .none := by
  obtain ⟨-, -, hbusy, hrest⟩ := @prepCycle_prep s p
  exact ⟨fun hnone => by_contra fun hne => hbusy hne hnone, hrest⟩

theorem finishByte_prep (s : State) (raw : Byte) : (s.finishByte raw).prep = .ready := by
  obtain ⟨_, _, _, e⟩ := s.finishByte_frame raw
  rw [e]

theorem finishByte_trace (s : State) (raw : Byte) : (s.finishByte raw).trace = s.trace := by
  obtain ⟨_, _, _, e⟩ := s.finishByte_frame raw
  rw [e]

/-- Where a byte stands once the memory has answered: ready, or `PREP_LAT` cycles from it (R151). -/
def Prep.Taken (prepLat : Nat) (q : Prep) : Prop :=
  (prepLat = 0 ∧ q = .ready) ∨ (0 < prepLat ∧ ∃ raw, q = .computing raw (prepLat - 1))

theorem takeRaw_prep (s : State) (raw : Byte) : (s.takeRaw raw).prep.Taken s.cfg.prepLat := by
  unfold State.takeRaw
  split_ifs with h
  · exact .inl ⟨h, finishByte_prep s raw⟩
  · exact .inr ⟨by omega, raw, rfl⟩

theorem takeRaw_trace (s : State) (raw : Byte) : (s.takeRaw raw).trace = s.trace := by
  obtain ⟨_, _, _, _, e⟩ := s.takeRaw_frame raw
  rw [e]

theorem usePick_cfg (s : State) (a : Addr) (st : Option (Addr × Byte)) : (s.usePick a st).cfg = s.cfg := by
  obtain ⟨_, e⟩ := s.usePick_frame a st
  rw [e]

theorem usePick_trace (s : State) (a : Addr) (st : Option (Addr × Byte)) : (s.usePick a st).trace = s.trace := by
  obtain ⟨_, e⟩ := s.usePick_frame a st
  rw [e]

/-- Everything the look-ahead does before a cycle's issue: it waits, it takes the byte a request is answered with, or the data path counts
(R42, R151). -/
theorem prepCycle_cases (s : State) (p : PortIn) :
    ((∀ raw left, s.prep ≠ .computing raw left) ∧ (∀ a, s.prep = .reading a → p.memAck = false) ∧ s.prepCycle p = s) ∨
    (∃ a, s.prep = .reading a ∧ (s.prepCycle p).trace = s.trace ++ [.read a] ∧ (s.prepCycle p).prep.Taken s.cfg.prepLat) ∨
    (∃ raw left, s.prep = .computing raw left ∧ (s.prepCycle p).trace = s.trace ∧
      (s.prepCycle p).prep = if left = 0 then .ready else .computing raw (left - 1)) := by
  unfold State.prepCycle
  cases hq : s.prep with
  | none => exact .inl ⟨nofun, nofun, rfl⟩
  | pending => exact .inl ⟨nofun, nofun, rfl⟩
  | ready => exact .inl ⟨nofun, nofun, rfl⟩
  | reading a =>
    cases hack : p.memAck with
    | false => exact .inl ⟨nofun, fun _ _ => rfl, rfl⟩
    | true =>
      have hprep := takeRaw_prep ((s.usePick a p.hostStore).emit (.read a)) (s.fetched a p.hostStore)
      have htrace := takeRaw_trace ((s.usePick a p.hostStore).emit (.read a)) (s.fetched a p.hostStore)
      rw [State.emit_cfg, usePick_cfg] at hprep
      rw [State.emit_trace, usePick_trace] at htrace
      exact .inr (.inl ⟨a, rfl, htrace, hprep⟩)
  | computing raw left =>
    refine .inr (.inr ⟨raw, left, rfl, ?_⟩)
    dsimp only
    split_ifs
    · exact ⟨finishByte_trace s raw, finishByte_prep s raw⟩
    · exact ⟨rfl, rfl⟩

/-! ## The deadline -/

/-- With `d` cycles left a preparation is in time: `inp` being the coming inputs, the cycle that issues it comes early enough for the
memory's bound `memLat` and PREP_LAT to fit behind it, the acknowledge for PREP_LAT to, and the data path has few enough cycles to go. -/
def Prep.DueIn (memLat prepLat : Nat) (inp : Nat → PortIn) (d : Nat) : Prep → Prop
  | .none => True
  | .pending => ∃ m, (inp m).go = true ∧ m + 1 + memLat + prepLat ≤ d
  | .reading _ => ∃ m, (inp m).memAck = true ∧ m + 1 + prepLat ≤ d
  | .computing _ left => left + 1 ≤ d
  | .ready => True

/-- The same inside a cycle, after the look-ahead's part of it and before its issue: `d` cycles are left after it. -/
def Prep.DueAfter (memLat prepLat : Nat) (inp : Nat → PortIn) (d : Nat) (q : Prep) : Prop :=
  if q = .pending then ∃ m, (inp m).go = true ∧ m + memLat + prepLat ≤ d else q.DueIn memLat prepLat (fun m => inp (m + 1)) d

section Deadline

variable {memLat prepLat d : Nat} {inp : Nat → PortIn}

/-- At its deadline a byte is ready, if there is one. -/
theorem Prep.DueIn.ready {q : Prep} (h : q.DueIn memLat prepLat inp 0) : q = .none ∨ q = .ready := by
  cases q with
  | none => exact .inl rfl
  | ready => exact .inr rfl
  | pending => obtain ⟨m, -, hm⟩ := h; omega
  | reading a => obtain ⟨m, -, hm⟩ := h; omega
  | computing raw left => exact absurd h (Nat.not_succ_le_zero left)

theorem Prep.DueAfter.ready {q : Prep} (h : q.DueAfter memLat prepLat inp 0) (hdata : 1 ≤ memLat + prepLat) :
    q = .none ∨ q = .ready := by
  unfold Prep.DueAfter at h
  split_ifs at h
  · obtain ⟨m, -, hm⟩ := h
    omega
  · exact h.ready

theorem Prep.Taken.dueAfter {q : Prep} (h : q.Taken prepLat) (hd : prepLat ≤ d) : q.DueAfter memLat prepLat inp d := by
  obtain ⟨-, rfl⟩ | ⟨hpos, raw, rfl⟩ := h
  · exact trivial
  · show prepLat - 1 + 1 ≤ d
    omega

/-- The look-ahead's part of a cycle keeps the deadline. -/
theorem prepCycle_dueAfter {s : State} (h : s.prep.DueIn memLat s.cfg.prepLat inp (d + 1)) :
    (s.prepCycle (inp 0)).prep.DueAfter memLat s.cfg.prepLat inp d := by
  obtain ⟨hdata, hack, e⟩ | ⟨a, hq, -, htaken⟩ | ⟨raw, left, hq, -, e⟩ := prepCycle_cases s (inp 0)
  · rw [e]
    cases hq : s.prep with
    | none => exact trivial
    | ready => exact trivial
    | computing raw left => exact absurd hq (hdata raw left)
    | pending =>
      rw [hq] at h
      obtain ⟨m, hgo, hm⟩ := h
      exact ⟨m, hgo, by omega⟩
    | reading a =>
      rw [hq] at h
      obtain ⟨m, hm, hle⟩ := h
      cases m with
      | zero => rw [hack a hq] at hm; cases hm
      | succ m => exact ⟨m, hm, by omega⟩
  · rw [hq] at h
    obtain ⟨m, -, hm⟩ := h
    exact htaken.dueAfter (by omega)
  · rw [hq] at h
    change left + 1 ≤ d + 1 at h
    rw [e]
    split_ifs
    · exact trivial
    · show left - 1 + 1 ≤ d
      omega

/-- The issue at the end of a cycle keeps the deadline, the memory answering within `memLat` cycles of it. -/
theorem issue_dueIn {s : State} (h : s.prep.DueAfter memLat s.cfg.prepLat inp d) (hdata : 1 ≤ memLat + s.cfg.prepLat)
    (hack : s.op = .showFrame → ∃ m < memLat, (inp (m + 1)).memAck = true) :
    (s.issue (inp 0).go).prep.DueIn memLat s.cfg.prepLat (fun m => inp (m + 1)) d := by
  obtain ⟨hq, -, e⟩ | ⟨hgo, e⟩ := issue_cases s (inp 0).go <;> rw [e]
  · rw [hq] at h
    obtain ⟨m, -, hm⟩ := h
    obtain ⟨hop, e⟩ | ⟨-, raw, e⟩ := startPrep_cases s <;> rw [e]
    · obtain ⟨k, hk, hkack⟩ := hack hop
      exact ⟨k, hkack, by omega⟩
    · show s.cfg.prepLat - 1 + 1 ≤ d
      omega
  · by_cases hq : s.prep = .pending
    · rw [hq] at h ⊢
      obtain ⟨m, hm, hle⟩ := h
      cases m with
      | zero => rw [hgo hq] at hm; cases hm
      | succ m => exact ⟨m, hm, by omega⟩
    · rwa [Prep.DueAfter, if_neg hq] at h

/-- The window of a byte opens in time if the platform's whole budget is left. -/
theorem dueAfter_of_window {goLat : Nat} (b : Bool) (hgo : ∃ m < goLat, (inp m).go = true) (hd : goLat + memLat + prepLat ≤ d + 1) :
    (if b then Prep.pending else .none).DueAfter memLat prepLat inp d := by
  cases b with
  | false => exact trivial
  | true =>
    obtain ⟨m, hm, hmgo⟩ := hgo
    exact ⟨m, hmgo, by omega⟩

end Deadline

end Sys2Proof.Machine
end

