-- ==== Sys2Proof/Proofs/FrameTiming.lean ====
section
/-! PROOFS. A frame on time, cycle by cycle: if the platform keeps the budget of R151 no byte misses its deadline, and the block is idle
again after a number of cycles known in advance (spec/42_bit_engine.md R149, R151, R156; spec/43_controller_commands.md R172 to R178). -/

namespace Sys2Proof.Machine

/-! ## The platform's budget -/

/-- What `State.Timely` says, for named bounds and the frame that is running (42_bit_engine.md R151, 70_reset_and_hazards.md R246). -/
structure State.Budget (goLat memLat : Nat) (s : State) : Prop where
  go : s.EveryWithin goLat PortIn.go
  ack : s.op = .showFrame → s.EveryWithin memLat PortIn.memAck
  data : 1 ≤ memLat + s.cfg.prepLat
  byte : goLat + memLat + s.cfg.prepLat ≤ 8 * total s.cfg
  setup : goLat + memLat + s.cfg.prepLat ≤ s.cfg.setupLat + 1

theorem everyWithin_next {s t : State} {k : Nat} {f : PortIn → Bool} (h : s.EveryWithin k f) (hports : t.ports = s.ports.tail) :
    t.EveryWithin k f := by
  intro j
  obtain ⟨m, hm, hf⟩ := h (j + 1)
  refine ⟨m, hm, ?_⟩
  rwa [portAt_of_ports_tail hports, show j + m + 1 = j + 1 + m by omega]

/-- An accepted command's frame has the budget its host promised. -/
theorem budget_of_timely {s t : State} (h : s.Timely t.op) (hcfg : t.cfg = s.cfg) (hports : t.ports = s.ports.tail) :
    ∃ goLat memLat, t.Budget goLat memLat := by
  obtain ⟨goLat, memLat, hgo, hack, hdata, hbyte, hsetup⟩ := h
  rw [← hcfg] at hdata hbyte hsetup
  exact ⟨goLat, memLat, everyWithin_next hgo hports, fun hop => everyWithin_next (hack hop) hports, hdata, hbyte, hsetup⟩

theorem State.Budget.next {goLat memLat : Nat} {s t : State} (h : s.Budget goLat memLat) (hcfg : t.cfg = s.cfg) (hop : t.op = s.op)
    (hports : t.ports = s.ports.tail) : t.Budget goLat memLat where
  go := everyWithin_next h.go hports
  ack ho := everyWithin_next (h.ack (hop ▸ ho)) hports
  data := hcfg ▸ h.data
  byte := hcfg ▸ h.byte
  setup := hcfg ▸ h.setup

/-! ## How long it takes -/

/-- The number, in transmission order, of the byte on the wire. -/
def State.byteIx (s : State) : Nat := 3 * s.pix.toNat + s.slot.val

/-- The cycles of the byte on the wire still to run, this one included. -/
def State.byteLeft (s : State) : Nat := s.biti.toNat * total s.cfg + s.cnt.toNat

/-- The cycles in which the next byte has to become ready: what is left of SETUP for byte 0, and for the others what is left of the byte
before it but its last cycle, which loads `CURB` (R151, R246). -/
def State.due (s : State) : Nat := if s.cst = .setup then s.setupLeft else s.byteLeft - 1

/-- The cycles after which a frame on time is over and the block idle again (R178). -/
def State.cyclesLeft (s : State) : Nat :=
  match s.cst with
  | .idle => 0
  | .waitIdle => (s.lastmark + s.cfg.wait - s.now) + s.cfg.setupLat + frameCycles s.cfg s.nleds.toNat + 3
  | .setup => s.setupLeft + frameCycles s.cfg s.nleds.toNat + 2
  | .xmit => (3 * s.nleds.toNat - 1 - s.byteIx) * (8 * total s.cfg) + s.byteLeft + 2
  | .adjust => 2
  | .restore => 1

theorem cyclesLeft_idle {s : State} (hc : s.cst = .idle) : s.cyclesLeft = 0 := by simp [State.cyclesLeft, hc]

theorem cyclesLeft_waitIdle {s : State} (hc : s.cst = .waitIdle) :
    s.cyclesLeft = (s.lastmark + s.cfg.wait - s.now) + s.cfg.setupLat + frameCycles s.cfg s.nleds.toNat + 3 := by
  simp [State.cyclesLeft, hc]

theorem cyclesLeft_setup {s : State} (hc : s.cst = .setup) :
    s.cyclesLeft = s.setupLeft + frameCycles s.cfg s.nleds.toNat + 2 := by simp [State.cyclesLeft, hc]

theorem cyclesLeft_xmit {s : State} (hc : s.cst = .xmit) :
    s.cyclesLeft = (3 * s.nleds.toNat - 1 - s.byteIx) * (8 * total s.cfg) + s.byteLeft + 2 := by simp [State.cyclesLeft, hc]

theorem cyclesLeft_adjust {s : State} (hc : s.cst = .adjust) : s.cyclesLeft = 2 := by simp [State.cyclesLeft, hc]

theorem cyclesLeft_restore {s : State} (hc : s.cst = .restore) : s.cyclesLeft = 1 := by simp [State.cyclesLeft, hc]

theorem due_setup {s : State} (hc : s.cst = .setup) : s.due = s.setupLeft := by simp [State.due, hc]

theorem due_xmit {s : State} (hc : s.cst = .xmit) : s.due = s.byteLeft - 1 := by simp [State.due, hc]

theorem SameByte.byteIx {s t : State} (h : SameByte s t) : t.byteIx = s.byteIx := by
  unfold State.byteIx
  rw [h.pix, h.slot]

theorem SamePlace.byteLeft {s t : State} (h : SamePlace s t) : t.byteLeft = s.byteLeft := by
  unfold State.byteLeft
  rw [h.biti, h.cfg, h.cnt]

theorem SamePlace.due {s t : State} (h : SamePlace s t) : t.due = s.due := by
  unfold State.due
  rw [h.cst, h.setupLeft, h.byteLeft]

theorem SamePlace.cyclesLeft {s t : State} (h : SamePlace s t) : t.cyclesLeft = s.cyclesLeft := by
  unfold State.cyclesLeft
  rw [h.cst, h.lastmark, h.cfg, h.now, h.nleds, h.setupLeft, h.byteIx, h.byteLeft]

theorem frameCycles_eq (cfg : Config) (n : Nat) : frameCycles cfg n = 3 * n * (8 * total cfg) := by
  unfold frameCycles
  ring

/-- Another byte follows exactly if the one on the wire is not the frame's last. -/
theorem hasNext_iff {s : State} (hpix : s.pix.toNat < s.nleds.toNat) : s.hasNext = true ↔ s.byteIx + 1 < 3 * s.nleds.toNat := by
  have hslot := s.slot.isLt
  simp only [State.hasNext, State.byteIx, Bool.or_eq_true, decide_eq_true_eq]
  omega

/-- The indices step to the next byte in transmission order (R156). -/
theorem nextIndex_byteIx {s : State} (hnext : s.hasNext = true) :
    s.nextIndex.byteIx = s.byteIx + 1 := by
  unfold State.nextIndex State.byteIx
  split_ifs with hslot
  · have hval : (s.slot + 1).val = s.slot.val + 1 := by simp only [Fin.val_add, Fin.val_one]; omega
    simp only [hval]
    omega
  · simp only [State.hasNext, Bool.or_eq_true, decide_eq_true_eq, hslot, false_or] at hnext
    have hn := s.nleds.isLt
    have hval : (s.pix + 1).toNat = s.pix.toNat + 1 := by bv_omega
    have hslot' := s.slot.isLt
    simp only [hval, Fin.val_zero]
    omega

/-! ## A frame on time -/

/-- The look-ahead rests exactly where no byte is to be prepared. -/
def State.Wanted (s : State) : Prop :=
  (s.cst = .setup → (s.prep = .none ↔ s.nleds = 0)) ∧ (s.cst = .xmit → (s.prep = .none ↔ s.hasNext = false))

theorem SameByte.wanted {s t : State} (h : SameByte s t) (hprep : t.prep = .none ↔ s.prep = .none) (hs : s.Wanted) : t.Wanted := by
  unfold State.Wanted
  rw [h.cst, h.nleds, h.hasNext, hprep]
  exact hs

/-- The frame has missed no deadline and, `inp` being the coming inputs, will not miss that of the byte now prepared. -/
structure State.InTime (memLat : Nat) (inp : Nat → PortIn) (s : State) : Prop where
  late : s.late = false
  wanted : s.Wanted
  due : s.cst = .setup ∨ s.cst = .xmit → s.prep.DueIn memLat s.cfg.prepLat inp s.due

/-- Outside SETUP and XMIT no byte is due. -/
theorem inTime_of_engine_off {memLat : Nat} {inp : Nat → PortIn} {s : State} (hsetup : s.cst ≠ .setup) (hxmit : s.cst ≠ .xmit)
    (hlate : s.late = false) : s.InTime memLat inp where
  late := hlate
  wanted := ⟨fun h => absurd h hsetup, fun h => absurd h hxmit⟩
  due h := absurd h (not_or.2 ⟨hsetup, hxmit⟩)

theorem SamePlace.inTime {memLat : Nat} {inp : Nat → PortIn} {s t : State} (h : SamePlace s t) (hprep : t.prep = s.prep)
    (hs : s.InTime memLat inp) : t.InTime memLat inp where
  late := h.late.trans hs.late
  wanted := h.wanted (by rw [hprep]) hs.wanted
  due := by
    rw [hprep, h.cst, h.cfg, h.due]
    exact hs.due

/-- From SETUP on, until the block is idle again: the invariant, and the deadlines kept under the platform's budget. -/
structure State.OnTime (goLat memLat : Nat) (s : State) : Prop where
  inv : s.Inv
  budget : s.Budget goLat memLat
  inTime : s.InTime memLat s.portAt

section

variable {goLat memLat : Nat} {s : State}

/-- The end of a cycle in SETUP or XMIT: with the place for the next cycle already taken, a pending byte is issued and the pin moves. -/
theorem issue_inTime {inp : Nat → PortIn} (hlate : s.late = false) (hwanted : s.Wanted)
    (hdue : s.prep.DueAfter memLat s.cfg.prepLat inp s.due) (hdata : 1 ≤ memLat + s.cfg.prepLat)
    (hack : s.op = .showFrame → ∃ m < memLat, (inp (m + 1)).memAck = true) :
    (s.issue (inp 0).go).InTime memLat (fun m => inp (m + 1)) := by
  have hplace := issue_samePlace s (inp 0).go
  refine ⟨hplace.late.trans hlate, hplace.wanted issue_prep_eq_none hwanted, fun _ => ?_⟩
  · rw [hplace.cfg, hplace.due]
    exact issue_dueIn hdue hdata hack

theorem microOps_prep (s : State) : s.microOps.prep = s.prep := by
  obtain ⟨_, _, e⟩ := s.microOps_frame
  rw [e]

/-- The memory's answer to a request that is out in the next cycle. -/
theorem State.Budget.ack_next (h : s.Budget goLat memLat) (hop : s.op = .showFrame) : ∃ m < memLat, (s.portAt (m + 1)).memAck = true := by
  obtain ⟨m, hm, hack⟩ := h.ack hop 1
  exact ⟨m, hm, by rwa [Nat.add_comm]⟩

theorem State.Budget.go_now (h : s.Budget goLat memLat) : ∃ m < goLat, (s.portAt m).go = true := by
  obtain ⟨m, hm, hgo⟩ := h.go 0
  exact ⟨m, hm, by rwa [Nat.zero_add] at hgo⟩

theorem State.OnTime.prepCycle_dueAfter {d : Nat} (h : s.OnTime goLat memLat) (hc : s.cst = .setup ∨ s.cst = .xmit) (hd : s.due = d + 1) :
    (s.prepCycle (s.portAt 0)).prep.DueAfter memLat s.cfg.prepLat s.portAt d :=
  Machine.prepCycle_dueAfter (hd ▸ h.inTime.due hc)

/-! ## XMIT -/

theorem lastOfBit_iff : s.lastOfBit = true ↔ s.cnt.toNat ≤ 1 := decide_eq_true_iff

theorem lastOfByte_iff : s.lastOfByte = true ↔ s.cnt.toNat ≤ 1 ∧ s.biti = 0 := by
  simp [State.lastOfByte, lastOfBit_iff]

theorem openWindow_of_ready (h : s.prep = .ready) : s.openWindow = { s with prep := if s.hasNext then .pending else .none } := by
  simp [State.openWindow, h]

/-- In the last cycle of a byte on time the next byte is ready, if there is one. -/
theorem State.OnTime.ready_of_lastOfByte (h : s.OnTime goLat memLat) (hc : s.cst = .xmit) (hcnt : s.cnt.toNat = 1) (hbit : s.biti = 0)
    (hnext : s.hasNext = true) : s.prep = .ready := by
  have hdue := h.inTime.due (.inr hc)
  rw [due_xmit hc, State.byteLeft, hcnt, hbit] at hdue
  obtain hnone | hready := Prep.DueIn.ready (by simpa using hdue)
  · rw [(h.inTime.wanted.2 hc).1 hnone] at hnext
    cases hnext
  · exact hready

/-- The first cycle of a byte: in `x` the counter starts, and the window of the byte after it opens. -/
structure ByteStart (s x : State) : Prop extends SameCommand s x where
  cst : x.cst = .xmit
  late : x.late = s.late
  trace : x.trace = s.trace
  prep : x.prep = if x.hasNext then .pending else .none
  biti : x.biti = 7
  cnt : x.cnt.toNat = total x.cfg
  wrap : x.wrap = true

theorem ByteStart.byteLeft {x : State} (h : ByteStart s x) : x.byteLeft = 8 * total x.cfg := by
  rw [State.byteLeft, h.biti, h.cnt]
  show 7 * total x.cfg + _ = _
  omega

/-- The next byte of the frame begins (R156). -/
theorem nextByte_byteStart (hc : s.cst = .xmit) (hcnt : s.cnt.toNat = 1) (hnext : s.hasNext = true) (hready : s.prep = .ready) :
    ByteStart s s.nextIndex.shiftByte.openWindow.count ∧ s.nextIndex.shiftByte.openWindow.count.byteIx = s.byteIx + 1 := by
  obtain ⟨hcount, hwrap⟩ := (countStep_spec s.cfg s.cnt s.wrap).2 (by omega)
  have hix := nextIndex_byteIx hnext
  obtain ⟨_, _, e⟩ := s.nextIndex_frame
  rw [openWindow_of_ready (s := s.nextIndex.shiftByte) (by rw [e]; exact hready)]
  rw [e] at hix ⊢
  exact ⟨⟨⟨rfl, rfl, rfl, rfl⟩, hc, rfl, rfl, rfl, rfl, hcount, hwrap⟩, hix⟩

/-- Byte 0 begins, if it was prepared within SETUP (R156, R246). -/
theorem enterXmit_byteStart (hready : s.prep = .ready) (hbiti : s.biti = 7) :
    ByteStart s s.enterXmit ∧ s.enterXmit.byteIx = s.byteIx := by
  have hopen : s.enterXmit = { s with cnt := (countStart s.cfg).1, wrap := (countStart s.cfg).2, cst := .xmit,
                                      prep := if s.hasNext then .pending else .none } :=
    openWindow_of_ready (s := { s with cnt := (countStart s.cfg).1, wrap := (countStart s.cfg).2, cst := .xmit }) hready
  rw [hopen]
  exact ⟨⟨⟨rfl, rfl, rfl, rfl⟩, rfl, rfl, rfl, rfl, hbiti, ofNat_total s.cfg, rfl⟩, rfl⟩

theorem xmitNext_inside_bit (r : Bool) (hcnt : 1 < s.cnt.toNat) : s.xmitNext r = s.count := by
  have hbit : s.lastOfBit = false := by rw [← Bool.not_eq_true, lastOfBit_iff]; omega
  simp [State.xmitNext, hbit]

theorem xmitNext_end_of_bit (r : Bool) (hcnt : s.cnt.toNat ≤ 1) (hbiti : s.biti ≠ 0) : s.xmitNext r = s.nextBit.count := by
  have hbit : s.lastOfBit = true := lastOfBit_iff.2 hcnt
  have hbyte : s.lastOfByte = false := by rw [← Bool.not_eq_true, lastOfByte_iff]; tauto
  simp [State.xmitNext, hbit, hbyte]

theorem xmitNext_end_of_byte (r : Bool) (hcnt : s.cnt.toNat ≤ 1) (hbiti : s.biti = 0) :
    s.xmitNext r = if s.hasNext then (s.nextIndex.loadNext r).openWindow.count else s.endFrame := by
  have hbit : s.lastOfBit = true := lastOfBit_iff.2 hcnt
  have hbyte : s.lastOfByte = true := lastOfByte_iff.2 ⟨hcnt, hbiti⟩
  simp [State.xmitNext, hbit, hbyte]

theorem beginXmitCycle_of_xmit (go : Bool) (hc : s.cst = .xmit) : s.beginXmitCycle go = (s.issue go).microOps := if_pos hc

/-- A byte that was ready in time goes to the wire (R24, R151). -/
theorem nextIndex_loadNext_of_ready (hlate : s.late = false) : s.nextIndex.loadNext true = s.nextIndex.shiftByte := by
  obtain ⟨_, _, e⟩ := s.nextIndex_frame
  simp [State.loadNext, e, hlate]

/-- A frame that is on time ends with its last byte. -/
theorem endFrame_of_not_late (hlate : s.late = false) : s.endFrame = s.enterAdjust := by
  simp [State.endFrame, hlate]

theorem State.OnTime.rest_of_last (h : s.OnTime goLat memLat) (hc : s.cst = .xmit) (hlast : s.hasNext = false) : s.prep = .none :=
  (h.inTime.wanted.2 hc).2 hlast

/-- Everything a cycle of XMIT of a frame on time can be (R156): inside a bit, at the end of a bit, at the end of a byte, at the end of
the frame. -/
theorem State.OnTime.xmitCycle_cases (h : s.OnTime goLat memLat) (hc : s.cst = .xmit) (p : PortIn) :
    (1 < s.cnt.toNat ∧ s.xmitCycle p = ((s.prepCycle p).count.issue p.go).microOps) ∨
    (s.cnt.toNat = 1 ∧ s.biti ≠ 0 ∧ s.xmitCycle p = ((s.prepCycle p).nextBit.count.issue p.go).microOps) ∨
    (s.cnt.toNat = 1 ∧ s.biti = 0 ∧ s.hasNext = true ∧ s.prep = .ready ∧
      s.xmitCycle p = (s.nextIndex.shiftByte.openWindow.count.issue p.go).microOps) ∨
    (s.cnt.toNat = 1 ∧ s.biti = 0 ∧ s.hasNext = false ∧ s.xmitCycle p = s.enterAdjust) := by
  obtain ⟨hpos, -, -⟩ := h.inv.counter hc
  have hplace := prepCycle_samePlace s p
  have hcq := hplace.cst.trans hc
  rw [State.xmitCycle]
  by_cases hcnt : 1 < s.cnt.toNat
  · rw [xmitNext_inside_bit _ (by rwa [hplace.cnt]), beginXmitCycle_of_xmit _ (by exact hcq)]
    exact .inl ⟨hcnt, rfl⟩
  have hcnt1 : s.cnt.toNat = 1 := by omega
  by_cases hbiti : s.biti = 0
  swap
  · rw [xmitNext_end_of_bit _ (by rw [hplace.cnt]; omega) (by rwa [hplace.biti]), beginXmitCycle_of_xmit _ (by exact hcq)]
    exact .inr (.inl ⟨hcnt1, hbiti, rfl⟩)
  cases hnext : s.hasNext with
  | true =>
    have hready := h.ready_of_lastOfByte hc hcnt1 hbiti hnext
    have hrest : s.prepCycle p = s := by simp [State.prepCycle, hready]
    have hstart := (nextByte_byteStart hc hcnt1 hnext hready).1
    rw [hrest, xmitNext_end_of_byte _ hcnt1.le hbiti, if_pos hnext, hready, show (Prep.ready == .ready) = true from rfl,
      nextIndex_loadNext_of_ready h.inTime.late, beginXmitCycle_of_xmit _ hstart.cst]
    exact .inr (.inr (.inl ⟨hcnt1, hbiti, rfl, rfl, rfl⟩))
  | false =>
    have hrest : s.prepCycle p = s := by simp [State.prepCycle, h.rest_of_last hc hnext]
    rw [hrest, xmitNext_end_of_byte _ hcnt1.le hbiti, if_neg (by simp [hnext]), endFrame_of_not_late h.inTime.late]
    exact .inr (.inr (.inr ⟨hcnt1, hbiti, rfl, rfl⟩))

/-- What one cycle of the frame takes it to: the deadlines are kept for the inputs from the next cycle on, and one cycle fewer is left. -/
structure Advances (memLat : Nat) (s v : State) : Prop where
  inTime : v.InTime memLat (fun m => s.portAt (m + 1))
  cyclesLeft : v.cyclesLeft + 1 = s.cyclesLeft

/-- The end of a cycle in SETUP or XMIT, as `issue_inTime`, with the pin's micro-operations. -/
theorem advances_of_issue {x : State} (h : s.OnTime goLat memLat) (hcfg : x.cfg = s.cfg) (hop : x.op = s.op) (hlate : x.late = false)
    (hwanted : x.Wanted) (hdue : x.prep.DueAfter memLat s.cfg.prepLat s.portAt x.due) (hcycles : x.cyclesLeft + 1 = s.cyclesLeft) :
    Advances memLat s (x.issue (s.portAt 0).go).microOps := by
  have hplace := (issue_samePlace x (s.portAt 0).go).trans (microOps_samePlace _)
  have hissue := issue_inTime hlate hwanted (hcfg ▸ hdue) (hcfg ▸ h.budget.data) fun ho => h.budget.ack_next (hop ▸ ho)
  exact ⟨(microOps_samePlace _).inTime (microOps_prep _) hissue, by rw [hplace.cyclesLeft, hcycles]⟩

/-- One cycle inside a bit: the counter alone steps. -/
theorem count_byteLeft {x : State} (h : 1 < x.cnt.toNat) : x.count.byteLeft + 1 = x.byteLeft := by
  have hcount := ((countStep_spec x.cfg x.cnt x.wrap).1 h).1
  simp only [State.byteLeft, State.count_biti, State.count_cfg, State.count_cnt, hcount]
  omega

/-- The last cycle of a bit: the counter starts again. -/
theorem count_byteLeft_boundary {x : State} (h : x.cnt.toNat = 1) : x.count.byteLeft = (x.biti.toNat + 1) * total x.cfg := by
  have hcount := ((countStep_spec x.cfg x.cnt x.wrap).2 (by omega)).1
  simp only [State.byteLeft, State.count_biti, State.count_cfg, State.count_cnt, hcount, Nat.succ_mul]

theorem biti_pred_succ {b : BitVec 3} (h : b ≠ 0) : (b - 1).toNat + 1 = b.toNat := by
  bv_omega

/-- A cycle that stays within its byte: the look-ahead's part, and one cycle fewer of the byte. -/
theorem advances_within_byte {x : State} (h : s.OnTime goLat memLat) (hc : s.cst = .xmit) (hbyte : SameByte s x)
    (hprep : x.prep = (s.prepCycle (s.portAt 0)).prep) (hleft : x.byteLeft + 1 = s.byteLeft) (hpos : 0 < x.byteLeft) :
    Advances memLat s (x.issue (s.portAt 0).go).microOps := by
  have hcx := hbyte.cst.trans hc
  refine advances_of_issue h hbyte.cfg hbyte.op (hbyte.late.trans h.inTime.late) ?_ ?_ ?_
  · exact hbyte.wanted (by rw [hprep]; exact prepCycle_prep_eq_none) h.inTime.wanted
  · rw [hprep]
    exact h.prepCycle_dueAfter (.inr hc) (by rw [due_xmit hc, due_xmit hcx]; omega)
  · rw [cyclesLeft_xmit hc, cyclesLeft_xmit hcx, hbyte.nleds, hbyte.byteIx, hbyte.cfg]
    omega

/-- At the start of a byte the whole budget of R151 is left for the one after it. -/
theorem ByteStart.advances {q x : State} (hx : ByteStart q x) (h : s.OnTime goLat memLat) (hq : SameCommand s q) (hlate : q.late = false)
    (hcycles : (3 * s.nleds.toNat - x.byteIx) * (8 * total s.cfg) + 3 = s.cyclesLeft) (hmore : x.byteIx < 3 * s.nleds.toNat) :
    Advances memLat s (x.issue (s.portAt 0).go).microOps := by
  have hcfg := hx.cfg.trans hq.cfg
  have hnleds := hx.nleds.trans hq.nleds
  refine advances_of_issue h hcfg (hx.op.trans hq.op) (hx.late.trans hlate) ⟨fun hset => ?_, fun _ => ?_⟩ ?_ ?_
  · rw [hx.cst] at hset
    cases hset
  · rw [hx.prep]
    cases x.hasNext <;> simp
  · have hbudget := h.budget.byte
    rw [hx.prep, due_xmit hx.cst, hx.byteLeft, hcfg]
    exact dueAfter_of_window _ h.budget.go_now (by omega)
  · obtain ⟨r, hr⟩ : ∃ r, 3 * s.nleds.toNat - x.byteIx = r + 1 := ⟨3 * s.nleds.toNat - x.byteIx - 1, by omega⟩
    rw [cyclesLeft_xmit hx.cst, hx.byteLeft, hcfg, hnleds, ← hcycles, hr, Nat.succ_mul r,
      show 3 * s.nleds.toNat - 1 - x.byteIx = r by omega]

theorem xmitCycle_advances (h : s.OnTime goLat memLat) (hc : s.cst = .xmit) : Advances memLat s (s.xmitCycle (s.portAt 0)) := by
  have hplace := prepCycle_samePlace s (s.portAt 0)
  have hbyte := hplace.toSameByte
  have htotal := total_pos s.cfg
  obtain ⟨hcnt, e⟩ | ⟨hcnt, hbit, e⟩ | ⟨hcnt, hbit, hnext, hready, e⟩ | ⟨hcnt, hbit, hlast, e⟩ :=
    h.xmitCycle_cases hc (s.portAt 0) <;> rw [e]
  · have hleft : (s.prepCycle (s.portAt 0)).count.byteLeft + 1 = s.byteLeft := by
      rw [count_byteLeft (by rw [hplace.cnt]; exact hcnt), hplace.byteLeft]
    have hmore : 1 < s.byteLeft := by unfold State.byteLeft; omega
    exact advances_within_byte h hc (hbyte.trans (count_sameByte _)) rfl hleft (by omega)
  · have hleft : (s.prepCycle (s.portAt 0)).nextBit.count.byteLeft + 1 = s.byteLeft := by
      rw [count_byteLeft_boundary (x := (s.prepCycle (s.portAt 0)).nextBit) (by rw [State.nextBit_cnt, hplace.cnt, hcnt]),
        State.nextBit_biti, hplace.biti, biti_pred_succ hbit, State.nextBit_cfg, hplace.cfg, State.byteLeft, hcnt]
    have hmore : 1 < s.byteLeft := by
      have hpos : 0 < s.biti.toNat := by have := biti_pred_succ hbit; omega
      have := Nat.mul_pos hpos htotal
      unfold State.byteLeft
      omega
    exact advances_within_byte h hc ((hbyte.trans (nextBit_sameByte _)).trans (count_sameByte _)) rfl hleft (by omega)
  · obtain ⟨hstart, hix⟩ := nextByte_byteStart hc hcnt hnext hready
    have hmore := (hasNext_iff (h.inv.position.1 hc)).1 hnext
    refine hstart.advances h ⟨rfl, rfl, rfl, rfl⟩ h.inTime.late ?_ (by omega)
    rw [cyclesLeft_xmit hc, hix, State.byteLeft, hcnt, hbit,
      show 3 * s.nleds.toNat - (s.byteIx + 1) = 3 * s.nleds.toNat - 1 - s.byteIx by omega]
    simp
  · refine ⟨inTime_of_engine_off nofun nofun h.inTime.late, ?_⟩
    have hend : ¬ s.byteIx + 1 < 3 * s.nleds.toNat := by rw [← hasNext_iff (h.inv.position.1 hc), hlast]; simp
    have hzero : 3 * s.nleds.toNat - 1 - s.byteIx = 0 := by omega
    rw [cyclesLeft_adjust rfl, cyclesLeft_xmit hc, hzero, State.byteLeft, hcnt, hbit]
    simp

/-! ## SETUP -/

theorem seedFirst_prep (s : State) : s.seedFirst.prep = s.prep := by
  obtain ⟨_, _, _, _, _, _, e⟩ := seedFirst_frame s
  rw [e]

/-- After the first cycle of SETUP the indices stand at the frame's first bit (R173). -/
theorem seedFirst_indices (h : s.Inv) (hc : s.cst = .setup) : s.seedFirst.pix = 0 ∧ s.seedFirst.slot = 0 ∧ s.seedFirst.biti = 7 := by
  have hleft := h.setup hc
  unfold State.seedFirst
  split_ifs with hfirst
  · exact ⟨rfl, rfl, rfl⟩
  · exact h.position.2 hc (by omega)

/-- SETUP's first two steps of a cycle: the frame is the same, and the indices stand at its first bit. -/
structure SetupPlace (s q : State) : Prop extends SameFrame s q where
  setupLeft : q.setupLeft = s.setupLeft
  pix : q.pix = 0
  slot : q.slot = 0
  biti : q.biti = 7

theorem setup_place (h : s.Inv) (hc : s.cst = .setup) (p : PortIn) : SetupPlace s (s.seedFirst.prepCycle p) := by
  obtain ⟨hpix, hslot, hbiti⟩ := seedFirst_indices h hc
  have hplace := prepCycle_samePlace s.seedFirst p
  obtain ⟨_, _, _, _, _, _, e⟩ := seedFirst_frame s
  have hseed : SameFrame s s.seedFirst := by rw [e]; exact ⟨⟨rfl, rfl, rfl, rfl⟩, rfl, rfl⟩
  exact ⟨hseed.trans hplace.toSameFrame, by rw [hplace.setupLeft, e], hplace.pix.trans hpix, hplace.slot.trans hslot,
    hplace.biti.trans hbiti⟩

theorem seedFirst_prepCycle_none {p : PortIn} (h : s.InTime memLat s.portAt) (hc : s.cst = .setup) :
    (s.seedFirst.prepCycle p).prep = .none ↔ s.nleds = 0 := by
  rw [prepCycle_prep_eq_none, seedFirst_prep]
  exact h.wanted.1 hc

theorem seedFirst_prepCycle_dueAfter {d : Nat} (h : s.InTime memLat s.portAt) (hc : s.cst = .setup) (hd : s.setupLeft = d + 1) :
    (s.seedFirst.prepCycle (s.portAt 0)).prep.DueAfter memLat s.cfg.prepLat s.portAt d := by
  have hdue := h.due (.inl hc)
  rw [due_setup hc, hd, ← seedFirst_prep] at hdue
  rw [← s.seedFirst_keeps.cfg] at hdue ⊢
  exact Machine.prepCycle_dueAfter hdue

/-- A cycle of SETUP is over. -/
def State.spendSetup (s : State) : State := { s with setupLeft := s.setupLeft - 1 }

/-- Everything a cycle of SETUP of a frame on time can be: SETUP goes on; byte 0 is ready and XMIT begins; there is no pixel and ADJUST
follows (R173, R187, R246). -/
theorem State.OnTime.setupCycle_cases (h : s.OnTime goLat memLat) (hc : s.cst = .setup) :
    let q := s.seedFirst.prepCycle (s.portAt 0)
    (1 < s.setupLeft ∧ s.setupCycle (s.portAt 0) = q.spendSetup.issue (s.portAt 0).go) ∨
    (s.setupLeft = 1 ∧ s.nleds ≠ 0 ∧ q.prep = .ready ∧ s.setupCycle (s.portAt 0) = (q.enterXmit.issue (s.portAt 0).go).microOps) ∨
    (s.setupLeft = 1 ∧ s.nleds = 0 ∧ s.setupCycle (s.portAt 0) = q.enterAdjust) := by
  intro q
  have hq : SetupPlace s q := setup_place h.inv hc _
  have hleft := h.inv.setup hc
  by_cases hmore : 1 < s.setupLeft
  · refine .inl ⟨hmore, if_neg ?_⟩
    show ¬ q.setupLeft ≤ 1
    rw [hq.setupLeft]
    omega
  have hone : s.setupLeft = 1 := by omega
  have hleave : s.setupCycle (s.portAt 0) = q.leaveSetup (s.portAt 0).go := if_pos (by rw [hq.setupLeft]; omega)
  rw [hleave, State.leaveSetup, hq.nleds]
  by_cases hn : s.nleds = 0
  · exact .inr (.inr ⟨hone, hn, if_pos hn⟩)
  · have hdue : q.prep.DueAfter memLat s.cfg.prepLat s.portAt 0 := seedFirst_prepCycle_dueAfter h.inTime hc hone
    have hsome : q.prep ≠ .none := fun hnone => hn ((seedFirst_prepCycle_none h.inTime hc).1 hnone)
    have hready : q.prep = .ready := (hdue.ready h.budget.data).resolve_left hsome
    have hfirst : q.firstByte = q := if_pos hready
    refine .inr (.inl ⟨hone, hn, hready, ?_⟩)
    rw [if_neg hn, hfirst]
    obtain ⟨_, e⟩ := q.enterXmit_frame
    exact if_pos (by rw [e])

theorem setupCycle_advances (h : s.OnTime goLat memLat) (hc : s.cst = .setup) : Advances memLat s (s.setupCycle (s.portAt 0)) := by
  have hq := setup_place h.inv hc (s.portAt 0)
  obtain ⟨hmore, e⟩ | ⟨hone, hn, hready, e⟩ | ⟨hone, hn, e⟩ := h.setupCycle_cases hc <;> rw [e]
  · have hdue := seedFirst_prepCycle_dueAfter (d := s.setupLeft - 1) h.inTime hc (by omega)
    have hnone := seedFirst_prepCycle_none (p := s.portAt 0) h.inTime hc
    generalize s.seedFirst.prepCycle (s.portAt 0) = q at *
    have hcq := hq.cst.trans hc
    have hplace := issue_samePlace q.spendSetup (s.portAt 0).go
    refine ⟨issue_inTime (hq.late.trans h.inTime.late) ⟨fun _ => ?_, fun hx => ?_⟩ ?_ ?_ fun ho => ?_, ?_⟩
    · exact hnone.trans (by rw [← hq.nleds]; rfl)
    · exact absurd (hcq.symm.trans hx) nofun
    · rw [due_setup (s := q.spendSetup) hcq]
      show q.prep.DueAfter memLat q.cfg.prepLat s.portAt (q.setupLeft - 1)
      rwa [hq.cfg, hq.setupLeft]
    · exact hq.cfg ▸ h.budget.data
    · exact h.budget.ack_next (hq.op.symm.trans ho)
    · rw [hplace.cyclesLeft, cyclesLeft_setup hc, cyclesLeft_setup (s := q.spendSetup) hcq]
      show q.setupLeft - 1 + frameCycles q.cfg q.nleds.toNat + 2 + 1 = _
      rw [hq.setupLeft, hq.cfg, hq.nleds]
      omega
  · obtain ⟨hstart, hix⟩ := enterXmit_byteStart hready hq.biti
    have hpixels : s.nleds.toNat ≠ 0 := fun h0 => hn (BitVec.eq_of_toNat_eq h0)
    have hzero : (s.seedFirst.prepCycle (s.portAt 0)).byteIx = 0 := by simp [State.byteIx, hq.pix, hq.slot]
    refine hstart.advances h hq.toSameCommand (hq.late.trans h.inTime.late) ?_ (by omega)
    rw [cyclesLeft_setup hc, hone, frameCycles_eq, hix, hzero, Nat.sub_zero]
    omega
  · refine ⟨inTime_of_engine_off nofun nofun (hq.late.trans h.inTime.late), ?_⟩
    rw [cyclesLeft_adjust rfl, cyclesLeft_setup hc, hone, hn]
    simp [frameCycles]

/-! ## The step -/

/-- A cycle of the sequencer of a frame on time, in each of its phases. -/
theorem sequencerCycle_advances (h : s.OnTime goLat memLat) (hi : s.cst ≠ .idle) (hw : s.cst ≠ .waitIdle) :
    Advances memLat s (s.sequencerCycle (s.portAt 0)) := by
  unfold State.sequencerCycle
  cases hc : s.cst with
  | idle => exact absurd hc hi
  | waitIdle => exact absurd hc hw
  | setup => exact setupCycle_advances h hc
  | xmit => exact xmitCycle_advances h hc
  | adjust =>
    refine ⟨inTime_of_engine_off nofun nofun ?_, ?_⟩
    · obtain ⟨_, _, e⟩ := s.writeBack_frame
      simpa [State.adjustCycle, e] using h.inTime.late
    · rw [cyclesLeft_restore rfl, cyclesLeft_adjust hc]
  | restore => exact ⟨inTime_of_engine_off nofun nofun h.inTime.late, by rw [cyclesLeft_idle rfl, cyclesLeft_restore hc]⟩

/-- WAITIDLE is entered by acceptance alone. -/
theorem sequencerCycle_ne_waitIdle (p : PortIn) (hw : s.cst ≠ .waitIdle) : (s.sequencerCycle p).cst ≠ .waitIdle := fun hwait =>
  hw (Cst.waitIdle_mem_successors.1 (hwait ▸ sequencerCycle_cst s p))

theorem finishCycle_inTime {inp : Nat → PortIn} {v : State} (st : Option (Addr × Byte)) (h : v.InTime memLat inp) :
    (finishCycle v st).InTime memLat inp := by
  obtain ⟨_, _, e⟩ := finishCycle_frame v st
  rw [e]
  exact ⟨h.late, h.wanted, h.due⟩

/-- Outside WAITIDLE what is left of the frame does not depend on `NOW`. -/
theorem finishCycle_cyclesLeft {v : State} (st : Option (Addr × Byte)) (hw : v.cst ≠ .waitIdle) :
    (finishCycle v st).cyclesLeft = v.cyclesLeft := by
  obtain ⟨_, _, e⟩ := finishCycle_frame v st
  rw [e]
  cases hc : v.cst with
  | waitIdle => exact absurd hc hw
  | idle => exact (cyclesLeft_idle rfl).trans (cyclesLeft_idle hc).symm
  | setup => exact (cyclesLeft_setup rfl).trans (cyclesLeft_setup hc).symm
  | xmit => exact (cyclesLeft_xmit rfl).trans (cyclesLeft_xmit hc).symm
  | adjust => exact (cyclesLeft_adjust rfl).trans (cyclesLeft_adjust hc).symm
  | restore => exact (cyclesLeft_restore rfl).trans (cyclesLeft_restore hc).symm

theorem finishCycle_ports (v : State) (st : Option (Addr × Byte)) : (finishCycle v st).ports = v.ports.tail := by
  obtain ⟨_, _, e⟩ := finishCycle_frame v st
  rw [e]

/-- The state after a busy cycle without reset. -/
def State.busyNext (s : State) : State := finishCycle (s.sequencerCycle s.port) s.port.hostStore

theorem step_eq_busyNext (hr : s.port.rst = false) (hi : s.cst ≠ .idle) (hf : s.busyFault = none) : step s = .next s.busyNext :=
  step_of_busy hr hi hf

theorem busyNext_ports (s : State) : s.busyNext.ports = s.ports.tail := by
  rw [State.busyNext, finishCycle_ports, (s.sequencerCycle_keeps s.port).ports]

theorem busyNext_sameCommand (s : State) : SameCommand s s.busyNext := by
  have hkeeps := s.sequencerCycle_keeps s.port
  unfold State.busyNext
  obtain ⟨_, _, e⟩ := finishCycle_frame (s.sequencerCycle s.port) s.port.hostStore
  rw [e]
  exact ⟨hkeeps.cfg, hkeeps.op, hkeeps.nleds, hkeeps.base⟩

/-- From the acceptance of a frame command until SETUP: what the invariant will need, of a block whose look-ahead may stand anywhere. -/
structure State.Waits (goLat memLat : Nat) (s : State) : Prop where
  cst : s.cst = .waitIdle
  latches : s.busyFault = none
  low : s.pinOut = false
  mem : s.MemOk
  race : s.RaceNow
  budget : s.Budget goLat memLat

/-- A frame that runs in time, from its acceptance until the block is idle again. -/
def State.InFrame (goLat memLat : Nat) (s : State) : Prop := s.Waits goLat memLat ∨ (s.OnTime goLat memLat ∧ s.cst ≠ .waitIdle)

theorem State.InFrame.latches (h : s.InFrame goLat memLat) (hi : s.cst ≠ .idle) : s.busyFault = none := by
  obtain hwaits | ⟨hontime, -⟩ := h
  · exact hwaits.latches
  · exact hontime.inv.latches hi

/-- The block waits on. -/
theorem finishCycle_waits {v : State} (st : Option (Addr × Byte)) (hcst : v.cst = .waitIdle) (hf : v.busyFault = none)
    (hlow : v.pinOut = false) (hm : v.MemOk) (hrace : v.RaceNow) (hbudget : (finishCycle v st).Budget goLat memLat) :
    (finishCycle v st).Waits goLat memLat := by
  have hmem : (finishCycle v st).MemOk := by
    rw [State.MemOk, finishCycle_mem]
    exact v.hostStores_wf st hm
  have hraces : ∀ c ∈ (finishCycle v st).superseded, v.op = .showFrame ∧ inBuffer v.cfg v.base v.nleds c.1 = true := by
    intro c hc
    rw [finishCycle_superseded] at hc
    obtain hold | hlent := v.mem_noteRace hc
    · exact hrace c hold
    · obtain ⟨-, hop, hlo, hhi⟩ := State.lends_iff.1 hlent
      exact ⟨hop, by simp [inBuffer, hlo, hhi]⟩
  obtain ⟨_, _, e⟩ := finishCycle_frame v st
  rw [e] at hmem hraces hbudget ⊢
  exact ⟨hcst, hf, hlow, hmem, hraces, hbudget⟩

/-- SETUP begins: whatever stood in the look-ahead is gone, and byte 0 has the whole budget of R246. -/
theorem enterSetup_inTime (h : s.Waits goLat memLat) : (s.enterSetup (s.portAt 0).go).InTime memLat (fun m => s.portAt (m + 1)) := by
  have hbudget := h.budget.setup
  unfold State.enterSetup
  refine issue_inTime rfl ⟨fun _ => ?_, nofun⟩ ?_ h.budget.data h.budget.ack_next
  · by_cases hn : s.nleds = 0 <;> simp [hn]
  · rw [due_setup rfl]
    by_cases hn : s.nleds = 0
    · simp only [hn, State.emit_prep, State.goto_prep, if_true]
      exact dueAfter_of_window false h.budget.go_now hbudget
    · simp only [hn, State.emit_prep, State.goto_prep, if_false]
      exact dueAfter_of_window true h.budget.go_now hbudget

theorem waitIdleCycle_of_elapsed (p : PortIn) (he : s.lastmark + s.cfg.wait ≤ s.now) : s.waitIdleCycle p = s.enterSetup p.go := if_pos he

theorem waitIdleCycle_of_not_elapsed (p : PortIn) (he : ¬ s.lastmark + s.cfg.wait ≤ s.now) : s.waitIdleCycle p = s := if_neg he

theorem enterSetup_inv (h : s.Waits goLat memLat) (he : s.lastmark + s.cfg.wait ≤ s.now) (p : PortIn) : (s.enterSetup p.go).Inv := by
  have hrest : ({ s with prep := .none } : State).Inv := by
    refine inv_of_engine_off ?_ ?_ rfl h.low h.mem (fun _ => h.latches) (by unfold State.ClockOk; show s.lastmark ≤ s.now; omega) ?_
      (fun _ => h.race) ?_
    · simp [h.cst]
    · simp [h.cst]
    · simp [State.DitherOk, State.Seeded, h.cst]
    · simp [State.TickOk, h.cst]
  have henter := waitIdle_inv p hrest h.cst h.latches
  rwa [waitIdleCycle_of_elapsed (s := { s with prep := .none }) p he] at henter

/-- A cycle of WAITIDLE (R172). -/
theorem waits_busyNext (h : s.Waits goLat memLat) : s.busyNext.InFrame goLat memLat ∧ s.busyNext.cyclesLeft + 1 = s.cyclesLeft := by
  have hbudget := h.budget.next (busyNext_sameCommand s).cfg (busyNext_sameCommand s).op (busyNext_ports s)
  have hseq : s.sequencerCycle s.port = s.waitIdleCycle s.port := by unfold State.sequencerCycle; rw [h.cst]
  have hinp : s.busyNext.portAt = fun m => s.portAt (m + 1) := funext (portAt_of_ports_tail (busyNext_ports s))
  rw [cyclesLeft_waitIdle h.cst]
  unfold State.busyNext at hbudget hinp ⊢
  rw [hseq] at hbudget hinp ⊢
  by_cases he : s.lastmark + s.cfg.wait ≤ s.now
  · rw [waitIdleCycle_of_elapsed _ he] at hbudget hinp ⊢
    have hintime := enterSetup_inTime h
    rw [← hinp, ← s.port_eq_portAt_zero] at hintime
    obtain ⟨_, e⟩ := s.enterSetup_frame s.port.go
    have hsetup : (s.enterSetup s.port.go).cst = .setup := by rw [e]
    have hw : (s.enterSetup s.port.go).cst ≠ .waitIdle := by rw [hsetup]; nofun
    refine ⟨.inr ⟨⟨inv_finish _ (enterSetup_inv h he s.port), hbudget, finishCycle_inTime _ hintime⟩, ?_⟩, ?_⟩
    · obtain ⟨_, _, e'⟩ := finishCycle_frame (s.enterSetup s.port.go) s.port.hostStore
      rw [e']
      exact hw
    · rw [finishCycle_cyclesLeft _ hw, cyclesLeft_setup hsetup, e]
      show s.cfg.setupLat + frameCycles s.cfg s.nleds.toNat + 2 + 1 = _
      omega
  · rw [waitIdleCycle_of_not_elapsed _ he] at hbudget hinp ⊢
    have hwaits := finishCycle_waits s.port.hostStore h.cst h.latches h.low h.mem h.race hbudget
    refine ⟨.inl hwaits, ?_⟩
    rw [cyclesLeft_waitIdle hwaits.cst]
    obtain ⟨_, _, e⟩ := finishCycle_frame s s.port.hostStore
    rw [e]
    show s.lastmark + s.cfg.wait - (s.now + 1) + s.cfg.setupLat + frameCycles s.cfg s.nleds.toNat + 3 + 1 = _
    omega

/-- A cycle from SETUP on. -/
theorem onTime_busyNext (h : s.OnTime goLat memLat) (hi : s.cst ≠ .idle) (hw : s.cst ≠ .waitIdle) :
    s.busyNext.InFrame goLat memLat ∧ s.busyNext.cyclesLeft + 1 = s.cyclesLeft := by
  have hf := h.inv.latches hi
  have hbudget := h.budget.next (busyNext_sameCommand s).cfg (busyNext_sameCommand s).op (busyNext_ports s)
  have hinp : s.busyNext.portAt = fun m => s.portAt (m + 1) := funext (portAt_of_ports_tail (busyNext_ports s))
  have hinv : s.busyNext.Inv := inv_finish _ (sequencerCycle_inv _ h.inv hf)
  have hw' := sequencerCycle_ne_waitIdle s.port hw
  have hnot : s.busyNext.cst ≠ .waitIdle := by
    unfold State.busyNext
    obtain ⟨_, _, e⟩ := finishCycle_frame (s.sequencerCycle s.port) s.port.hostStore
    rw [e]
    exact hw'
  obtain ⟨hintime, hcycles⟩ := sequencerCycle_advances h hi hw
  rw [← hinp, ← s.port_eq_portAt_zero] at hintime
  rw [← s.port_eq_portAt_zero] at hcycles
  exact ⟨.inr ⟨⟨hinv, hbudget, finishCycle_inTime _ hintime⟩, hnot⟩,
    by rw [State.busyNext, finishCycle_cyclesLeft _ hw', hcycles]⟩

theorem inFrame_busyNext (h : s.InFrame goLat memLat) (hi : s.cst ≠ .idle) :
    s.busyNext.InFrame goLat memLat ∧ s.busyNext.cyclesLeft + 1 = s.cyclesLeft := by
  obtain hwaits | ⟨hontime, hw⟩ := h
  · exact waits_busyNext hwaits
  · exact onTime_busyNext hontime hi hw

theorem cst_ne_idle_of_cyclesLeft {k : Nat} (h : k + 1 ≤ s.cyclesLeft) : s.cst ≠ .idle := by
  intro hc
  rw [cyclesLeft_idle hc] at h
  omega

/-- A frame on time is over when no cycle is left. -/
theorem State.InFrame.idle_of_cyclesLeft (h : s.InFrame goLat memLat) (hz : s.cyclesLeft = 0) : s.cst = .idle := by
  by_contra hi
  have := (inFrame_busyNext h hi).2
  omega

/-- The induction over a frame: it runs through any number of its cycles, and what each of them keeps holds after them. -/
theorem runFor_inFrame {P : State → Prop}
    (hP : ∀ s : State, s.InFrame goLat memLat → s.cst ≠ .idle → P s → P s.busyNext) (k : Nat)
    (h : s.InFrame goLat memLat) (hs : P s) (hk : k ≤ s.cyclesLeft) (hr : s.Undisturbed k) :
    ∃ u, runFor k s = .next u ∧ u.InFrame goLat memLat ∧ u.cyclesLeft + k = s.cyclesLeft ∧ SameCommand s u ∧ P u := by
  induction k generalizing s with
  | zero => exact ⟨s, rfl, h, rfl, ⟨rfl, rfl, rfl, rfl⟩, hs⟩
  | succ k ih =>
    have hi := cst_ne_idle_of_cyclesLeft hk
    have hr0 : s.port.rst = false := s.port_eq_portAt_zero ▸ hr 0 k.succ_pos
    obtain ⟨hnext, hcycles⟩ := inFrame_busyNext h hi
    have hlater := portAt_of_ports_tail (busyNext_ports s)
    obtain ⟨u, hrun, hu, hleft, hcommand, hPu⟩ := ih hnext (hP s h hi hs) (by omega) fun j hj => hlater j ▸ hr (j + 1) (by omega)
    exact ⟨u, (runFor_succ (step_eq_busyNext hr0 hi (h.latches hi))).trans hrun, hu, by omega,
      (busyNext_sameCommand s).trans hcommand, hPu⟩

/-! ## Acceptance -/

/-- The state after the cycle that accepts a command. -/
def State.acceptNext (i : Instr) (s : State) : State := finishCycle (acceptedState i s) s.port.hostStore

/-- What a frame command's acceptance sets and leaves of the state (R171). -/
theorem acceptedState_of_isFrame {i : Instr} (s : State) (hi : i.opcode.isFrame = true) :
    (acceptedState i s).cst = .waitIdle ∧ (acceptedState i s).op = i.opcode ∧ (acceptedState i s).nleds = i.count ∧
      (acceptedState i s).superseded = [] ∧ (acceptedState i s).pinOut = s.pinOut ∧ (acceptedState i s).trace = s.trace ∧
      (acceptedState i s).ports = s.ports := by
  cases i with
  | init => cases hi
  | showFrame base n sc => exact ⟨rfl, rfl, rfl, rfl, rfl, rfl, rfl⟩
  | showColor color n sc => exact ⟨rfl, rfl, rfl, rfl, rfl, rfl, rfl⟩
  | clear n => exact ⟨rfl, rfl, rfl, rfl, rfl, rfl, rfl⟩

/-- An admitted frame command leaves latches that no fault names (R255). -/
theorem acceptedState_busyFault {i : Instr} (hi : i.opcode.isFrame = true) (hw : i.wellFormed s.cfg = true) :
    (acceptedState i s).busyFault = none := by
  obtain ⟨hbuffer, htick⟩ := Bool.and_eq_true_iff.1 hw
  rw [State.busyFault_none]
  cases i with
  | init => cases hi
  | showFrame base n sc => exact ⟨nofun, fun _ => hbuffer, htick⟩
  | showColor color n sc => exact ⟨nofun, nofun, htick⟩
  | clear n => exact ⟨nofun, nofun, htick⟩

section Start

variable {i : Instr} (h : s.StartsFrame i)
include h

theorem acceptNext_step : step s = .next (s.acceptNext i) := by
  have hr : s.port.rst = false := s.port_eq_portAt_zero ▸ h.noReset 0 (by unfold busyCycles adjustAt firstBit waitEnd; omega)
  rw [step_of_offer hr h.idle h.offered, exec_next.2 ⟨h.admitted, rfl⟩]
  rfl

theorem acceptNext_ports : (s.acceptNext i).ports = s.ports.tail := by
  obtain ⟨-, -, -, -, -, -, hports⟩ := acceptedState_of_isFrame s h.frame
  rw [State.acceptNext, finishCycle_ports, hports]

theorem acceptNext_latches : (s.acceptNext i).cst = .waitIdle ∧ (s.acceptNext i).cfg = s.cfg ∧ (s.acceptNext i).op = i.opcode ∧
    (s.acceptNext i).nleds = i.count ∧ (s.acceptNext i).base = (acceptedState i s).base ∧ (s.acceptNext i).trace = s.trace := by
  obtain ⟨hcst, hop, hn, -, -, htrace, -⟩ := acceptedState_of_isFrame s h.frame
  unfold State.acceptNext
  obtain ⟨_, _, e⟩ := finishCycle_frame (acceptedState i s) s.port.hostStore
  rw [e]
  exact ⟨hcst, acceptedState_cfg i s, hop, hn, rfl, htrace⟩

/-- The frame begins to wait, within the host's budget. -/
theorem acceptNext_waits : ∃ goLat memLat, (s.acceptNext i).Waits goLat memLat := by
  obtain ⟨hcst, hop, -, hraces, hpin, -, -⟩ := acceptedState_of_isFrame s h.frame
  obtain ⟨-, hcfg, hop', -, -, -⟩ := acceptNext_latches h
  obtain ⟨goLat, memLat, hbudget⟩ := budget_of_timely (hop' ▸ h.timely) hcfg (acceptNext_ports h)
  refine ⟨goLat, memLat, finishCycle_waits _ hcst (acceptedState_busyFault h.frame h.admitted) (hpin.trans h.low) ?_ ?_ hbudget⟩
  · rw [State.MemOk, acceptedState_mem]
    exact h.memory
  · rw [State.RaceNow, hraces]
    nofun

/-- The schedule of R178: accepted in cycle `a`, the block is idle in cycle `g + 2`. -/
theorem acceptNext_cyclesLeft : (s.acceptNext i).cyclesLeft + 1 = busyCycles s.cfg s.now s.lastmark i.count.toNat := by
  obtain ⟨hcst, hcfg, -, hn, -, -⟩ := acceptNext_latches h
  have hnow : (s.acceptNext i).now = s.now + 1 := by rw [State.acceptNext, finishCycle_now, acceptedState_now]
  have hmark : (s.acceptNext i).lastmark = s.lastmark := by rw [State.acceptNext, finishCycle_lastmark, acceptedState_lastmark]
  rw [cyclesLeft_waitIdle hcst, hmark, hcfg, hnow, hn]
  unfold busyCycles adjustAt firstBit waitEnd
  omega

/-- A whole frame command, up to any of its cycles: what its acceptance gives and each of its cycles keeps holds there. -/
theorem runFor_startsFrame {P : State → Prop} (h0 : P (s.acceptNext i))
    (hP : ∀ (goLat memLat : Nat) (t : State), t.InFrame goLat memLat → t.cst ≠ .idle → P t → P t.busyNext) {k : Nat}
    (hk : k + 1 ≤ busyCycles s.cfg s.now s.lastmark i.count.toNat) :
    ∃ u, runFor (k + 1) s = .next u ∧ (∃ goLat memLat, u.InFrame goLat memLat) ∧
      u.cyclesLeft + k + 1 = busyCycles s.cfg s.now s.lastmark i.count.toNat ∧ SameCommand (s.acceptNext i) u ∧ P u := by
  obtain ⟨goLat, memLat, hwaits⟩ := acceptNext_waits h
  have hcycles := acceptNext_cyclesLeft h
  have hlater := portAt_of_ports_tail (acceptNext_ports h)
  obtain ⟨u, hrun, hu, hleft, hcommand, hPu⟩ := runFor_inFrame (hP goLat memLat) k (.inl hwaits) h0 (by omega)
    fun j hj => hlater j ▸ h.noReset (j + 1) (by omega)
  exact ⟨u, (runFor_succ (acceptNext_step h)).trans hrun, ⟨goLat, memLat, hu⟩, by omega, hcommand, hPu⟩

end Start

end

end Sys2Proof.Machine
end

