-- ==== Sys2Proof/Proofs/FrameReads.lean ====
section
/-! PROOFS. The reads of a frame on time, against its bits: what is on the wire at each place of the frame, and so at its end
(spec/20_memory.md R64, R65, R75; spec/43_controller_commands.md R179). -/

namespace Sys2Proof.Machine

/-! ## Wire events in order -/

theorem traceBits_append (es fs : List Event) : traceBits (es ++ fs) = traceBits es ++ traceBits fs := by
  induction es with
  | nil => rfl
  | cons e es ih => cases e <;> simp [traceBits, ih]

/-- The windows of a trace are those of its first part, and those of the rest after the bits and reads of the first. -/
theorem interleaved_append (es fs : List Event) (b r : Nat) : interleaved b r (es ++ fs) =
    (interleaved b r es && interleaved (b + (traceBits es).length) (r + (traceReads es).length) fs) := by
  induction es generalizing b r with
  | nil => rfl
  | cons e es ih =>
    cases e with
    | bit x =>
      simp only [List.cons_append, interleaved, traceBits, traceReads, ih, List.length_cons, Bool.and_assoc, Nat.add_right_comm b 1]
      rfl
    | read a =>
      simp only [List.cons_append, interleaved, traceBits, traceReads, ih, List.length_cons, Bool.and_assoc, Nat.add_right_comm r 1]
      rfl
    | irqOff => exact ih b r
    | tick ms => exact ih b r
    | irqOn => exact ih b r
    | mark => exact ih b r

/-- The wire events of a frame whose first `b` bits are out: a SHOW has read its first `r` bytes, each in its window; the other frames
have read nothing (20_memory.md R64, R65, R75). -/
structure WireLog (cfg : Config) (op : Opcode) (base : Addr) (r b : Nat) (wire : List Event) : Prop where
  reads : traceReads wire = if op = .showFrame then (List.range r).map (byteAddr cfg base) else []
  bits : (traceBits wire).length = b
  windows : op = .showFrame → interleaved 0 0 wire = true

section

variable {cfg : Config} {op : Opcode} {base : Addr} {r b : Nat} {wire : List Event}

theorem wireLog_nil : WireLog cfg op base 0 0 [] := ⟨by simp [traceReads], rfl, fun _ => rfl⟩

theorem WireLog.reads_length (h : WireLog cfg op base r b wire) (hop : op = .showFrame) : (traceReads wire).length = r := by
  rw [h.reads, if_pos hop, List.length_map, List.length_range]

/-- A bit goes out whose byte has been read (R65, R179). -/
theorem WireLog.bit (h : WireLog cfg op base r b wire) (hwindow : b / 8 < r) (x : Bool) :
    WireLog cfg op base r (b + 1) (wire ++ [.bit x]) where
  reads := by rw [traceReads_append, h.reads]; exact List.append_nil _
  bits := by rw [traceBits_append, List.length_append, h.bits]; rfl
  windows hop := by
    rw [interleaved_append, h.windows hop, h.bits, h.reads_length hop]
    simpa [interleaved] using hwindow

/-- The next byte is read, no earlier than the first bit of the byte before it (R65, R179). -/
theorem WireLog.read (h : WireLog cfg op base r b wire) (hop : op = .showFrame) (hwindow : r = 0 ∨ 8 * (r - 1) < b) :
    WireLog cfg op base (r + 1) b (wire ++ [.read (byteAddr cfg base r)]) where
  reads := by
    rw [traceReads_append, h.reads, if_pos hop, if_pos hop, List.range_succ, List.map_append]
    rfl
  bits := by rw [traceBits_append, List.length_append, h.bits]; rfl
  windows _ := by
    rw [interleaved_append, h.windows hop, h.bits, h.reads_length hop]
    simpa [interleaved] using hwindow

/-- Without a SHOW nothing is read, however many bytes have been taken. -/
theorem WireLog.of_not_show (h : WireLog cfg op base r b wire) (hop : op ≠ .showFrame) (r' : Nat) : WireLog cfg op base r' b wire where
  reads := by rw [h.reads, if_neg hop, if_neg hop]
  bits := h.bits
  windows ho := absurd ho hop

end

/-! ## The wire events at a place of the frame -/

/-- The bytes taken of the one being prepared: one, once its raw byte is in the data path. -/
def Prep.fetched : Prep → Nat
  | .none => 0
  | .pending => 0
  | .reading _ => 0
  | .computing _ _ => 1
  | .ready => 1

theorem Prep.Taken.fetched {prepLat : Nat} {q : Prep} (h : q.Taken prepLat) : q.fetched = 1 := by
  obtain ⟨-, rfl⟩ | ⟨-, _, rfl⟩ := h <;> rfl

theorem Prep.Taken.ne_reading {prepLat : Nat} {q : Prep} (h : q.Taken prepLat) (a : Addr) : q ≠ .reading a := by
  obtain ⟨-, rfl⟩ | ⟨-, _, rfl⟩ := h <;> nofun

/-- The bytes of the frame taken so far. -/
def State.readsDone (s : State) : Nat := s.nextIx + s.prep.fetched

/-- The bits of the frame that have gone out, the one on the wire among them. -/
def State.bitsDone (s : State) : Nat := if s.cst = .setup then 0 else 8 * s.byteIx + (8 - s.biti.toNat)

/-- After the events `T`, which come before the frame's own, the wire events of the frame are on the trace up to its present place, with
`b` bits out; a request is for the byte to prepare. -/
def State.Logged (T : List Event) (b : Nat) (s : State) : Prop :=
  (∀ a, s.prep = .reading a → a = byteAddr s.cfg s.base s.nextIx) ∧
  ∃ wire, s.trace = T ++ wire ∧ WireLog s.cfg s.op s.base s.readsDone b wire

section

variable {T : List Event} {b : Nat} {s : State}

theorem bitsDone_setup (hc : s.cst = .setup) : s.bitsDone = 0 := if_pos hc

theorem bitsDone_xmit (hc : s.cst = .xmit) : s.bitsDone = 8 * s.byteIx + (8 - s.biti.toNat) := if_neg (by simp [hc])

/-- What is logged depends on the command, the next byte, the look-ahead and the trace alone. -/
theorem State.Logged.congr {t : State} (h : s.Logged T b) (hcommand : SameCommand s t) (hix : t.nextIx = s.nextIx) (hprep : t.prep = s.prep)
    (htrace : t.trace = s.trace) : t.Logged T b := by
  unfold State.Logged State.readsDone at *
  rw [hprep, hcommand.cfg, hcommand.base, hix, htrace, hcommand.op]
  exact h

/-- The look-ahead's part of a cycle reads at most the byte to prepare, in its window. -/
theorem prepCycle_logged (p : PortIn) (h : s.Logged T b) (hshow : ∀ a, s.prep = .reading a → s.op = .showFrame)
    (hwindow : s.nextIx = 0 ∨ 8 * (s.nextIx - 1) < b) : (s.prepCycle p).Logged T b := by
  obtain ⟨hrequest, wire, htrace, hlog⟩ := h
  have hplace := prepCycle_samePlace s p
  unfold State.Logged State.readsDone at *
  rw [hplace.cfg, hplace.base, hplace.op, hplace.nextIx]
  obtain ⟨-, -, e⟩ | ⟨a, hq, hread, htaken⟩ | ⟨raw, left, hq, hsame, hnext⟩ := prepCycle_cases s p
  · rw [e]
    exact ⟨hrequest, wire, htrace, hlog⟩
  · refine ⟨fun a' ha' => absurd ha' (htaken.ne_reading a'), wire ++ [.read a], by rw [hread, htrace, List.append_assoc], ?_⟩
    rw [hq] at hlog
    rw [htaken.fetched, hrequest a hq]
    exact hlog.read (hshow a hq) hwindow
  · rw [hq] at hlog
    refine ⟨fun a ha => ?_, wire, hsame.trans htrace, ?_⟩
    · rw [hnext] at ha
      split_ifs at ha
    · rw [hnext]
      split_ifs <;> exact hlog

theorem issue_trace (s : State) (go : Bool) : (s.issue go).trace = s.trace := by
  obtain ⟨_, e⟩ := s.issue_frame go
  rw [e]

/-- An issue asks for the byte to prepare, and reads nothing. -/
theorem issue_logged (go : Bool) (h : s.Logged T b) : (s.issue go).Logged T b := by
  have hplace := issue_samePlace s go
  have htrace := issue_trace s go
  obtain ⟨hq, -, e⟩ | ⟨-, e⟩ := issue_cases s go
  swap
  · rwa [e]
  obtain ⟨-, wire, hwire, hlog⟩ := h
  unfold State.Logged State.readsDone at *
  rw [hplace.cfg, hplace.base, hplace.op, hplace.nextIx, htrace, e]
  rw [hq] at hlog
  obtain ⟨-, hreading⟩ | ⟨hop, raw, hcomputing⟩ := startPrep_cases s
  · rw [hreading]
    exact ⟨fun a ha => by cases ha; rfl, wire, hwire, hlog⟩
  · rw [hcomputing]
    exact ⟨nofun, wire, hwire, hlog.of_not_show hop _⟩

/-- The pin's micro-operations put a bit on the trace at its boundary, its byte having been read, and nothing elsewhere. -/
theorem microOps_logged (h : s.Logged T b) (hwindow : s.wrap = true → b / 8 < s.readsDone) :
    s.microOps.Logged T (if s.wrap then b + 1 else b) := by
  unfold State.microOps waitbDone
  split_ifs with hwrap
  · obtain ⟨hrequest, wire, htrace, hlog⟩ := h
    have hsent := hlog.bit (hwindow hwrap) (currentBit s)
    refine ⟨hrequest, wire ++ [Event.bit (currentBit s)], ?_, hsent⟩
    rw [State.emit_trace, State.setPin_trace, htrace, List.append_assoc]
  · exact h
  · exact h
  · exact h

/-- Issue and micro-operations together, inside a bit. -/
theorem issue_microOps_logged (go : Bool) (h : s.Logged T b) (hwrap : s.wrap = false) : (s.issue go).microOps.Logged T b := by
  have hwrap' := (issue_samePlace s go).wrap.trans hwrap
  simpa [hwrap'] using microOps_logged (issue_logged go h) (by simp [hwrap'])

/-- Issue and micro-operations together, at the boundary of a bit whose byte has been read. -/
theorem issue_microOps_logged_boundary (go : Bool) (h : s.Logged T b) (hwrap : s.wrap = true) (hwindow : b / 8 < s.nextIx) :
    (s.issue go).microOps.Logged T (b + 1) := by
  have hplace := issue_samePlace s go
  have hwrap' := hplace.wrap.trans hwrap
  have hread : b / 8 < (s.issue go).readsDone := by rw [State.readsDone, hplace.nextIx]; omega
  simpa [hwrap'] using microOps_logged (issue_logged go h) fun _ => hread

/-- A window opens: the byte that was being prepared has been taken, and the one after it is to be. -/
theorem ByteStart.logged {x : State} (hx : ByteStart s x) (h : s.Logged T b) (hix : x.nextIx = s.readsDone) : x.Logged T b := by
  obtain ⟨-, wire, hwire, hlog⟩ := h
  have hfetched : x.prep.fetched = 0 := by rw [hx.prep]; cases x.hasNext <;> rfl
  refine ⟨fun a ha => ?_, wire, hx.trace.trans hwire, ?_⟩
  · rw [hx.prep] at ha
    split_ifs at ha
  · rw [hx.cfg, hx.op, hx.base, State.readsDone, hfetched, hix]
    exact hlog

/-! ## The trace in each phase -/

/-- The tick event of the frame. -/
def State.tickEvent (s : State) : Event := .tick (BitVec.ofNat 32 (tickMs s.cfg s.nleds.toNat))

/-- All of the frame's wire events are on the trace, and then those of `tail`. -/
def State.Sent (T tail : List Event) (s : State) : Prop :=
  ∃ wire, s.trace = T ++ wire ++ tail ∧ WireLog s.cfg s.op s.base (3 * s.nleds.toNat) (24 * s.nleds.toNat) wire

/-- The trace of a frame accepted after the events `T`, phase by phase (43_controller_commands.md R179). -/
def State.TraceOk (T : List Event) (s : State) : Prop :=
  match s.cst with
  | .waitIdle => s.trace = T
  | .setup => s.Logged (T ++ [.irqOff]) s.bitsDone
  | .xmit => s.Logged (T ++ [.irqOff]) s.bitsDone
  | .adjust => s.Sent (T ++ [.irqOff]) [s.tickEvent]
  | .restore => s.Sent (T ++ [.irqOff]) [s.tickEvent, .irqOn]
  | .idle => s.Sent (T ++ [.irqOff]) [s.tickEvent, .irqOn, .mark]

theorem traceOk_waitIdle (hc : s.cst = .waitIdle) : s.TraceOk T ↔ s.trace = T := by rw [State.TraceOk, hc]

theorem traceOk_setup (hc : s.cst = .setup) : s.TraceOk T ↔ s.Logged (T ++ [.irqOff]) 0 := by
  rw [State.TraceOk, hc, bitsDone_setup hc]

theorem traceOk_xmit (hc : s.cst = .xmit) :
    s.TraceOk T ↔ s.Logged (T ++ [.irqOff]) (8 * s.byteIx + (8 - s.biti.toNat)) := by rw [State.TraceOk, hc, bitsDone_xmit hc]

theorem traceOk_adjust (hc : s.cst = .adjust) : s.TraceOk T ↔ s.Sent (T ++ [.irqOff]) [s.tickEvent] := by rw [State.TraceOk, hc]

theorem traceOk_restore (hc : s.cst = .restore) : s.TraceOk T ↔ s.Sent (T ++ [.irqOff]) [s.tickEvent, .irqOn] := by
  rw [State.TraceOk, hc]

theorem traceOk_idle (hc : s.cst = .idle) : s.TraceOk T ↔ s.Sent (T ++ [.irqOff]) [s.tickEvent, .irqOn, .mark] := by
  rw [State.TraceOk, hc]

theorem finishCycle_traceOk (st : Option (Addr × Byte)) (h : s.TraceOk T) : (finishCycle s st).TraceOk T := by
  obtain ⟨_, _, e⟩ := finishCycle_frame s st
  rw [e]
  exact h

theorem State.Sent.emit {tail : List Event} {t : State} (h : s.Sent T tail) (hcommand : SameCommand s t) (e : Event)
    (htrace : t.trace = s.trace ++ [e]) : t.Sent T (tail ++ [e]) := by
  obtain ⟨wire, hwire, hlog⟩ := h
  refine ⟨wire, by rw [htrace, hwire, List.append_assoc], ?_⟩
  rw [hcommand.cfg, hcommand.op, hcommand.base, hcommand.nleds]
  exact hlog

/-- ADJUST is entered once the last byte has been read and its last bit is out. -/
theorem enterAdjust_sent (h : s.Logged T b) (hreads : s.readsDone = 3 * s.nleds.toNat) (hbits : b = 24 * s.nleds.toNat) :
    s.enterAdjust.Sent T [s.tickEvent] := by
  obtain ⟨-, wire, hwire, hlog⟩ := h
  refine ⟨wire, by rw [State.enterAdjust_trace, hwire]; rfl, ?_⟩
  rw [hreads, hbits] at hlog
  exact hlog

/-- SETUP begins with nothing on the wire. -/
theorem logged_of_setup (hc : s.cst = .setup) (hprep : s.prep = if s.nleds = 0 then .none else .pending) (htrace : s.trace = T) :
    s.Logged T 0 := by
  have hfetched : s.prep.fetched = 0 := by rw [hprep]; split_ifs <;> rfl
  refine ⟨fun a ha => ?_, [], by simp [htrace], ?_⟩
  · rw [hprep] at ha
    split_ifs at ha
  · rw [State.readsDone, nextIx_setup hc, hfetched]
    exact wireLog_nil

/-! ## The phases -/

theorem waitIdleCycle_traceOk (p : PortIn) (hc : s.cst = .waitIdle) (h : s.TraceOk T) : (s.waitIdleCycle p).TraceOk T := by
  unfold State.waitIdleCycle
  split_ifs
  swap
  · exact h
  obtain ⟨_, e⟩ := s.enterSetup_frame p.go
  rw [traceOk_waitIdle hc] at h
  rw [traceOk_setup (by rw [e])]
  unfold State.enterSetup
  exact issue_logged p.go (logged_of_setup rfl rfl (congrArg (· ++ [Event.irqOff]) h))

variable {goLat memLat : Nat}

/-- A request is a SHOW's (20_memory.md R64, R75). -/
theorem op_of_reading (h : s.Inv) {a : Addr} (hprep : s.prep = .reading a) : s.op = .showFrame := by
  obtain ⟨-, -, -, hreading, -⟩ := h.prep
  exact (hreading a hprep).1

/-- In SETUP nothing is on the wire but the read of byte 0. -/
theorem seedFirst_prepCycle_logged (p : PortIn) (h : s.Inv) (hc : s.cst = .setup) (hlog : s.Logged T 0) :
    (s.seedFirst.prepCycle p).Logged T 0 := by
  obtain ⟨_, _, _, _, _, _, e⟩ := seedFirst_frame s
  have hcst : s.seedFirst.cst = .setup := by rw [e]; exact hc
  have hseed : s.seedFirst.Logged T 0 := by
    refine hlog.congr (by rw [e]; exact ⟨rfl, rfl, rfl, rfl⟩) ?_ (seedFirst_prep s) (by rw [e])
    rw [nextIx_setup hcst, nextIx_setup hc]
  refine prepCycle_logged p hseed (fun a ha => ?_) (.inl (nextIx_setup hcst))
  rw [seedFirst_prep] at ha
  rw [s.seedFirst_keeps.op]
  exact op_of_reading h ha

/-- At the start of a byte, which has been read, its first bit goes out. -/
theorem ByteStart.traceOk {x : State} (hx : ByteStart s x) (go : Bool) (hlog : s.Logged (T ++ [.irqOff]) (8 * x.byteIx))
    (hix : x.byteIx + 1 = s.readsDone) : (x.issue go).microOps.TraceOk T := by
  have hplace := (issue_samePlace x go).trans (microOps_samePlace _)
  have hnext : x.nextIx = x.byteIx + 1 := nextIx_xmit hx.cst
  rw [traceOk_xmit (hplace.cst.trans hx.cst), hplace.byteIx, hplace.biti, hx.biti]
  exact issue_microOps_logged_boundary go (hx.logged hlog (hnext.trans hix)) hx.wrap (by omega)

theorem setupCycle_traceOk (h : s.OnTime goLat memLat) (hc : s.cst = .setup) (ht : s.TraceOk T) :
    (s.setupCycle (s.portAt 0)).TraceOk T := by
  have hq := setup_place h.inv hc (s.portAt 0)
  have hlog := seedFirst_prepCycle_logged (s.portAt 0) h.inv hc ((traceOk_setup hc).1 ht)
  have hnone := seedFirst_prepCycle_none (p := s.portAt 0) h.inTime hc
  obtain ⟨-, e⟩ | ⟨-, -, hready, e⟩ | ⟨-, hn, e⟩ := h.setupCycle_cases hc <;> rw [e] <;>
    generalize s.seedFirst.prepCycle (s.portAt 0) = q at *
  · have hcst := (issue_samePlace q.spendSetup (s.portAt 0).go).cst.trans (hq.cst.trans hc)
    exact (traceOk_setup hcst).2 (issue_logged (s := q.spendSetup) _ hlog)
  · have hix : q.byteIx = 0 := by simp [State.byteIx, hq.pix, hq.slot]
    have hreads : q.readsDone = 1 := by rw [State.readsDone, nextIx_setup (hq.cst.trans hc), hready]; rfl
    obtain ⟨hstart, hstartix⟩ := enterXmit_byteStart hready hq.biti
    exact hstart.traceOk _ (by rw [hstartix, hix]; exact hlog) (by rw [hstartix, hix, hreads])
  · have hreads : q.readsDone = 3 * q.nleds.toNat := by
      rw [State.readsDone, nextIx_setup (hq.cst.trans hc), hnone.2 hn, hq.nleds, hn]
      rfl
    exact (traceOk_adjust rfl).2 (enterAdjust_sent hlog hreads (by rw [hq.nleds, hn]; rfl))

theorem xmitCycle_traceOk (h : s.OnTime goLat memLat) (hc : s.cst = .xmit) (ht : s.TraceOk T) :
    (s.xmitCycle (s.portAt 0)).TraceOk T := by
  have hplace := prepCycle_samePlace s (s.portAt 0)
  have hpix := h.inv.position.1 hc
  have hbiti := s.biti.isLt
  have hix : s.nextIx = s.byteIx + 1 := nextIx_xmit hc
  have hlog := (traceOk_xmit hc).1 ht
  have hq : (s.prepCycle (s.portAt 0)).Logged (T ++ [.irqOff]) (8 * s.byteIx + (8 - s.biti.toNat)) :=
    prepCycle_logged _ hlog (fun a ha => op_of_reading h.inv ha) (.inr (by omega))
  obtain ⟨hcnt, e⟩ | ⟨hcnt, hbit, e⟩ | ⟨hcnt, hbit, hnext, hready, e⟩ | ⟨hcnt, hbit, hlast, e⟩ :=
    h.xmitCycle_cases hc (s.portAt 0) <;> rw [e]
  · have hwrap := ((countStep_spec s.cfg s.cnt s.wrap).1 hcnt).2
    rw [← hplace.cfg, ← hplace.cnt, ← hplace.wrap] at hwrap
    have hend := (issue_samePlace (s.prepCycle (s.portAt 0)).count (s.portAt 0).go).trans (microOps_samePlace _)
    have hbyte := (hplace.toSameByte.trans (count_sameByte _)).trans hend.toSameByte
    rw [traceOk_xmit (hbyte.cst.trans hc), hbyte.byteIx, hend.biti, State.count_biti, hplace.biti]
    exact issue_microOps_logged (s := (s.prepCycle (s.portAt 0)).count) _ hq hwrap
  · have hwrap := ((countStep_spec s.cfg s.cnt s.wrap).2 (by omega)).2
    rw [← hplace.cfg, ← hplace.cnt, ← hplace.wrap] at hwrap
    have hmid := (hplace.toSameByte.trans (nextBit_sameByte _)).trans (count_sameByte _)
    have hend := (issue_samePlace (s.prepCycle (s.portAt 0)).nextBit.count (s.portAt 0).go).trans (microOps_samePlace _)
    have hbyte := hmid.trans hend.toSameByte
    have hpred := biti_pred_succ hbit
    rw [traceOk_xmit (hbyte.cst.trans hc), hbyte.byteIx, hend.biti, State.count_biti, State.nextBit_biti, hplace.biti,
      show 8 * s.byteIx + (8 - (s.biti - 1).toNat) = 8 * s.byteIx + (8 - s.biti.toNat) + 1 by omega]
    exact issue_microOps_logged_boundary (s := (s.prepCycle (s.portAt 0)).nextBit.count) _ hq hwrap (by rw [hmid.nextIx]; omega)
  · obtain ⟨hstart, hstartix⟩ := nextByte_byteStart hc hcnt hnext hready
    have hreads : s.readsDone = s.byteIx + 2 := by rw [State.readsDone, hix, hready]; rfl
    have hbits : 8 * s.byteIx + (8 - s.biti.toNat) = 8 * (s.byteIx + 1) := by rw [hbit]; rfl
    rw [hbits] at hlog
    exact hstart.traceOk _ (by rwa [hstartix]) (by rw [hstartix, hreads])
  · have hend : ¬ s.byteIx + 1 < 3 * s.nleds.toNat := by rw [← hasNext_iff hpix, hlast]; simp
    have hslot := s.slot.isLt
    have hinside : s.byteIx < 3 * s.nleds.toNat := by unfold State.byteIx; omega
    have hreads : s.readsDone = 3 * s.nleds.toNat := by
      rw [State.readsDone, hix, h.rest_of_last hc hlast]
      show s.byteIx + 1 + 0 = _
      omega
    rw [hbit] at hlog
    exact (traceOk_adjust rfl).2 (enterAdjust_sent hlog hreads (by show 8 * s.byteIx + 8 = _; omega))

theorem adjustCycle_traceOk (hc : s.cst = .adjust) (h : s.TraceOk T) : s.adjustCycle.TraceOk T := by
  have hkeeps := s.adjustCycle_keeps
  obtain ⟨_, _, e⟩ := s.writeBack_frame
  have hsent := ((traceOk_adjust hc).1 h).emit ⟨hkeeps.cfg, hkeeps.op, hkeeps.nleds, hkeeps.base⟩ .irqOn
    (by simp [State.adjustCycle, e])
  rw [traceOk_restore rfl, State.tickEvent, hkeeps.cfg, hkeeps.nleds]
  exact hsent

theorem restoreCycle_traceOk (hc : s.cst = .restore) (h : s.TraceOk T) : s.restoreCycle.TraceOk T := by
  have hsent := ((traceOk_restore hc).1 h).emit (t := s.restoreCycle) ⟨rfl, rfl, rfl, rfl⟩ .mark rfl
  exact (traceOk_idle rfl).2 hsent

/-- Every cycle of a frame on time carries the trace on. -/
theorem busyNext_traceOk (h : s.InFrame goLat memLat) (hi : s.cst ≠ .idle) (ht : s.TraceOk T) : s.busyNext.TraceOk T := by
  refine finishCycle_traceOk _ ?_
  obtain hwaits | ⟨hontime, hw⟩ := h
  · rw [State.sequencerCycle, hwaits.cst]
    exact waitIdleCycle_traceOk _ hwaits.cst ht
  rw [State.sequencerCycle, s.port_eq_portAt_zero]
  cases hc : s.cst with
  | idle => exact absurd hc hi
  | waitIdle => exact absurd hc hw
  | setup => exact setupCycle_traceOk hontime hc ht
  | xmit => exact xmitCycle_traceOk hontime hc ht
  | adjust => exact adjustCycle_traceOk hc ht
  | restore => exact restoreCycle_traceOk hc ht

/-! ## The whole frame -/

/-- The reads of a command are those of its frame's bytes. -/
theorem WireLog.reads_command {i : Instr} {wire : List Event} (hi : i.opcode.isFrame = true)
    (h : WireLog s.cfg i.opcode (acceptedState i s).base (3 * i.count.toNat) b wire) : traceReads wire = commandReads s.cfg i := by
  rw [h.reads]
  cases i with
  | init => cases hi
  | showFrame base n sc =>
    have hreads := showReads_eq_map s.cfg base n.toNat 0
    simp only [Nat.mul_zero, Nat.zero_add] at hreads
    exact hreads.symm
  | showColor color n sc => rfl
  | clear n => rfl

end

/-- Settles O46: from acceptance on every cycle carries the trace on (`busyNext_traceOk`), so when `BUSY` has fallen all of the frame's
events are on it, each read in its window. -/
theorem frameReadsInTheirWindows : Obligations.FrameReadsInTheirWindows := by
  intro s i h
  obtain ⟨hcst, hcfg, hop, hn, hbase, htrace⟩ := acceptNext_latches h
  have hcycles := acceptNext_cyclesLeft h
  obtain ⟨u, hrun, ⟨goLat, memLat, hu⟩, hleft, hcommand, hok⟩ := runFor_startsFrame (P := State.TraceOk s.trace) h
    ((traceOk_waitIdle hcst).2 htrace) (fun _ _ _ => busyNext_traceOk) (k := (s.acceptNext i).cyclesLeft) hcycles.le
  have hidle : u.cst = .idle := hu.idle_of_cyclesLeft (by omega)
  obtain ⟨wire, hwire, hlog⟩ := (traceOk_idle hidle).1 hok
  rw [hcommand.cfg, hcommand.op, hcommand.base, hcommand.nleds, hcfg, hop, hbase, hn] at hlog
  rw [State.tickEvent, hcommand.cfg, hcommand.nleds, hcfg, hn] at hwire
  exact ⟨u, wire, hcycles ▸ hrun, hwire, hlog.reads_command h.frame, hlog.windows⟩

end Sys2Proof.Machine
end

