-- ==== Sys2Proof/Proofs/Encoding.lean ====
section
/-! PROOFS. The command word: where its fields stand, that decoding and encoding undo each other, and the rows of the opcode table
(spec/30_encoding.md R81 to R86). -/

namespace Sys2Proof

/-! ## The fields of an assembled word -/

/-- The opcode of a word is the one with its two lowest bits (R82). -/
theorem fieldOp_eq_iff {w : CmdWord} {op : Opcode} : fieldOp w = op ↔ w.extractLsb' 0 2 = opcodeBits op := by
  unfold fieldOp
  generalize w.extractLsb' 0 2 = b
  cases op <;> revert b <;> decide

/-- The bits of an assembled word, its fields side by side; their widths stand as a sum, so that a read can walk along them. -/
theorem extractLsb'_assemble (start len : Nat) (arg : BitVec 32) (sc : Triple) (n : BitVec 16) (op : Opcode) :
    (assemble arg sc n op).extractLsb' start len = BitVec.extractLsb' start len (arg ++ (0 : BitVec 8) ++ (sc.b2 ++ sc.b1 ++ sc.b0) ++
      (0 : BitVec 8) ++ n ++ (0 : BitVec 6) ++ opcodeBits op) := rfl

section
variable (arg : BitVec 32) (color sc : Triple) (n : BitVec 16) (op : Opcode)

@[simp] theorem fieldBase_assemble : fieldBase (assemble arg sc n op) = arg := by
  simp (disch := decide) only [fieldBase, extractLsb'_assemble, BitVec.extractLsb'_append_eq_of_le, -Nat.reduceAdd]
  exact BitVec.extractLsb'_eq_self

@[simp] theorem fieldN_assemble : fieldN (assemble arg sc n op) = n := by
  simp (disch := decide) only [fieldN, extractLsb'_assemble, BitVec.extractLsb'_append_eq_of_le,
    BitVec.extractLsb'_append_eq_of_add_le, -Nat.reduceAdd]
  exact BitVec.extractLsb'_eq_self

@[simp] theorem fieldScale_assemble : fieldScale (assemble arg sc n op) = sc := by
  simp (disch := decide) only [fieldScale, extractLsb'_assemble, BitVec.extractLsb'_append_eq_of_le,
    BitVec.extractLsb'_append_eq_of_add_le, -Nat.reduceAdd]
  simp

@[simp] theorem fieldColor_assemble : fieldColor (assemble (0#8 ++ packTriple color) sc n op) = color := by
  simp (disch := decide) only [fieldColor, packTriple, extractLsb'_assemble, BitVec.extractLsb'_append_eq_of_le,
    BitVec.extractLsb'_append_eq_of_add_le, -Nat.reduceAdd]
  simp

@[simp] theorem fieldOp_assemble : fieldOp (assemble arg sc n op) = op :=
  fieldOp_eq_iff.2 BitVec.extractLsb'_append_eq_right

end

/-! ## The hardware's decoder -/

/-- No operand bit is dropped or moved: each field reads back what was put into it. -/
theorem hwDecode_encode (i : Instr) : hwDecode (encode i) = i := by
  cases i <;> simp [hwDecode, encode]

theorem hwDecode_opcode (w : CmdWord) : (hwDecode w).opcode = fieldOp w := by
  unfold hwDecode
  cases fieldOp w <;> rfl

/-! ## The rows of the opcode table -/

/-- Every row tests the two bits of its opcode and no others (R82). -/
theorem row_tests_opcode : ∀ r ∈ opcodeTable, r.mask = 3 ∧ r.code = (opcodeBits r.op).zeroExtend 96 := by decide

theorem and_three_eq (w : CmdWord) : w &&& 3 = (opcodeBits (fieldOp w)).zeroExtend 96 := by
  rw [← fieldOp_eq_iff.1 rfl]
  apply BitVec.eq_of_toNat_eq
  calc (w &&& 3).toNat
    _ = w.toNat % 4 := Nat.and_two_pow_sub_one_eq_mod w.toNat 2
    _ = (w.extractLsb' 0 2).toNat := by simp
    _ = _ := (BitVec.toNat_setWidth_of_le (by decide)).symm

/-- A word has the code of a row exactly where the row is that of its opcode. -/
theorem row_matches_iff {w : CmdWord} {r : OpcodeRow} (hr : r ∈ opcodeTable) : w &&& r.mask = r.code ↔ r.op = fieldOp w := by
  obtain ⟨hmask, hcode⟩ := row_tests_opcode r hr
  rw [hmask, hcode, and_three_eq]
  cases r.op <;> cases fieldOp w <;> decide

theorem rowOf_eq_find? (w : CmdWord) (rs : List OpcodeRow) : rowOf w rs = rs.find? (fun r => w &&& r.mask == r.code) := by
  induction rs with
  | nil => rfl
  | cons r rs ih => by_cases h : w &&& r.mask = r.code <;> simp [rowOf, h, ih]

/-- A canonical word has the canonical code of the row of its opcode. -/
theorem row_of_canonical {w : CmdWord} (h : canonical w = true) :
    ∃ r ∈ opcodeTable, r.op = fieldOp w ∧ w &&& r.canonicalMask = r.canonicalCode := by
  rw [canonical, rowOf_eq_find?] at h
  cases hrow : opcodeTable.find? (fun r => w &&& r.mask == r.code) with
  | none => simp [hrow] at h
  | some r =>
    rw [hrow] at h
    have hr := List.mem_of_find?_eq_some hrow
    exact ⟨r, hr, (row_matches_iff hr).1 (by simpa using List.find?_some hrow), by simpa using h⟩

/-! ## Every admitted word is an encoding -/

/-- A word is its fields and its reserved bits side by side (R81). -/
theorem word_eq_fields (w : CmdWord) :
    fieldBase w ++ w.extractLsb' 56 8 ++ packTriple (fieldScale w) ++ w.extractLsb' 24 8 ++ fieldN w ++ w.extractLsb' 2 6 ++
      w.extractLsb' 0 2 = w := by
  simp (disch := decide) only [fieldBase, packTriple, fieldScale, fieldN, BitVec.extractLsb'_append_extractLsb'_eq_extractLsb',
    -Nat.reduceAdd]
  exact BitVec.extractLsb'_eq_self

/-- A word without reserved bits is its fields assembled. -/
theorem assemble_fields {w : CmdWord} (h56 : w.extractLsb' 56 8 = 0) (h24 : w.extractLsb' 24 8 = 0) (h2 : w.extractLsb' 2 6 = 0) :
    assemble (fieldBase w) (fieldScale w) (fieldN w) (fieldOp w) = w := by
  have h := word_eq_fields w
  rwa [h56, h24, h2, fieldOp_eq_iff.1 rfl] at h

theorem fieldBase_eq_color (w : CmdWord) : fieldBase w = w.extractLsb' 88 8 ++ packTriple (fieldColor w) := by
  simp (disch := decide) only [fieldBase, packTriple, fieldColor, BitVec.extractLsb'_append_extractLsb'_eq_extractLsb']

/-- A field that a mask covers whole is the code's. -/
theorem field_of_masked {w m c : CmdWord} (h : w &&& m = c) (start len : Nat) (hm : m.extractLsb' start len = BitVec.allOnes len) :
    w.extractLsb' start len = c.extractLsb' start len := by
  rw [← h, BitVec.extractLsb'_and, hm, BitVec.and_allOnes]

/-- In a canonical word the bits R81 reserves are 0. -/
theorem reserved_of_canonical {w : CmdWord} {r : OpcodeRow} (hr : r ∈ opcodeTable) (h : w &&& r.canonicalMask = r.canonicalCode) :
    w.extractLsb' 56 8 = 0 ∧ w.extractLsb' 24 8 = 0 ∧ w.extractLsb' 2 6 = 0 := by
  have hrows : ∀ r ∈ opcodeTable, ∀ f ∈ [(56, 8), (24, 8), (2, 6)],
      r.canonicalMask.extractLsb' f.1 f.2 = BitVec.allOnes f.2 ∧ r.canonicalCode.extractLsb' f.1 f.2 = 0 := by decide
  have hzero : ∀ f ∈ [(56, 8), (24, 8), (2, 6)], w.extractLsb' f.1 f.2 = 0 := fun f hf =>
    (field_of_masked h f.1 f.2 (hrows r hr f hf).1).trans (hrows r hr f hf).2
  exact ⟨hzero (56, 8) (by decide), hzero (24, 8) (by decide), hzero (2, 6) (by decide)⟩

theorem encode_hwDecode {w : CmdWord} (h : canonical w = true) : encode (hwDecode w) = w := by
  obtain ⟨r, hr, hop, hcode⟩ := row_of_canonical h
  obtain ⟨h56, h24, h2⟩ := reserved_of_canonical hr hcode
  have hfields := assemble_fields h56 h24 h2
  have hmasked := field_of_masked hcode
  rw [← hop] at hfields
  rw [hwDecode, ← hop]
  simp only [opcodeTable, List.mem_cons, List.not_mem_nil, or_false] at hr
  obtain rfl | rfl | rfl | rfl := hr
  · have hw : w = 0 := by simpa using hmasked 0 96 (by decide)
    rw [hw]; rfl
  · exact hfields
  · rwa [fieldBase_eq_color, hmasked 88 8 (by decide)] at hfields
  · have hscale : fieldScale w = .zero := by
      simp only [fieldScale, hmasked 32 8 (by decide), hmasked 40 8 (by decide), hmasked 48 8 (by decide)]
      rfl
    rwa [hscale, fieldBase, hmasked 64 32 (by decide)] at hfields

theorem canonical_encode (i : Instr) : canonical (encode i) = true := by
  cases i with
  | init => exact Laws.Canonical.init.1
  | showFrame base n sc => exact (Laws.Canonical.showFrame base n sc).1
  | showColor color n sc => exact (Laws.Canonical.showColor color n sc).1
  | clear n => exact (Laws.Canonical.clear n).1

theorem canonical_iff {w : CmdWord} : canonical w = true ↔ encode (hwDecode w) = w :=
  ⟨encode_hwDecode, fun h => h ▸ canonical_encode (hwDecode w)⟩

/-! ## The model's decoder -/

theorem decode_of_canonical {w : CmdWord} (h : canonical w = true) : decode w = .ok (hwDecode w) := if_pos h

theorem decode_of_not_canonical {w : CmdWord} (h : ¬ canonical w = true) :
    decode w = .error (if w &&& reservedMask = 0 then .unusedFieldSet else .reservedBitSet) := by
  rw [decode, if_neg h, apply_ite Except.error]

theorem decode_encode (i : Instr) : decode (encode i) = .ok i := by
  rw [decode_of_canonical (canonical_encode i), hwDecode_encode]

/-- Settles O3: an encoding is canonical, and the fields of an assembled word are those it was assembled from (`hwDecode_encode`). -/
theorem decodeOfEncodeIsTheCommand : Obligations.DecodeOfEncodeIsTheCommand := decode_encode

/-- Settles O4: an admitted word is canonical, and a canonical word is the encoding of what it decodes to (`encode_hwDecode`). -/
theorem admittedWordIsTheEncoding : Obligations.AdmittedWordIsTheEncoding := by
  intro w i h
  by_cases hc : canonical w = true
  · rw [decode_of_canonical hc] at h
    cases h
    exact encode_hwDecode hc
  · rw [decode_of_not_canonical hc] at h
    cases h

/-- A step of an idle block that is offered a word the decoder refuses (R85). -/
theorem Machine.step_of_refused_word {s : State} {why : DecodeRefusal} (hr : s.port.rst = false) (hi : s.cst = .idle)
    (hv : s.port.cmdValid = true) (hd : decode s.port.cmdWord = .error why) : step s = .refused (.nonCanonicalWord why) := by
  unfold step
  simp [hr, hi, hv, hd]

/-- Settles O5: the words that are not their own encoding are those that are not canonical (`canonical_iff`), and the step of an idle
block stops where the decoder refuses. -/
theorem nonCanonicalWordsRefusedByName : Obligations.NonCanonicalWordsRefusedByName := by
  have hrefused : ∀ w : CmdWord, encode (hwDecode w) ≠ w →
      decode w = .error (if w &&& reservedMask = 0 then .unusedFieldSet else .reservedBitSet) :=
    fun w h => decode_of_not_canonical (mt canonical_iff.1 h)
  refine ⟨fun w => hwDecode_encode _, fun w h => decode_of_canonical (canonical_iff.2 h), hrefused, fun s hi hr hv h => ?_⟩
  exact ⟨_, Machine.step_of_refused_word hr hi hv (hrefused _ h)⟩

/-- Settles O6: the table has one row for each opcode, and a word matches the row of its own (`row_matches_iff`). -/
theorem everyWordIsOneOpcodeRow : Obligations.EveryWordIsOneOpcodeRow := by
  intro w
  have hexists : ∀ op : Opcode, ∃ r ∈ opcodeTable, r.op = op := by rintro (_ | _ | _ | _) <;> decide
  have hunique : ∀ r ∈ opcodeTable, ∀ r' ∈ opcodeTable, r'.op = r.op → r' = r := by decide
  obtain ⟨r, hr, hop⟩ := hexists (fieldOp w)
  refine ⟨r, hr, (row_matches_iff hr).2 hop, (hwDecode_opcode w).trans hop.symm, fun r' hr' hmatch => ?_⟩
  exact hunique r hr r' hr' (((row_matches_iff hr').1 hmatch).trans hop.symm)

/-- Settles O7: each word is run through the decoder. -/
theorem specWordsDecode : Obligations.SpecWordsDecode := by
  unfold Obligations.SpecWordsDecode
  decide

end Sys2Proof
end

