-- ==== Sys2Proof/Proofs/CommandPort.lean ====
section
/-! PROOFS. The command port: when it is ignored (spec/30_encoding.md R93, spec/20_memory.md R76), and the three frame commands
accepted on it (spec/43_controller_commands.md R171, R181 to R183). -/

namespace Sys2Proof.Machine

/-- No phase of the sequencer reads the command port (R93). -/
theorem sequencerCycle_ignores_command (s : State) (p : PortIn) (v : Bool) (w : CmdWord) :
    s.sequencerCycle { p with cmdValid := v, cmdWord := w } = s.sequencerCycle p := rfl

/-- Nothing is lent by an idle block, so a store is no race. -/
theorem finishCycle_of_idle {s : State} (hi : s.cst = .idle) (st : Option (Addr × Byte)) :
    finishCycle s st = { s.hostStores st with now := s.now + 1, ports := s.ports.tail } := by
  have hlends : ∀ a, s.lends a = false := fun a => Bool.eq_false_iff.2 fun h => (State.lends_iff.1 h).1 hi
  obtain ⟨m, hm⟩ := s.hostStores_frame st
  rw [finishCycle, State.noteRace_of_not_lent fun x _ => hlends x.1, hm]
  rfl

/-- Settles O9: a busy block runs its sequencer, which reads no wire of the command port; an idle one reads `CMD_WORD` under `CMD_VALID`
alone (`step_withPort`), and offered nothing it ends the cycle. -/
theorem commandPortIgnoredUnlessReady : Obligations.CommandPortIgnoredUnlessReady := by
  refine ⟨fun s v w hbusy => ?_, fun s w hv => ?_, fun s hi hr hv => ?_⟩
  · exact step_withPort rfl rfl (absurd · hbusy) (fun hi => absurd hi hbusy)
      (fun _ => sequencerCycle_ignores_command s s.port v w)
  · exact step_withPort rfl rfl (fun _ => rfl) (fun _ hvalid => by simp [hv] at hvalid)
      (fun _ => sequencerCycle_ignores_command s s.port s.port.cmdValid w)
  · rw [step_of_idle hr hi hv, finishCycle_of_idle hi]

/-- Settles O15: the two bounds are what the configuration asks of a SHOW, and then it has its effect (`exec_next`). -/
theorem showIsAccepted : Obligations.ShowIsAccepted := fun _ _ _ _ hbuffer htick =>
  exec_next.2 ⟨Bool.and_eq_true_iff.2 ⟨bufferFits_iff.2 hbuffer, tickFits_iff.2 htick⟩, rfl⟩

/-- Settles O16: a SHOWCOLOR lends no buffer, so its tick value is all that the configuration asks of it. -/
theorem showColorIsAccepted : Obligations.ShowColorIsAccepted := fun _ _ _ _ htick =>
  exec_next.2 ⟨tickFits_iff.2 htick, rfl⟩

/-- Settles O17: a CLEAR lends no buffer, so its tick value is all that the configuration asks of it. -/
theorem clearIsAccepted : Obligations.ClearIsAccepted := fun _ _ htick => exec_next.2 ⟨tickFits_iff.2 htick, rfl⟩

end Sys2Proof.Machine
end

