-- ==== Sys2Proof/Proofs/TimingPrimitives.lean ====
section
/-! PROOFS. The timing primitives: the bit-period counter, its marks, the pin they move and the waits they end
(spec/40_timing_primitives.md R100 to R108; spec/42_bit_engine.md R146). -/

namespace Sys2Proof.Machine

/-! ## The marks -/

/-- The marks as values of the down-counter, without the subtractions of R9. -/
theorem t1Mark_eq (cfg : Config) : t1Mark cfg = cfg.t2 + cfg.t3 := by unfold t1Mark total; omega

theorem t2Mark_eq (cfg : Config) : t2Mark cfg = cfg.t3 := by rw [t2Mark, t1Mark_eq]; omega

theorem t2Mark_lt_t1Mark (cfg : Config) : t2Mark cfg < t1Mark cfg := by
  have := cfg.t2_pos
  rw [t1Mark_eq, t2Mark_eq]
  omega

/-- Settles O31: with `CNT` in `1..TOTAL` the offset `TOTAL - CNT` is no truncated subtraction, and the marks are sums of segments. -/
theorem marksFallInOrder : Obligations.MarksFallInOrder := by
  intro s hc hcounter
  obtain ⟨hpos, hle, hwrap⟩ := hcounter hc
  have ht1 := s.cfg.t1_pos
  have ht2 := s.cfg.t2_pos
  have ht3 := s.cfg.t3_pos
  rw [hwrap, t1Mark_eq, t2Mark_eq]
  unfold cOff
  unfold total at hle ⊢
  refine ⟨?_, ?_, ?_, ?_, ?_, ht1, ?_, ?_⟩ <;> omega

/-! ## The counter -/

/-- One cycle more is one step more at the end of the count. -/
theorem countSteps_succ (cfg : Config) (k : Nat) (cw : BitVec 24 × Bool) :
    countSteps cfg (k + 1) cw = countStep cfg (countSteps cfg k cw) := by
  induction k generalizing cw with
  | zero => rfl
  | succ k ih => exact ih (countStep cfg cw)

/-- R100: `k` cycles after the start the counter holds `TOTAL - k mod TOTAL`, and `WRAP` is 1 where that is `TOTAL`. -/
theorem countSteps_start (cfg : Config) (k : Nat) :
    (countSteps cfg k (countStart cfg)).1.toNat = total cfg - k % total cfg ∧
      ((countSteps cfg k (countStart cfg)).2 = true ↔ k % total cfg = 0) := by
  induction k with
  | zero => simpa [countSteps, countStart] using ofNat_total cfg
  | succ k ih =>
    have hlt := Nat.mod_lt k (total_pos cfg)
    have hnext : (k + 1) % total cfg = if k % total cfg + 1 = total cfg then 0 else k % total cfg + 1 := by
      rw [Nat.add_mod_eq_add_mod_right 1 (Nat.mod_mod k (total cfg)).symm]
      split_ifs with hend
      · rw [hend, Nat.mod_self]
      · exact Nat.mod_eq_of_lt (by omega)
    obtain ⟨hdown, hreload⟩ := countStep_spec cfg (countSteps cfg k (countStart cfg)).1 (countSteps cfg k (countStart cfg)).2
    rw [ih.1] at hdown hreload
    rw [countSteps_succ, hnext]
    split_ifs with hend
    · obtain ⟨hcnt, hwrap⟩ := hreload (by omega)
      exact ⟨by rw [hcnt, Nat.sub_zero], by simp [hwrap]⟩
    · obtain ⟨hcnt, hwrap⟩ := hdown (by omega)
      exact ⟨by rw [hcnt]; omega, by simp [hwrap]⟩

/-! ## The state as it is before a cycle's micro-operations -/

/-- `x` is the coming cycle of XMIT before its micro-operations: the pin still has the level of the cycle before, and the counter has
started (on entry) or stepped (R100). -/
structure BeginsXmit (s x : State) : Prop where
  cst : x.cst = .xmit
  cfg : x.cfg = s.cfg
  pinOut : x.pinOut = s.pinOut
  starts : s.cst ≠ .xmit → (x.cnt, x.wrap) = countStart s.cfg
  steps : s.cst = .xmit → (x.cnt, x.wrap) = countStep s.cfg (s.cnt, s.wrap)

/-- A byte boundary writes the indices, `CURB`, the mark of lateness and the look-ahead's position (R156). -/
theorem nextByte_frame (s : State) (r : Bool) : ∃ p k c l x pr, (s.nextIndex.loadNext r).openWindow =
    { s with biti := 7, pix := p, slot := k, curb := c, late := l, freeIx := x, prep := pr } := by
  obtain ⟨_, _, e1⟩ := s.nextIndex_frame
  obtain ⟨_, _, _, e2⟩ := s.nextIndex.loadNext_frame r
  obtain ⟨_, e3⟩ := (s.nextIndex.loadNext r).openWindow_frame
  exact ⟨_, _, _, _, _, _, by rw [e3, e2, e1]⟩

/-- The loop of XMIT steps the counter in every branch but the one that leaves XMIT. -/
theorem xmitNext_count {s : State} (r : Bool) (hx : (s.xmitNext r).cst = .xmit) :
    ((s.xmitNext r).cnt, (s.xmitNext r).wrap) = countStep s.cfg (s.cnt, s.wrap) := by
  unfold State.xmitNext at hx ⊢
  split_ifs at hx ⊢
  · rfl
  · rfl
  · obtain ⟨_, _, _, _, _, _, e⟩ := nextByte_frame s r
    rw [e]
    rfl
  · unfold State.endFrame at hx ⊢
    split_ifs at hx ⊢
    · rfl
    · cases hx

theorem xmitNext_pinOut (s : State) (r : Bool) : (s.xmitNext r).pinOut = s.pinOut := by
  obtain ⟨_, _, _, _, _, _, _, _, _, _, _, _, e⟩ := s.xmitNext_frame r
  rw [e]

theorem prepCycle_pinOut (s : State) (p : PortIn) : (s.prepCycle p).pinOut = s.pinOut := by
  obtain ⟨_, _, _, _, _, _, e⟩ := s.prepCycle_frame p
  rw [e]

/-- The issue of a read moves neither the counter nor the pin. -/
theorem BeginsXmit.issue {s x : State} (h : BeginsXmit s x) (go : Bool) : BeginsXmit s (x.issue go) := by
  obtain ⟨_, e⟩ := x.issue_frame go
  rw [e]
  exact ⟨h.cst, h.cfg, h.pinOut, h.starts, h.steps⟩

/-- A cycle of XMIT that stays there has stepped the counter and not yet moved the pin when its micro-operations come. -/
theorem xmitCycle_begins {s : State} (p : PortIn) (hc : s.cst = .xmit) (hx : (s.xmitCycle p).cst = .xmit) :
    ∃ x, BeginsXmit s x ∧ s.xmitCycle p = x.microOps := by
  unfold State.xmitCycle at hx ⊢
  rw [beginXmitCycle_cst] at hx
  have hplace := prepCycle_samePlace s p
  have hcount := xmitNext_count _ hx
  rw [hplace.cfg, hplace.cnt, hplace.wrap] at hcount
  have hbegins : BeginsXmit s ((s.prepCycle p).xmitNext (s.prep == .ready)) :=
    ⟨hx, ((s.prepCycle_keeps p).trans (State.xmitNext_keeps _ _)).cfg, by rw [xmitNext_pinOut, prepCycle_pinOut],
      absurd hc, fun _ => hcount⟩
  exact ⟨_, hbegins.issue p.go, beginXmitCycle_of_xmit _ hx⟩

/-- XMIT is entered with the counter started. -/
theorem enterXmit_begins {s y : State} (hc : s.cst ≠ .xmit) (hcfg : y.cfg = s.cfg) (hpin : y.pinOut = s.pinOut) :
    BeginsXmit s y.firstByte.enterXmit := by
  obtain ⟨_, e⟩ := y.firstByte.enterXmit_frame
  obtain ⟨_, _, _, e'⟩ := y.firstByte_frame
  rw [e, e']
  exact ⟨rfl, hcfg, hpin, fun _ => congrArg countStart hcfg, fun h => absurd h hc⟩

/-- A cycle of SETUP that leads to XMIT has started the counter and not yet moved the pin when the micro-operations come. -/
theorem setupCycle_begins {s : State} (p : PortIn) (hc : s.cst = .setup) (hx : (s.setupCycle p).cst = .xmit) :
    ∃ x, BeginsXmit s x ∧ s.setupCycle p = x.microOps := by
  have hcfg : (s.seedFirst.prepCycle p).cfg = s.cfg := (s.seedFirst_keeps.trans (State.prepCycle_keeps _ p)).cfg
  obtain ⟨_, _, _, _, _, _, e⟩ := seedFirst_frame s
  have hcst : (s.seedFirst.prepCycle p).cst = .setup := by rw [prepCycle_cst, e, hc]
  have hpin : (s.seedFirst.prepCycle p).pinOut = s.pinOut := by rw [prepCycle_pinOut, e]
  clear e
  unfold State.setupCycle State.endSetupCycle State.leaveSetup at hx ⊢
  split_ifs at hx ⊢
  · cases hx
  · have hbegins := enterXmit_begins (by simp [hc]) hcfg hpin
    exact ⟨_, hbegins.issue p.go, beginXmitCycle_of_xmit _ hbegins.cst⟩
  · rw [(issue_samePlace _ _).cst] at hx
    exact absurd (hcst.symm.trans hx) nofun

theorem Cst.xmit_mem_successors {c : Cst} : Cst.xmit ∈ c.successors ↔ c = .setup ∨ c = .xmit := by cases c <;> decide

/-- A cycle of the sequencer that leads to XMIT ends with the micro-operations of the coming cycle. -/
theorem sequencerCycle_begins {s : State} (p : PortIn) (hx : (s.sequencerCycle p).cst = .xmit) :
    ∃ x, BeginsXmit s x ∧ s.sequencerCycle p = x.microOps := by
  have hfrom := Cst.xmit_mem_successors.1 (hx ▸ sequencerCycle_cst s p)
  unfold State.sequencerCycle at hx ⊢
  obtain hc | hc := hfrom <;> simp only [hc] at hx ⊢
  · exact setupCycle_begins p hc hx
  · exact xmitCycle_begins p hc hx

/-! ## The end of a cycle -/

@[simp] theorem finishCycle_cst (t : State) (st : Option (Addr × Byte)) : (finishCycle t st).cst = t.cst := by
  obtain ⟨m, r, e⟩ := finishCycle_frame t st
  rw [e]

@[simp] theorem finishCycle_cnt (t : State) (st : Option (Addr × Byte)) : (finishCycle t st).cnt = t.cnt := by
  obtain ⟨m, r, e⟩ := finishCycle_frame t st
  rw [e]

@[simp] theorem finishCycle_wrap (t : State) (st : Option (Addr × Byte)) : (finishCycle t st).wrap = t.wrap := by
  obtain ⟨m, r, e⟩ := finishCycle_frame t st
  rw [e]

@[simp] theorem finishCycle_biti (t : State) (st : Option (Addr × Byte)) : (finishCycle t st).biti = t.biti := by
  obtain ⟨m, r, e⟩ := finishCycle_frame t st
  rw [e]

@[simp] theorem finishCycle_pinOut (t : State) (st : Option (Addr × Byte)) : (finishCycle t st).pinOut = t.pinOut := by
  obtain ⟨m, r, e⟩ := finishCycle_frame t st
  rw [e]

@[simp] theorem finishCycle_trace (t : State) (st : Option (Addr × Byte)) : (finishCycle t st).trace = t.trace := by
  obtain ⟨m, r, e⟩ := finishCycle_frame t st
  rw [e]

@[simp] theorem finishCycle_currentBit (t : State) (st : Option (Addr × Byte)) : currentBit (finishCycle t st) = currentBit t := by
  obtain ⟨m, r, e⟩ := finishCycle_frame t st
  rw [e]
  rfl

theorem finishCycle_sameByte (t : State) (st : Option (Addr × Byte)) : SameByte t (finishCycle t st) := by
  obtain ⟨m, r, e⟩ := finishCycle_frame t st
  rw [e]
  exact ⟨⟨⟨rfl, rfl, rfl, rfl⟩, rfl, rfl⟩, rfl, rfl⟩

@[simp] theorem microOps_cfg (s : State) : s.microOps.cfg = s.cfg := (microOps_samePlace s).cfg
@[simp] theorem microOps_cnt (s : State) : s.microOps.cnt = s.cnt := (microOps_samePlace s).cnt
@[simp] theorem microOps_wrap (s : State) : s.microOps.wrap = s.wrap := (microOps_samePlace s).wrap

@[simp] theorem microOps_currentBit (s : State) : currentBit s.microOps = currentBit s := by
  obtain ⟨_, _, e⟩ := s.microOps_frame
  rw [e]
  rfl

/-- A step that leads to XMIT, from SETUP or from XMIT, ends with the micro-operations of the coming cycle. -/
theorem step_begins_xmit {s t : State} (h : step s = .next t) (hx : t.cst = .xmit) :
    ∃ x, BeginsXmit s x ∧ t = finishCycle x.microOps s.port.hostStore := by
  obtain ⟨-, rfl⟩ | ⟨-, hidle, -, i, -, -, rfl⟩ | ⟨-, hidle, -, rfl⟩ | ⟨-, -, -, rfl⟩ := step_cases h
  · rw [resetCycle_eq] at hx
    cases hx
  · rw [finishCycle_cst] at hx
    cases i with
    | init => exact absurd (hidle.symm.trans hx) nofun
    | showFrame base n sc => cases hx
    | showColor color n sc => cases hx
    | clear n => cases hx
  · rw [finishCycle_cst, hidle] at hx
    cases hx
  · rw [finishCycle_cst] at hx
    obtain ⟨x, hbegins, e⟩ := sequencerCycle_begins s.port hx
    exact ⟨x, hbegins, by rw [e]⟩

/-- R100 as a step: the counter of a cycle of XMIT, whose predecessor is outside XMIT or inside. -/
theorem step_counter {s t : State} (h : step s = .next t) (hx : t.cst = .xmit) :
    (t.cnt, t.wrap) = if s.cst = .xmit then countStep s.cfg (s.cnt, s.wrap) else countStart s.cfg := by
  obtain ⟨x, hbegins, rfl⟩ := step_begins_xmit h hx
  simp only [finishCycle_cnt, finishCycle_wrap, microOps_cnt, microOps_wrap]
  split_ifs with hc
  · exact hbegins.steps hc
  · exact hbegins.starts hc

/-- Settles O30: the machine's counter starts and steps as `countStart` and `countStep` (`step_counter`), and their iterate has its
closed form (`countSteps_start`). -/
theorem counterRunsFromTotalToOne : Obligations.CounterRunsFromTotalToOne := by
  refine ⟨fun s t hc hstep hx => ?_, fun s t hc hstep hx => ?_, fun cfg k => ?_⟩
  · obtain ⟨hcnt, hwrap⟩ := Prod.ext_iff.1 ((step_counter hstep hx).trans (if_neg hc))
    exact ⟨(congrArg BitVec.toNat hcnt).trans (ofNat_total s.cfg), hwrap⟩
  · obtain ⟨hdown, hreload⟩ := countStep_spec s.cfg s.cnt s.wrap
    rw [← (step_counter hstep hx).trans (if_pos hc)] at hdown hreload
    exact ⟨hdown, fun hle => hreload hle.not_gt⟩
  · obtain ⟨hcnt, hwrap⟩ := countSteps_start cfg k
    have hlt := Nat.mod_lt k (total_pos cfg)
    exact ⟨hcnt, hwrap, by omega⟩

/-! ## The pin -/

/-- At the bit boundary the pin goes high and the bit is sent (R146). -/
theorem microOps_of_wrap {s : State} (hw : s.wrap = true) : s.microOps = (s.setPin true).emit (.bit (currentBit s)) := if_pos hw

/-- Inside a bit the pin has the bit's value from `T1_MARK` on, is low from `T2_MARK` on, and moves in no other cycle (R106, R146). -/
theorem microOps_pinOut_inside_bit {s : State} (hw : s.wrap = false) :
    s.microOps.pinOut =
      if s.cnt.toNat = t1Mark s.cfg then currentBit s else if s.cnt.toNat = t2Mark s.cfg then false else s.pinOut := by
  simp only [State.microOps, waitbDone, waitmDone, hw, Bool.false_eq_true, if_false, beq_iff_eq]
  split_ifs <;> rfl

/-- Settles O33: the pin of a cycle of XMIT is that of its micro-operations, which find it as the cycle before left it. -/
theorem pinMovesAtTheMarksOnly : Obligations.PinMovesAtTheMarksOnly := by
  intro s t hstep hx
  obtain ⟨x, hbegins, rfl⟩ := step_begins_xmit hstep hx
  simp only [finishCycle_cfg, finishCycle_cnt, finishCycle_wrap, finishCycle_pinOut, finishCycle_trace, finishCycle_currentBit,
    microOps_cfg, microOps_cnt, microOps_wrap, microOps_currentBit]
  refine ⟨fun hw => ?_, fun hw h1 => ?_, fun hw h2 => ?_, fun hw h1 h2 => ?_⟩
  · rw [microOps_of_wrap hw]
    exact ⟨rfl, List.getLast?_concat⟩
  · rw [microOps_pinOut_inside_bit hw, if_pos h1]
  · have hlt := t2Mark_lt_t1Mark x.cfg
    rw [microOps_pinOut_inside_bit hw, if_neg (by omega), if_pos h2]
  · rw [microOps_pinOut_inside_bit hw, if_neg h1, if_neg h2, hbegins.pinOut]

/-! ## The waits -/

/-- `u` is `k` cycles of XMIT after `s`, in the same bit period. -/
structure LaterInBit (k : Nat) (s u : State) : Prop where
  inv : u.Inv
  sameByte : SameByte s u
  biti : u.biti = s.biti
  cnt : u.cnt.toNat + k = s.cnt.toNat
  portAt : ∀ j, u.portAt j = s.portAt (k + j)

theorem SameByte.refl (s : State) : SameByte s s := ⟨⟨⟨rfl, rfl, rfl, rfl⟩, rfl, rfl⟩, rfl, rfl⟩

/-- One cycle inside a bit: the counter and the look-ahead step, and the place in the frame stays. -/
theorem step_inside_bit {s : State} (h : s.Inv) (hc : s.cst = .xmit) (hcnt : 1 < s.cnt.toNat) (hr : s.port.rst = false) :
    ∃ t, step s = .next t ∧ LaterInBit 1 s t := by
  have hbusy : s.cst ≠ .idle := by simp [hc]
  have hstep := step_eq_busyNext hr hbusy (h.latches hbusy)
  have hplace := prepCycle_samePlace s s.port
  have hbyte := hplace.toSameByte.trans (count_sameByte _)
  have hend := (issue_samePlace (s.prepCycle s.port).count s.port.go).trans (microOps_samePlace _)
  have hnext : s.busyNext = finishCycle ((s.prepCycle s.port).count.issue s.port.go).microOps s.port.hostStore := by
    simp only [State.busyNext, State.sequencerCycle, hc, State.xmitCycle]
    rw [xmitNext_inside_bit _ (by rwa [hplace.cnt]), beginXmitCycle_of_xmit _ (hbyte.cst.trans hc)]
  have hinv := everyStepKeepsTheInvariant s _ h hstep
  have hports := portAt_of_ports_tail (busyNext_ports s)
  rw [hnext] at hstep hinv hports
  refine ⟨_, hstep, hinv, (hbyte.trans hend.toSameByte).trans (finishCycle_sameByte _ _), ?_, ?_, fun j => ?_⟩
  · rw [finishCycle_biti, hend.biti, State.count_biti, hplace.biti]
  · rw [finishCycle_cnt, hend.cnt, State.count_cnt, hplace.cfg, hplace.cnt, ((countStep_spec _ _ _).1 hcnt).1]
    omega
  · rw [hports, Nat.add_comm]

/-- A bit period runs on for fewer cycles than its counter holds. -/
theorem runFor_inside_bit {s : State} (h : s.Inv) (hc : s.cst = .xmit) {k : Nat} (hk : k < s.cnt.toNat) (hr : s.Undisturbed k) :
    ∃ u, runFor k s = .next u ∧ LaterInBit k s u := by
  induction k with
  | zero => exact ⟨s, rfl, h, .refl s, rfl, rfl, fun j => by rw [Nat.zero_add]⟩
  | succ k ih =>
    obtain ⟨u, hrun, hu⟩ := ih (by omega) fun j hj => hr j (by omega)
    have hcnt := hu.cnt
    have hru : u.port.rst = false := by
      rw [u.port_eq_portAt_zero, hu.portAt]
      exact hr k (by omega)
    obtain ⟨t, hstep, ht⟩ := step_inside_bit hu.inv (hu.sameByte.cst.trans hc) (by omega) hru
    have hcnt' := ht.cnt
    refine ⟨t, by rw [runFor_add hrun, runFor_succ hstep, runFor_zero], ht.inv, hu.sameByte.trans ht.sameByte,
      ht.biti.trans hu.biti, by omega, fun j => ?_⟩
    rw [ht.portAt, hu.portAt, Nat.add_assoc]

/-- The last cycle of a bit that another bit follows does not leave XMIT (R156). -/
theorem xmitNext_cst_of_more {s : State} (r : Bool) (hc : s.cst = .xmit) (hcnt : s.cnt.toNat ≤ 1)
    (hmore : s.biti ≠ 0 ∨ s.hasNext = true) : (s.xmitNext r).cst = .xmit := by
  by_cases hbiti : s.biti = 0
  · rw [xmitNext_end_of_byte r hcnt hbiti, if_pos (hmore.resolve_left (not_not.2 hbiti))]
    obtain ⟨_, _, _, _, _, _, e⟩ := nextByte_frame s r
    rw [e]
    exact hc
  · rw [xmitNext_end_of_bit r hcnt hbiti]
    exact hc

/-- The cycle after the last of a bit that another bit follows is a bit boundary. -/
theorem step_end_of_bit {s : State} (h : s.Inv) (hc : s.cst = .xmit) (hcnt : s.cnt.toNat ≤ 1)
    (hmore : s.biti ≠ 0 ∨ s.hasNext = true) (hr : s.port.rst = false) :
    ∃ t, step s = .next t ∧ t.cst = .xmit ∧ waitbDone t = true := by
  have hbusy : s.cst ≠ .idle := by simp [hc]
  have hstep := step_eq_busyNext hr hbusy (h.latches hbusy)
  have hplace := prepCycle_samePlace s s.port
  have hx : s.busyNext.cst = .xmit := by
    simp only [State.busyNext, finishCycle_cst, State.sequencerCycle, hc, State.xmitCycle, beginXmitCycle_cst]
    refine xmitNext_cst_of_more _ (hplace.cst.trans hc) (by rwa [hplace.cnt]) ?_
    rwa [hplace.biti, hplace.toSameByte.hasNext]
  obtain ⟨-, hwrap⟩ := Prod.ext_iff.1 ((step_counter hstep hx).trans (if_pos hc))
  exact ⟨_, hstep, hx, hwrap.trans ((countStep_spec s.cfg s.cnt s.wrap).2 hcnt.not_gt).2⟩

theorem waitmDone_iff {m : Nat} {s : State} : waitmDone m s = true ↔ s.cnt.toNat = m := beq_iff_eq

/-- WAITB completes in the cycle in which the counter holds `TOTAL` (R104). -/
theorem waitbDone_iff {s : State} (h : s.Inv) (hc : s.cst = .xmit) : waitbDone s = true ↔ s.cnt.toNat = total s.cfg :=
  (h.counter hc).2.2

/-- Settles O32: inside a bit period each cycle counts down by one (`runFor_inside_bit`), so WAITM's comparator is met in one cycle; and
WAITB's in the cycle after the period's last one (`step_end_of_bit`). -/
theorem waitsCompleteInTheirCycle : Obligations.WaitsCompleteInTheirCycle := by
  intro s h hc
  refine ⟨fun m hm hcnt hr => ?_, (waitbDone_iff h hc).2, fun hlt hmore hr => ⟨by omega, ?_, fun j hj => ?_⟩⟩
  · have hrun : ∀ j ≤ s.cnt.toNat - m, ∃ u, runFor j s = .next u ∧ u.cst = .xmit ∧ u.cnt.toNat + j = s.cnt.toNat := by
      intro j hj
      obtain ⟨u, hu, hlater⟩ := runFor_inside_bit h hc (k := j) (by omega) fun i hi => hr i (by omega)
      exact ⟨u, hu, hlater.sameByte.cst.trans hc, hlater.cnt⟩
    refine ⟨?_, fun j hj => ?_⟩
    · obtain ⟨u, hu, hx, hleft⟩ := hrun _ le_rfl
      exact ⟨u, hu, hx, waitmDone_iff.2 (by omega)⟩
    · obtain ⟨u, hu, hx, hleft⟩ := hrun j hj.le
      exact ⟨u, hu, hx, by rw [← Bool.not_eq_true, waitmDone_iff]; omega⟩
  · obtain ⟨hpos, -, -⟩ := h.counter hc
    obtain ⟨u, hu, hlater⟩ := runFor_inside_bit h hc (k := s.cnt.toNat - 1) (by omega) fun j hj => hr j (by omega)
    have hlast := hlater.cnt
    have hmore' : u.biti ≠ 0 ∨ u.hasNext = true := by rwa [hlater.biti, hlater.sameByte.hasNext]
    have hru : u.port.rst = false := by
      rw [u.port_eq_portAt_zero, hlater.portAt]
      exact hr _ (by omega)
    obtain ⟨t, hstep, hx, hdone⟩ := step_end_of_bit hlater.inv (hlater.sameByte.cst.trans hc) (by omega) hmore' hru
    refine ⟨t, ?_, hx, hdone⟩
    rw [← Nat.sub_add_cancel hpos, runFor_add hu, runFor_succ hstep, runFor_zero]
  · obtain ⟨u, hu, hlater⟩ := runFor_inside_bit h hc hj fun i hi => hr i (by omega)
    have hcst := hlater.sameByte.cst.trans hc
    have hcnt := hlater.cnt
    refine ⟨u, hu, hcst, ?_⟩
    rw [← Bool.not_eq_true, waitbDone_iff hlater.inv hcst, hlater.sameByte.cfg]
    omega

end Sys2Proof.Machine
end

