-- ==== Sys2Proof/Proofs/Dither.lean ====
section
/-! PROOFS. The dither and scale unit: the mask, the ramp, the conditional add, the scaling, and `correct` as a whole
(spec/41_dither_scale.md). -/

namespace Sys2Proof.Machine

/-! ## The mask -/

/-- `sigBits` counts the significant bits: it is at most `k` exactly for the bytes below `2^k`. -/
theorem sigBits_le_iff {s : Byte} {k : Nat} : sigBits s ≤ k ↔ s.toNat < 2 ^ k := by
  unfold sigBits
  split_ifs with h
  · simp [h]
  · have hs : s.toNat ≠ 0 := fun h0 => h (BitVec.eq_of_toNat_eq h0)
    rw [← Nat.log2_lt hs, Nat.succ_le_iff]

theorem sigBits_le_eight (s : Byte) : sigBits s ≤ 8 := sigBits_le_iff.2 s.isLt

theorem sigBits_eq_zero_iff {s : Byte} : sigBits s = 0 ↔ s = 0 := by
  rw [← Nat.le_zero, sigBits_le_iff, ← BitVec.toNat_inj]
  simp

theorem sigBits_eq_succ_iff {s : Byte} {k : Nat} : sigBits s = k + 1 ↔ 2 ^ k ≤ s.toNat ∧ s.toNat < 2 ^ (k + 1) := by
  rw [← sigBits_le_iff, ← Nat.not_lt, ← sigBits_le_iff]
  omega

/-- One shift drops one significant bit. -/
theorem sigBits_eq_shiftRight_succ {s : Byte} (h : s ≠ 0) : sigBits s = sigBits (s >>> 1) + 1 := by
  have hle : ∀ k, sigBits (s >>> 1) ≤ k ↔ sigBits s ≤ k + 1 := fun k => by
    rw [sigBits_le_iff, sigBits_le_iff, BitVec.toNat_ushiftRight, Nat.shiftRight_one, pow_succ]
    omega
  have hpos : sigBits s ≠ 0 := mt sigBits_eq_zero_iff.1 h
  have hlower := (hle (sigBits s - 1)).2 (by omega)
  have hupper := (hle (sigBits (s >>> 1))).1 le_rfl
  omega

/-- The loop of R121 shifts the mask once for each significant bit of `S`, if it has fuel for them. -/
theorem maskLoop_eq_shiftRight {fuel : Nat} {s : Byte} (e : Byte) (h : sigBits s ≤ fuel) : maskLoop fuel s e = e >>> sigBits s := by
  induction fuel generalizing s e with
  | zero =>
    rw [Nat.le_zero.1 h]
    exact (BitVec.ushiftRight_zero e).symm
  | succ fuel ih =>
    unfold maskLoop
    split_ifs with hs
    · rw [sigBits_eq_zero_iff.2 hs, BitVec.ushiftRight_zero]
    · have hbits := sigBits_eq_shiftRight_succ hs
      rw [ih _ (by omega), hbits, Nat.add_comm, BitVec.shiftRight_add]

theorem mask_eq_shiftRight (s : Byte) : mask s = (0xFF : Byte) >>> sigBits s := maskLoop_eq_shiftRight 0xFF (sigBits_le_eight s)

theorem mask_toNat (s : Byte) : (mask s).toNat = 2 ^ (8 - sigBits s) - 1 := by
  have hshift : ∀ k ≤ 8, ((0xFF : Byte) >>> k).toNat = 2 ^ (8 - k) - 1 := by decide
  rw [mask_eq_shiftRight]
  exact hshift _ (sigBits_le_eight s)

/-- A mask is all ones below a power of two that divides 256 (R122). -/
theorem mask_toNat_succ (s : Byte) : (mask s).toNat + 1 = 2 ^ (8 - sigBits s) := by
  rw [mask_toNat]
  exact Nat.sub_add_cancel Nat.one_le_two_pow

/-- Settles O34: the loop's closed form is `maskLoop_eq_shiftRight`; the number of significant bits fixes the row of the table. -/
theorem maskLoopHasItsClosedForm : Obligations.MaskLoopHasItsClosedForm := by
  refine ⟨fun s => ⟨mask_eq_shiftRight s, mask_toNat s, sigBits_le_eight s, fun _ => sigBits_eq_succ_iff,
    sigBits_eq_zero_iff.symm⟩, fun s => ?_⟩
  have hle := sigBits_le_eight s
  rw [mask_eq_shiftRight]
  cases hlen : sigBits s with
  | zero => simp [sigBits_eq_zero_iff.1 hlen]
  | succ k =>
    obtain ⟨hlow, hhigh⟩ := sigBits_eq_succ_iff.1 hlen
    have hk : k < 8 := by omega
    interval_cases k <;> simp (disch := omega) only [if_pos, if_neg] <;> rfl

/-! ## The conditional add and the scaling -/

theorem satadd_toNat (a b : Byte) : (satadd a b).toNat = min 255 (a.toNat + b.toNat) := by
  rw [satadd, BitVec.toNat_ofNat]
  omega

@[simp] theorem ditherAdd_zero_left (d : Byte) : ditherAdd 0 d = 0 := if_pos rfl

@[simp] theorem ditherAdd_zero_right (raw : Byte) : ditherAdd raw 0 = raw := by
  unfold ditherAdd
  split_ifs with h
  · exact h.symm
  · apply BitVec.eq_of_toNat_eq
    rw [satadd_toNat, show (0 : Byte).toNat = 0 from rfl]
    omega

/-- Settles O35: `satadd_toNat`, and by cases on the raw byte. -/
theorem ditherAddSaturates : Obligations.DitherAddSaturates := by
  refine ⟨satadd_toNat, fun raw d => ?_⟩
  by_cases h : raw = 0
  · rw [if_neg (not_not.2 h), h, ditherAdd_zero_left]
    rfl
  · rw [if_pos h, ditherAdd, if_neg h, satadd_toNat]

/-- The quotient of R126 is a byte: `2 * 255 * 255 + 255` is less than `510 * 256`. -/
theorem scaleByte_toNat (v s : Byte) : (scaleByte v s).toNat = (2 * (v.toNat * s.toNat) + 255) / 510 := by
  have hle : v.toNat * s.toNat ≤ 255 * 255 := Nat.mul_le_mul (by omega) (by omega)
  rw [scaleByte, BitVec.toNat_ofNat, Nat.mul_assoc]
  omega

@[simp] theorem scaleByte_zero_right (v : Byte) : scaleByte v 0 = 0 := by
  apply BitVec.eq_of_toNat_eq
  simp [scaleByte_toNat]

@[simp] theorem scaleByte_zero_left (s : Byte) : scaleByte 0 s = 0 := by
  apply BitVec.eq_of_toNat_eq
  simp [scaleByte_toNat]

/-- Full scale sends the value itself (R130). -/
@[simp] theorem scaleByte_full (v : Byte) : scaleByte v 255 = v := by
  apply BitVec.eq_of_toNat_eq
  rw [scaleByte_toNat, show (255 : Byte).toNat = 255 from rfl]
  omega

/-- Settles O36: with `q` the quotient, `2vS + 255 - 510q` lies in `0..509` and is odd, so `2vS - 510q` lies strictly between
`-255` and `255`. -/
theorem scaleRoundsToNearest : Obligations.ScaleRoundsToNearest := by
  refine ⟨fun v s => ⟨by rw [scaleByte_toNat, Nat.mul_assoc], ?_⟩,
    fun v => ⟨scaleByte_zero_right v, scaleByte_full v, scaleByte_zero_left v⟩, by decide⟩
  rw [scaleByte_toNat, ← Nat.cast_mul]
  generalize v.toNat * s.toNat = p
  omega

/-! ## The ramp -/

/-- An advance under a mask steps by 3 modulo `E + 1`, for `E + 1` divides the 256 at which the byte wraps (R124). -/
theorem advance_mask_toNat (d s : Byte) : (advance d (mask s)).toNat = (d.toNat + 3) % ((mask s).toNat + 1) := by
  have hdvd : 2 ^ (8 - sigBits s) ∣ 256 := pow_dvd_pow 2 (Nat.sub_le 8 (sigBits s))
  rw [advance, BitVec.toNat_and, BitVec.toNat_add, mask_toNat_succ, mask_toNat, Nat.and_two_pow_sub_one_eq_mod]
  exact Nat.mod_mod_of_dvd _ hdvd

/-- `D` after `k` pixels at the scale `s`, seeded from a stored byte (R123, R124). -/
def rampAfter (s stored : Byte) (k : Nat) : Byte := (fun d => advance d (mask s))^[k] (seedByte stored (mask s))

/-- The ramp's closed form (R131). -/
theorem rampAfter_toNat (s stored : Byte) (k : Nat) :
    (rampAfter s stored k).toNat = ((stored &&& mask s).toNat + 3 * k) % ((mask s).toNat + 1) := by
  induction k with
  | zero =>
    have hle : (stored &&& mask s).toNat ≤ (mask s).toNat := by rw [BitVec.toNat_and]; exact Nat.and_le_right
    exact (Nat.mod_eq_of_lt (Nat.lt_succ_of_le hle)).symm
  | succ k ih =>
    rw [rampAfter, Function.iterate_succ_apply', ← rampAfter, advance_mask_toNat, ih, Nat.mod_add_mod, Nat.mul_succ, Nat.add_assoc]

/-- Two pixels have the same `D` exactly if they are a multiple of the period `E + 1` apart, for 3 is prime to it (R133). -/
theorem rampAfter_eq_iff {s stored : Byte} {j k : Nat} :
    rampAfter s stored j = rampAfter s stored k ↔ j ≡ k [MOD (mask s).toNat + 1] := by
  have hcoprime : Nat.Coprime ((mask s).toNat + 1) 3 := by
    rw [mask_toNat_succ]
    exact Nat.Coprime.pow_left _ (by decide)
  rw [← BitVec.toNat_inj, rampAfter_toNat, rampAfter_toNat]
  exact ⟨fun h => Nat.ModEq.cancel_left_of_coprime hcoprime (Nat.ModEq.add_left_cancel' _ h), fun h => (h.mul_left 3).add_left _⟩

/-- The period is `E + 1` pixels: `D` comes back after its multiples and after nothing else (R133). -/
theorem rampAfter_add_eq_iff {s stored : Byte} {k p : Nat} :
    rampAfter s stored (k + p) = rampAfter s stored k ↔ (mask s).toNat + 1 ∣ p :=
  rampAfter_eq_iff.trans Nat.add_modEq_left_iff

/-- The `E + 1` pixels of a period have different values, so between them all those of `0..E` (R133). -/
theorem exists_rampAfter_eq (s stored x : Byte) (hx : x.toNat ≤ (mask s).toNat) :
    ∃ i < (mask s).toNat + 1, rampAfter s stored (i + 1) = x := by
  have hmaps : Set.MapsTo (fun i => (rampAfter s stored (i + 1)).toNat) (Finset.range ((mask s).toNat + 1))
      (Finset.range ((mask s).toNat + 1)) := fun i _ => by
    simp only [Finset.coe_range, Set.mem_Iio, rampAfter_toNat]
    exact Nat.mod_lt _ (Nat.succ_pos _)
  have hinj : Set.InjOn (fun i => (rampAfter s stored (i + 1)).toNat) (Finset.range ((mask s).toNat + 1)) := fun i hi j hj heq =>
    have hmod := Nat.ModEq.add_right_cancel' 1 (rampAfter_eq_iff.1 (BitVec.eq_of_toNat_eq heq))
    hmod.eq_of_lt_of_lt (Finset.mem_range.1 hi) (Finset.mem_range.1 hj)
  obtain ⟨i, hi, hxi⟩ := Finset.surjOn_of_injOn_of_card_le _ hmaps hinj le_rfl (Finset.mem_range.2 (Nat.lt_succ_of_le hx))
  exact ⟨i, Finset.mem_range.1 hi, BitVec.eq_of_toNat_eq hxi⟩

/-- Settles O38: pixel `i` has the ramp's value after `i + 1` advances, whose closed form is `rampAfter_toNat`; its period is
`rampAfter_add_eq_iff`, and a period has every value (`exists_rampAfter_eq`). -/
theorem rampHasItsClosedForm : Obligations.RampHasItsClosedForm := by
  intro sc stored e ramp
  have hpixel : ∀ i p, ramp (i + p) = rampAfter sc stored (i + 1 + p) := fun i p =>
    congrArg (rampAfter sc stored) (Nat.add_right_comm i p 1)
  refine ⟨fun i => rampAfter_toNat sc stored (i + 1), fun i => ?_, fun i p hp hlt heq => ?_, exists_rampAfter_eq sc stored⟩
  · exact (hpixel i _).trans (rampAfter_add_eq_iff.2 dvd_rfl)
  · exact Nat.not_dvd_of_pos_of_lt hp hlt (rampAfter_add_eq_iff.1 ((hpixel i p).symm.trans heq))

/-! ## `correct` -/

@[simp] theorem correct_snd_get (s e d : Triple) (c : Fin 3) (raw : Byte) :
    (correct s e d c raw).2.get c = advance (d.get c) (e.get c) := by
  simp [correct]

theorem correct_snd_get_of_ne (s e d : Triple) {c c' : Fin 3} (raw : Byte) (h : c' ≠ c) :
    (correct s e d c raw).2.get c' = d.get c' := by
  simp [correct, h]

theorem correct_fst (s e d : Triple) (c : Fin 3) (raw : Byte) :
    (correct s e d c raw).1 = scaleByte (ditherAdd raw (advance (d.get c) (e.get c))) (s.get c) := rfl

/-- The mask of full scale is empty (R130). -/
theorem mask_full : mask 255 = 0 := by decide

theorem advance_zero_mask (d : Byte) : advance d 0 = 0 := BitVec.and_zero

/-- Settles O37: `D` after `correct` is given channel by channel, and the byte (`correct_fst`) reads channel `c` only. -/
theorem correctKeepsToItsChannel : Obligations.CorrectKeepsToItsChannel := by
  intro s e d c raw
  refine ⟨correct_snd_get s e d c raw, ?_, fun c' => correct_snd_get_of_ne s e d raw, fun s' e' d' hs he hd => ?_, ?_, fun hs => ?_,
    fun hs he => ?_⟩
  · rw [correct_snd_get, advance, BitVec.toNat_and]
    exact Nat.and_le_right
  · rw [correct_fst, correct_fst, hs, he, hd]
  · rw [correct_fst, ditherAdd_zero_left, scaleByte_zero_left]
  · rw [correct_fst, hs, scaleByte_zero_right]
  · rw [hs, mask_full] at he
    rw [correct_snd_get, correct_fst, he, hs, advance_zero_mask, ditherAdd_zero_right, scaleByte_full]
    exact ⟨rfl, rfl⟩

end Sys2Proof.Machine
end

