-- ==== Sys2Proof/Proofs/DitherState.lean ====
section
/-! PROOFS. The Dither State from one frame to the next: who keeps it, and what the next SETUP makes of it (spec/41_dither_scale.md R123,
R124, R128; spec/43_controller_commands.md R173, R175). -/

namespace Sys2Proof.Machine

/-! ## The cycles between the frames -/

@[simp] theorem acceptedState_ports (i : Instr) (s : State) : (acceptedState i s).ports = s.ports := by cases i <;> rfl

/-- Every step brings the next inputs to the head. -/
theorem step_ports {s t : State} (h : step s = .next t) : t.ports = s.ports.tail := by
  obtain ⟨-, rfl⟩ | ⟨-, -, -, i, -, -, rfl⟩ | ⟨-, -, -, rfl⟩ | ⟨-, -, -, rfl⟩ := step_cases h
  · rw [resetCycle_eq]
    rfl
  · rw [finishCycle_ports, acceptedState_ports]
  · rw [finishCycle_ports]
  · exact busyNext_ports s

theorem State.Undisturbed.port {s : State} {k : Nat} (h : s.Undisturbed (k + 1)) : s.port.rst = false := by
  rw [s.port_eq_portAt_zero]
  exact h 0 k.succ_pos

theorem State.Undisturbed.next {s t : State} {k : Nat} (h : s.Undisturbed (k + 1)) (hstep : step s = .next t) : t.Undisturbed k :=
  fun j hj => by
    rw [portAt_of_ports_tail (step_ports hstep)]
    exact h (j + 1) (Nat.succ_lt_succ hj)

/-- Without a reset nothing but a frame's ADJUST writes `DSTORE`, however many cycles pass (R29). -/
theorem runFor_dstore {k : Nat} {s v : State} (hr : s.Undisturbed k) (hrun : runFor k s = .next v)
    (hno : ∀ j w, j < k → runFor j s = .next w → w.cst ≠ .adjust) : v.dstore = s.dstore := by
  induction k generalizing s with
  | zero => cases hrun; rfl
  | succ k ih =>
    obtain ⟨t, hstep, hrest⟩ := runFor_succ_next hrun
    have hkept : t.dstore = s.dstore :=
      not_imp_comm.1 (persistentStateHasOneWriter s t hr.port hstep).1 (hno 0 s k.succ_pos rfl)
    rw [← hkept]
    exact ih (hr.next hstep) hrest fun j w hj hw => hno (j + 1) w (Nat.succ_lt_succ hj) ((runFor_succ hstep).trans hw)

/-! ## The write-back -/

/-- ADJUST of a frame on time writes back what the frame left in `D` (R128). -/
theorem writeBack_of_on_time {s : State} (hlate : s.late = false) : s.writeBack = { s with dstore := s.dreg } := by
  simp [State.writeBack, hlate]

theorem busyNext_of_adjust {s : State} (hc : s.cst = .adjust) (hlate : s.late = false) :
    s.busyNext.cst = .restore ∧ s.busyNext.dstore = s.dreg ∧ s.busyNext.now = s.now + 1 ∧
      s.busyNext.trace = s.trace ++ [.irqOn] := by
  simp [State.busyNext, State.sequencerCycle, hc, State.adjustCycle, writeBack_of_on_time hlate]

theorem busyNext_of_restore {s : State} (hc : s.cst = .restore) :
    s.busyNext.cst = .idle ∧ s.busyNext.dstore = s.dstore ∧ s.busyNext.lastmark = s.now ∧ s.busyNext.trace = s.trace ++ [.mark] := by
  simp [State.busyNext, State.sequencerCycle, hc]

/-! ## The look-ahead and `D` -/

/-- From `s` to `t` `E` stays, and `D` advances at most once, in the channel of the byte to prepare alone (R124, R150). -/
structure AdvancesOnce (s t : State) : Prop where
  ereg : t.ereg = s.ereg
  dreg : ∀ c, t.dreg.get c = s.dreg.get c ∨ (c = s.prepChan ∧ t.dreg.get c = advance (s.dreg.get c) (s.ereg.get c))

theorem advancesOnce_of_kept {s t : State} (hereg : t.ereg = s.ereg) (hdreg : t.dreg = s.dreg) : AdvancesOnce s t :=
  ⟨hereg, fun c => .inl (by rw [hdreg])⟩

theorem finishByte_dreg (s : State) (raw : Byte) :
    (s.finishByte raw).dreg = (correct s.sreg s.ereg s.dreg s.prepChan raw).2 := by
  unfold State.finishByte
  split <;> rfl

theorem finishByte_advancesOnce (s : State) (raw : Byte) : AdvancesOnce s (s.finishByte raw) := by
  refine ⟨?_, fun c => ?_⟩
  · obtain ⟨_, _, _, e⟩ := s.finishByte_frame raw
    rw [e]
  · rw [finishByte_dreg]
    by_cases hc : c = s.prepChan
    · exact .inr ⟨hc, hc ▸ correct_snd_get ..⟩
    · exact .inl (correct_snd_get_of_ne _ _ _ _ hc)

theorem takeRaw_advancesOnce (s : State) (raw : Byte) : AdvancesOnce s (s.takeRaw raw) := by
  unfold State.takeRaw
  split_ifs
  · exact finishByte_advancesOnce s raw
  · exact advancesOnce_of_kept rfl rfl

theorem prepCycle_advancesOnce (s : State) (p : PortIn) : AdvancesOnce s (s.prepCycle p) := by
  unfold State.prepCycle
  cases s.prep with
  | none => exact advancesOnce_of_kept rfl rfl
  | pending => exact advancesOnce_of_kept rfl rfl
  | ready => exact advancesOnce_of_kept rfl rfl
  | reading a =>
    dsimp only
    split_ifs
    · obtain ⟨_, e⟩ := s.usePick_frame a p.hostStore
      have h := takeRaw_advancesOnce ((s.usePick a p.hostStore).emit (.read a)) (s.fetched a p.hostStore)
      rw [e] at h ⊢
      exact ⟨h.ereg, h.dreg⟩
    · exact advancesOnce_of_kept rfl rfl
  | computing raw left =>
    dsimp only
    split_ifs
    · exact finishByte_advancesOnce s raw
    · exact advancesOnce_of_kept rfl rfl

/-! ## The first cycle of SETUP -/

theorem seedAll_get (stored e : Triple) (c : Fin 3) : (seedAll stored e).get c = stored.get c &&& e.get c := by
  fin_cases c <;> rfl

theorem prepChan_setup {s : State} (hc : s.cst = .setup) : s.prepChan = channelAt s.cfg.order 0 := by
  simp [State.prepChan, State.prepPos, hc]

theorem leaveSetup_keepsDither (s : State) (go : Bool) : (s.leaveSetup go).ereg = s.ereg ∧ (s.leaveSetup go).dreg = s.dreg := by
  unfold State.leaveSetup
  split_ifs
  · exact ⟨rfl, rfl⟩
  · obtain ⟨_, _, _, hbegin⟩ := s.firstByte.enterXmit.beginXmitCycle_frame go
    obtain ⟨_, henter⟩ := s.firstByte.enterXmit_frame
    obtain ⟨_, _, _, hfirst⟩ := s.firstByte_frame
    rw [hbegin, henter, hfirst]
    exact ⟨rfl, rfl⟩

/-- What ends a cycle of SETUP, the start of XMIT or ADJUST among it, leaves `E` and `D` alone. -/
theorem endSetupCycle_keepsDither (s : State) (go : Bool) :
    (s.endSetupCycle go).ereg = s.ereg ∧ (s.endSetupCycle go).dreg = s.dreg := by
  unfold State.endSetupCycle
  split_ifs
  · exact leaveSetup_keepsDither s go
  · obtain ⟨_, e⟩ := ({ s with setupLeft := s.setupLeft - 1 } : State).issue_frame go
    rw [e]
    exact ⟨rfl, rfl⟩

/-- The first cycle of SETUP seeds `D` and may already prepare byte 0 (R123, R173; log 17). -/
theorem setupCycle_of_first {s : State} (p : PortIn) (hc : s.cst = .setup) (hfirst : s.setupLeft = s.cfg.setupLat) :
    (s.setupCycle p).ereg = maskAll (frameScale s.op s.scale) ∧
    ∀ c, (s.setupCycle p).dreg.get c = s.dstore.get c &&& (s.setupCycle p).ereg.get c ∨
      (c = channelAt s.cfg.order 0 ∧
        (s.setupCycle p).dreg.get c = advance (s.dstore.get c &&& (s.setupCycle p).ereg.get c) ((s.setupCycle p).ereg.get c)) := by
  have hseed : s.seedFirst = s.seed := if_pos hfirst
  have hprep := prepCycle_advancesOnce s.seed p
  obtain ⟨hereg, hdreg⟩ := endSetupCycle_keepsDither (s.seed.prepCycle p) p.go
  have hchan : s.seed.prepChan = channelAt s.cfg.order 0 := prepChan_setup hc
  rw [State.setupCycle, hseed, hereg, hdreg, hprep.ereg, ← hchan]
  refine ⟨rfl, fun c => ?_⟩
  rw [State.seed_ereg, ← seedAll_get]
  exact hprep.dreg c

@[simp] theorem finishCycle_ereg (t : State) (st : Option (Addr × Byte)) : (finishCycle t st).ereg = t.ereg := by
  obtain ⟨_, _, e⟩ := finishCycle_frame t st
  rw [e]

@[simp] theorem finishCycle_dreg (t : State) (st : Option (Addr × Byte)) : (finishCycle t st).dreg = t.dreg := by
  obtain ⟨_, _, e⟩ := finishCycle_frame t st
  rw [e]

/-! ## The obligation -/

/-- ADJUST and RESTORE of a frame on time: `DSTORE` is what the frame left in `D`, and the mark is RESTORE's cycle (R175, R176). -/
theorem runFor_two_of_adjust {s : State} (h : s.Inv) (hc : s.cst = .adjust) (hlate : s.late = false) (hr : s.Undisturbed 2) :
    ∃ u, runFor 2 s = .next u ∧ u.cst = .idle ∧ u.dstore = s.dreg ∧ u.lastmark = s.now + 1 ∧ u.trace = s.trace ++ [.irqOn, .mark] := by
  have hbusy : s.cst ≠ .idle := by simp [hc]
  have hstep : step s = .next s.busyNext := step_eq_busyNext hr.port hbusy (h.latches hbusy)
  obtain ⟨hcst, hdstore, hnow, htrace⟩ := busyNext_of_adjust hc hlate
  have hinv := everyStepKeepsTheInvariant s _ h hstep
  have hbusy' : s.busyNext.cst ≠ .idle := by simp [hcst]
  have hstep' := step_eq_busyNext (hr.next hstep).port hbusy' (hinv.latches hbusy')
  obtain ⟨hidle, hdstore', hmark, htrace'⟩ := busyNext_of_restore hcst
  refine ⟨_, (runFor_succ hstep).trans (runFor_succ hstep'), hidle, hdstore'.trans hdstore, hmark.trans hnow, ?_⟩
  rw [htrace', htrace, List.append_assoc]
  rfl

/-- Settles O56: ADJUST writes `D` back (`busyNext_of_adjust`), no later cycle writes `DSTORE` before another ADJUST (`runFor_dstore`), and
the first cycle of SETUP seeds `D` from it (`setupCycle_of_first`). -/
theorem ditherStateCarriesToTheNextFrame : Obligations.DitherStateCarriesToTheNextFrame := by
  intro s h hc hlate
  refine ⟨fun hr => ?_, fun k v hk hr hrun hno => ?_⟩
  · obtain ⟨u, hrun, hidle, hdstore, hmark, htrace⟩ := runFor_two_of_adjust h hc hlate hr
    exact ⟨u, hrun, hidle, hdstore, hmark, by simp [State.busy, hidle], htrace⟩
  obtain ⟨k, rfl⟩ := Nat.exists_eq_succ_of_ne_zero hk.ne'
  have hbusy : s.cst ≠ .idle := by simp [hc]
  have hstep : step s = .next s.busyNext := step_eq_busyNext hr.port hbusy (h.latches hbusy)
  obtain ⟨-, hback, -, -⟩ := busyNext_of_adjust hc hlate
  have hdstore : v.dstore = s.dreg := by
    rw [← hback]
    exact runFor_dstore (hr.next hstep) (runFor_succ hstep ▸ hrun) fun j w hj hw =>
      hno (j + 1) w j.succ_pos (Nat.succ_lt_succ hj) ((runFor_succ hstep).trans hw)
  refine ⟨hdstore, fun hsetup hfirst hcalm => ?_⟩
  have hinv : v.Inv := runFor_induct everyStepKeepsTheInvariant h hrun
  have hbusy' : v.cst ≠ .idle := by simp [hsetup]
  obtain ⟨hereg, hdreg⟩ := setupCycle_of_first v.port hsetup hfirst
  refine ⟨v.busyNext, step_eq_busyNext hcalm hbusy' (hinv.latches hbusy'), ?_⟩
  simp only [State.busyNext, finishCycle_ereg, finishCycle_dreg, State.sequencerCycle, hsetup]
  exact ⟨hereg, hdstore ▸ hdreg⟩

end Sys2Proof.Machine
end

