-- ==== Sys2Proof/Proofs/DataIndependence.lean ====
section
/-! PROOFS. The timing of the machine does not depend on its data: two states with the same timing stay so, cycle by cycle
(spec/42_bit_engine.md R153; spec/70_reset_and_hazards.md R251). -/

namespace Sys2Proof.Machine

/-! ## The same timing -/

theorem SameTiming.symm {s s' : State} (h : SameTiming s s') : SameTiming s' s where
  cfg := h.cfg.symm
  now := h.now.symm
  lastmark := h.lastmark.symm
  cst := h.cst.symm
  op := h.op.symm
  nleds := h.nleds.symm
  base := h.base.symm
  pix := h.pix.symm
  slot := h.slot.symm
  biti := h.biti.symm
  cnt := h.cnt.symm
  wrap := h.wrap.symm
  setupLeft := h.setupLeft.symm
  tickval := h.tickval.symm
  pinOe := h.pinOe.symm
  late := h.late.symm
  prep := h.prep.symm
  ports := h.ports.symm

/-- From `s` to `t` nothing changes that is timing, but for the look-ahead's position. -/
structure KeepsTiming (s t : State) : Prop extends SamePlace s t where
  tickval : t.tickval = s.tickval
  pinOe : t.pinOe = s.pinOe
  ports : t.ports = s.ports

/-- Two states of the same timing keep it if their look-aheads come to the same phase. -/
theorem SameTiming.keep {s s' t t' : State} (h : SameTiming s s') (k : KeepsTiming s t) (k' : KeepsTiming s' t')
    (hprep : t.prep.phase = t'.prep.phase) : SameTiming t t' where
  cfg := by rw [k.cfg, k'.cfg, h.cfg]
  now := by rw [k.now, k'.now, h.now]
  lastmark := by rw [k.lastmark, k'.lastmark, h.lastmark]
  cst := by rw [k.cst, k'.cst, h.cst]
  op := by rw [k.op, k'.op, h.op]
  nleds := by rw [k.nleds, k'.nleds, h.nleds]
  base := by rw [k.base, k'.base, h.base]
  pix := by rw [k.pix, k'.pix, h.pix]
  slot := by rw [k.slot, k'.slot, h.slot]
  biti := by rw [k.biti, k'.biti, h.biti]
  cnt := by rw [k.cnt, k'.cnt, h.cnt]
  wrap := by rw [k.wrap, k'.wrap, h.wrap]
  setupLeft := by rw [k.setupLeft, k'.setupLeft, h.setupLeft]
  tickval := by rw [k.tickval, k'.tickval, h.tickval]
  pinOe := by rw [k.pinOe, k'.pinOe, h.pinOe]
  late := by rw [k.late, k'.late, h.late]
  prep := hprep
  ports := by rw [k.ports, k'.ports, h.ports]

theorem prepCycle_keepsTiming (s : State) (p : PortIn) : KeepsTiming s (s.prepCycle p) := by
  obtain ⟨_, _, _, _, _, _, e⟩ := s.prepCycle_frame p
  exact ⟨prepCycle_samePlace s p, by rw [e], by rw [e], by rw [e]⟩

theorem issue_keepsTiming (s : State) (go : Bool) : KeepsTiming s (s.issue go) := by
  obtain ⟨_, e⟩ := s.issue_frame go
  exact ⟨issue_samePlace s go, by rw [e], by rw [e], by rw [e]⟩

theorem microOps_keepsTiming (s : State) : KeepsTiming s s.microOps := by
  obtain ⟨_, _, e⟩ := s.microOps_frame
  exact ⟨microOps_samePlace s, by rw [e], by rw [e], by rw [e]⟩

theorem openWindow_keepsTiming (s : State) : KeepsTiming s s.openWindow := by
  obtain ⟨_, e⟩ := s.openWindow_frame
  rw [e]
  exact ⟨⟨⟨⟨⟨rfl, rfl, rfl, rfl⟩, rfl, rfl⟩, rfl, rfl⟩, rfl, rfl, rfl, rfl, rfl, rfl⟩, rfl, rfl, rfl⟩

/-! ## The phase of the look-ahead -/

/-- Positions of the same phase are the same but for the address or the byte. -/
theorem Prep.phase_eq_cases {q q' : Prep} (h : q.phase = q'.phase) :
    (q = .none ∧ q' = .none) ∨ (q = .pending ∧ q' = .pending) ∨ (∃ a a', q = .reading a ∧ q' = .reading a') ∨
      (∃ raw raw' left, q = .computing raw left ∧ q' = .computing raw' left) ∨ (q = .ready ∧ q' = .ready) :=
  match q, q', h with
  | .none, .none, _ => .inl ⟨rfl, rfl⟩
  | .pending, .pending, _ => .inr (.inl ⟨rfl, rfl⟩)
  | .reading a, .reading a', _ => .inr (.inr (.inl ⟨a, a', rfl, rfl⟩))
  | .computing raw _, .computing raw' left', h =>
    .inr (.inr (.inr (.inl ⟨raw, raw', left', congrArg (Prep.computing raw) (Prod.mk.inj h).2, rfl⟩)))
  | .ready, .ready, _ => .inr (.inr (.inr (.inr ⟨rfl, rfl⟩)))

section

variable {s s' : State} (h : SameTiming s s')
include h

theorem SameTiming.prep_eq_pending : s.prep = .pending ↔ s'.prep = .pending := by
  obtain ⟨e, e'⟩ | ⟨e, e'⟩ | ⟨_, _, e, e'⟩ | ⟨_, _, _, e, e'⟩ | ⟨e, e'⟩ := Prep.phase_eq_cases h.prep <;> simp [e, e']

theorem SameTiming.prep_eq_ready : s.prep = .ready ↔ s'.prep = .ready := by
  obtain ⟨e, e'⟩ | ⟨e, e'⟩ | ⟨_, _, e, e'⟩ | ⟨_, _, _, e, e'⟩ | ⟨e, e'⟩ := Prep.phase_eq_cases h.prep <;> simp [e, e']

theorem SameTiming.memReq : s.memReq = s'.memReq := by
  obtain ⟨e, e'⟩ | ⟨e, e'⟩ | ⟨_, _, e, e'⟩ | ⟨_, _, _, e, e'⟩ | ⟨e, e'⟩ := Prep.phase_eq_cases h.prep <;>
    simp [State.memReq, e, e']

theorem SameTiming.hasNext : s.hasNext = s'.hasNext := by
  simp only [State.hasNext, h.slot, h.pix, h.nleds]

theorem SameTiming.lastOfBit : s.lastOfBit = s'.lastOfBit := by
  simp only [State.lastOfBit, h.cnt]

theorem SameTiming.lastOfByte : s.lastOfByte = s'.lastOfByte := by
  simp only [State.lastOfByte, h.lastOfBit, h.biti]

theorem SameTiming.busyFault : s.busyFault = s'.busyFault := by
  simp only [State.busyFault, h.op, h.cfg, h.base, h.nleds]

/-- The wires of this cycle are the same but for the host's store. -/
theorem SameTiming.port : s.port.timing = s'.port.timing := by
  have hports := h.ports
  unfold State.port
  cases hs : s.ports <;> cases hs' : s'.ports <;> simp_all

end

/-! ## Operations that keep the same timing -/

/-- `f` makes states of the same timing from states of the same timing. -/
def TimingOnly (f : State → State) : Prop := ∀ s s', SameTiming s s' → SameTiming (f s) (f s')

theorem TimingOnly.comp {f g : State → State} (hg : TimingOnly g) (hf : TimingOnly f) : TimingOnly (fun s => g (f s)) :=
  fun s s' h => hg _ _ (hf s s' h)

/-- A choice under a condition on the timing. -/
theorem TimingOnly.ite {c : State → Prop} {_ : DecidablePred c} {f g : State → State}
    (hc : ∀ s s', SameTiming s s' → (c s ↔ c s')) (hf : TimingOnly f) (hg : TimingOnly g) :
    TimingOnly (fun s => if c s then f s else g s) := by
  intro s s' h
  by_cases hs : c s
  · simpa only [if_pos hs, if_pos ((hc s s' h).1 hs)] using hf s s' h
  · simpa only [if_neg hs, if_neg (mt (hc s s' h).2 hs)] using hg s s' h

theorem timingOnly_id : TimingOnly (fun s => s) := fun _ _ h => h

theorem TimingOnly.emit (e : Event) : TimingOnly (State.emit · e) := fun _ _ h => { h with }

theorem goto_timingOnly (c : Cst) : TimingOnly (State.goto · c) := fun _ _ h => { h with cst := rfl }

/-! ### The look-ahead -/

/-- What the memory answers, or a host's store does, does not move the look-ahead: only `MEM_ACK` and PREP_LAT do (R151). -/
theorem takeRaw_phase (s : State) (raw : Byte) :
    (s.takeRaw raw).prep.phase = if s.cfg.prepLat = 0 then (4, 0) else (3, s.cfg.prepLat - 1) := by
  unfold State.takeRaw
  split_ifs
  · rw [finishByte_prep]
    rfl
  · rfl

theorem prepCycle_sameTiming {s s' : State} {p p' : PortIn} (h : SameTiming s s') (hack : p.memAck = p'.memAck) :
    SameTiming (s.prepCycle p) (s'.prepCycle p') := by
  refine h.keep (prepCycle_keepsTiming s p) (prepCycle_keepsTiming s' p') ?_
  unfold State.prepCycle
  obtain ⟨e, e'⟩ | ⟨e, e'⟩ | ⟨a, a', e, e'⟩ | ⟨raw, raw', left, e, e'⟩ | ⟨e, e'⟩ := Prep.phase_eq_cases h.prep
  · simp only [e, e']
  · simp only [e, e']
  · simp only [e, e', hack]
    split_ifs
    · rw [takeRaw_phase, takeRaw_phase, State.emit_cfg, State.emit_cfg, usePick_cfg, usePick_cfg, h.cfg]
    · simp only [e, e', Prep.phase]
  · simp only [e, e']
    split_ifs
    · rw [finishByte_prep, finishByte_prep]
    · rfl
  · simp only [e, e']

theorem startPrep_phase (s : State) :
    s.startPrep.prep.phase = if s.op = .showFrame then (2, 0) else (3, s.cfg.prepLat - 1) := by
  obtain ⟨hop, e⟩ | ⟨hop, _, e⟩ := startPrep_cases s
  · rw [e, if_pos hop]
    rfl
  · rw [e, if_neg hop]
    rfl

theorem issue_timingOnly (go : Bool) : TimingOnly (State.issue · go) := by
  intro s s' h
  refine h.keep (issue_keepsTiming s go) (issue_keepsTiming s' go) ?_
  simp only [State.issue, h.prep_eq_pending]
  split_ifs
  · rw [startPrep_phase, startPrep_phase, h.op, h.cfg]
  · exact h.prep

theorem openWindow_timingOnly : TimingOnly State.openWindow := by
  intro s s' h
  refine h.keep (openWindow_keepsTiming s) (openWindow_keepsTiming s') ?_
  unfold State.openWindow
  obtain ⟨e, e'⟩ | ⟨e, e'⟩ | ⟨_, _, e, e'⟩ | ⟨_, _, _, e, e'⟩ | ⟨e, e'⟩ := Prep.phase_eq_cases h.prep <;>
    simp [e, e', h.hasNext, Prep.phase]

/-! ### The loop of XMIT -/

theorem microOps_timingOnly : TimingOnly State.microOps := fun s s' h =>
  h.keep (microOps_keepsTiming s) (microOps_keepsTiming s') (by rw [microOps_prep, microOps_prep, h.prep])

theorem count_timingOnly : TimingOnly State.count := fun s s' h =>
  { h with
    cnt := by rw [State.count_cnt, State.count_cnt, h.cfg, h.cnt, h.wrap]
    wrap := by rw [State.count_wrap, State.count_wrap, h.cfg, h.cnt, h.wrap] }

theorem nextBit_timingOnly : TimingOnly State.nextBit := fun _ _ h => { h with biti := congrArg (· - 1) h.biti }

theorem nextIndex_timingOnly : TimingOnly State.nextIndex :=
  .ite (fun _ _ h => by rw [h.slot])
    (fun _ _ h => { h with biti := rfl, slot := congrArg (· + 1) h.slot })
    (fun _ _ h => { h with biti := rfl, slot := rfl, pix := congrArg (· + 1) h.pix })

theorem freeCurb_timingOnly : TimingOnly State.freeCurb := fun _ _ h => { h with }

theorem missDeadline_timingOnly : TimingOnly State.missDeadline := fun _ _ h => { h with late := rfl }

theorem loadNext_timingOnly (r : Bool) : TimingOnly (State.loadNext · r) :=
  .ite (fun _ _ h => by rw [h.late]) (fun _ _ h => { h with }) (freeCurb_timingOnly.comp missDeadline_timingOnly)

theorem enterAdjust_timingOnly : TimingOnly State.enterAdjust := fun s s' h =>
  { h with
    cst := rfl
    prep := rfl
    tickval := by rw [State.enterAdjust_tickval, State.enterAdjust_tickval, h.cfg, h.nleds] }

theorem endFrame_timingOnly : TimingOnly State.endFrame :=
  .ite (fun _ _ h => by rw [h.late, h.memReq])
    (count_timingOnly.comp (f := fun s => { s.freeCurb with biti := 7 }) fun _ _ h => { h with biti := rfl })
    enterAdjust_timingOnly

theorem xmitNext_timingOnly (r : Bool) : TimingOnly (State.xmitNext · r) :=
  .ite (fun _ _ h => by rw [h.lastOfBit]) count_timingOnly <|
    .ite (fun _ _ h => by rw [h.lastOfByte]) (count_timingOnly.comp nextBit_timingOnly) <|
      .ite (fun _ _ h => by rw [h.hasNext])
        (count_timingOnly.comp (openWindow_timingOnly.comp ((loadNext_timingOnly r).comp nextIndex_timingOnly)))
        endFrame_timingOnly

theorem beginXmitCycle_timingOnly (go : Bool) : TimingOnly (State.beginXmitCycle · go) :=
  .ite (fun _ _ h => by rw [h.cst]) (microOps_timingOnly.comp (issue_timingOnly go)) timingOnly_id

/-! ### The phases -/

theorem enterSetup_timingOnly (go : Bool) : TimingOnly (State.enterSetup · go) :=
  (issue_timingOnly go).comp
    (f := fun s => (({ s with setupLeft := s.cfg.setupLat, late := false,
                              prep := if s.nleds = 0 then .none else .pending } : State).goto .setup).emit .irqOff)
    fun _ _ h => { h with
      cst := rfl
      late := rfl
      setupLeft := congrArg Config.setupLat h.cfg
      prep := by simp only [State.emit_prep, State.goto_prep, h.nleds] }

theorem waitIdleCycle_sameTiming {s s' : State} {p p' : PortIn} (h : SameTiming s s') (hgo : p.go = p'.go) :
    SameTiming (s.waitIdleCycle p) (s'.waitIdleCycle p') := by
  unfold State.waitIdleCycle
  rw [hgo, h.lastmark, h.cfg, h.now]
  split_ifs
  · exact enterSetup_timingOnly p'.go s s' h
  · exact h

theorem seedFirst_timingOnly : TimingOnly State.seedFirst :=
  .ite (fun _ _ h => by rw [h.setupLeft, h.cfg]) (fun _ _ h => { h with pix := rfl, slot := rfl, biti := rfl }) timingOnly_id

theorem firstByte_timingOnly : TimingOnly State.firstByte :=
  .ite (fun _ _ h => h.prep_eq_ready) timingOnly_id (freeCurb_timingOnly.comp missDeadline_timingOnly)

theorem enterXmit_timingOnly : TimingOnly State.enterXmit :=
  openWindow_timingOnly.comp
    (f := fun s => ({ s with cnt := (countStart s.cfg).1, wrap := (countStart s.cfg).2 } : State).goto .xmit)
    fun _ _ h => { h with cst := rfl, cnt := congrArg (fun cfg => (countStart cfg).1) h.cfg, wrap := rfl }

theorem leaveSetup_timingOnly (go : Bool) : TimingOnly (State.leaveSetup · go) :=
  .ite (fun _ _ h => by rw [h.nleds]) enterAdjust_timingOnly
    ((beginXmitCycle_timingOnly go).comp (enterXmit_timingOnly.comp firstByte_timingOnly))

theorem endSetupCycle_timingOnly (go : Bool) : TimingOnly (State.endSetupCycle · go) :=
  .ite (fun _ _ h => by rw [h.setupLeft]) (leaveSetup_timingOnly go)
    ((issue_timingOnly go).comp (f := State.spendSetup) fun _ _ h => { h with setupLeft := congrArg (· - 1) h.setupLeft })

theorem writeBack_timingOnly : TimingOnly State.writeBack :=
  .ite (fun _ _ h => by rw [h.late]) (fun _ _ h => { h with }) (fun _ _ h => { h with })

theorem adjustCycle_timingOnly : TimingOnly State.adjustCycle :=
  (TimingOnly.emit .irqOn).comp ((goto_timingOnly .restore).comp writeBack_timingOnly)

theorem restoreCycle_timingOnly : TimingOnly State.restoreCycle := fun _ _ h => { h with cst := rfl, lastmark := h.now }

/-- A cycle of the sequencer on the same wires but for the host's store. -/
theorem sequencerCycle_sameTiming {s s' : State} {p p' : PortIn} (h : SameTiming s s') (hgo : p.go = p'.go)
    (hack : p.memAck = p'.memAck) : SameTiming (s.sequencerCycle p) (s'.sequencerCycle p') := by
  unfold State.sequencerCycle
  rw [h.cst]
  cases s'.cst with
  | idle => exact h
  | waitIdle => exact waitIdleCycle_sameTiming h hgo
  | setup =>
    have hprep := prepCycle_sameTiming (seedFirst_timingOnly s s' h) hack
    simpa only [State.setupCycle, hgo] using endSetupCycle_timingOnly p'.go _ _ hprep
  | xmit =>
    have hready : (s.prep == .ready) = (s'.prep == .ready) := by
      rw [Bool.eq_iff_iff, beq_iff_eq, beq_iff_eq]
      exact h.prep_eq_ready
    have hnext := xmitNext_timingOnly (s'.prep == .ready) _ _ (prepCycle_sameTiming h hack)
    simpa only [State.xmitCycle, hready, hgo] using beginXmitCycle_timingOnly p'.go _ _ hnext
  | adjust => exact adjustCycle_timingOnly s s' h
  | restore => exact restoreCycle_timingOnly s s' h

/-! ## The step -/

/-- What ends every cycle, each host storing what it will. -/
theorem finishCycle_sameTiming {t t' : State} (st st' : Option (Addr × Byte)) (h : SameTiming t t') :
    SameTiming (finishCycle t st) (finishCycle t' st') := by
  obtain ⟨_, _, e⟩ := finishCycle_frame t st
  obtain ⟨_, _, e'⟩ := finishCycle_frame t' st'
  rw [e, e']
  exact { h with
    now := congrArg (· + 1) h.now
    ports := by rw [List.map_tail, List.map_tail, h.ports] }

theorem resetCycle_sameTiming {s s' : State} (st st' : Option (Addr × Byte)) (h : SameTiming s s') :
    SameTiming (resetCycle s st) (resetCycle s' st') := by
  have hports : s.ports.tail.map PortIn.timing = s'.ports.tail.map PortIn.timing := by rw [List.map_tail, List.map_tail, h.ports]
  rw [resetCycle_eq, resetCycle_eq]
  exact ⟨h.cfg, rfl, rfl, rfl, rfl, rfl, rfl, rfl, rfl, rfl, rfl, rfl, rfl, rfl, rfl, rfl, rfl, hports⟩

/-- A command's acceptance loads latches from the word alone. -/
theorem acceptedState_timingOnly (i : Instr) : TimingOnly (acceptedState i) := by
  intro s s' h
  cases i with
  | init => exact { h with pinOe := rfl, op := rfl, nleds := rfl }
  | showFrame base n sc => exact { h with op := rfl, nleds := rfl, base := rfl, cst := rfl }
  | showColor color n sc => exact { h with op := rfl, nleds := rfl, cst := rfl }
  | clear n => exact { h with op := rfl, nleds := rfl, cst := rfl }

/-- A machine steps where another of the same timing does, and the two next states have the same timing. -/
theorem step_sameTiming {s s' t : State} (h : SameTiming s s') (hstep : step s = .next t) :
    ∃ t', step s' = .next t' ∧ SameTiming t t' := by
  have hport := h.port
  simp only [PortIn.timing, Prod.mk.injEq] at hport
  obtain ⟨hrst, hvalid, hword, hack, hgo⟩ := hport
  obtain ⟨hr, rfl⟩ | ⟨hr, hi, -, i, hoffer, hw, rfl⟩ | ⟨hr, hi, hv, rfl⟩ | ⟨hr, hi, hf, rfl⟩ := step_cases hstep
  · exact ⟨_, step_of_rst (hrst ▸ hr), resetCycle_sameTiming _ _ h⟩
  · have hoffer' : s'.Offers i := ⟨hvalid ▸ hoffer.1, hword ▸ hoffer.2⟩
    have hexec : exec i s' = .next (acceptedState i s') := exec_next.2 ⟨h.cfg ▸ hw, rfl⟩
    refine ⟨finishCycle (acceptedState i s') s'.port.hostStore, ?_, finishCycle_sameTiming _ _ (acceptedState_timingOnly i s s' h)⟩
    rw [step_of_offer (hrst ▸ hr) (h.cst ▸ hi) hoffer', hexec, finishAccept]
  · exact ⟨_, step_of_idle (hrst ▸ hr) (h.cst ▸ hi) (hvalid ▸ hv), finishCycle_sameTiming _ _ h⟩
  · exact ⟨_, step_of_busy (hrst ▸ hr) (h.cst ▸ hi) (h.busyFault ▸ hf),
      finishCycle_sameTiming _ _ (sequencerCycle_sameTiming h hgo hack)⟩

/-- Under the invariant the pin is low outside XMIT, high before `T1_MARK` and low from `T2_MARK` on (R147, R154): only between the
marks can it depend on the bit. -/
theorem pinOut_data_only_between_marks {t t' : State} (ht : t.Inv) (ht' : t'.Inv) (h : SameTiming t t')
    (hpin : t.pinOut ≠ t'.pinOut) :
    t.cst = .xmit ∧ t.cfg.t1 ≤ cOff t.cfg t.cnt ∧ cOff t.cfg t.cnt < t.cfg.t1 + t.cfg.t2 := by
  obtain ⟨hlevel, hlow⟩ := ht.pin
  obtain ⟨hlevel', hlow'⟩ := ht'.pin
  rw [← h.cst] at hlevel' hlow'
  rw [← h.cfg, ← h.cnt] at hlevel'
  by_cases hx : t.cst = .xmit
  · rw [hlevel hx, hlevel' hx] at hpin
    unfold waveLevel at hpin
    split_ifs at hpin with h1 h2
    · exact absurd rfl hpin
    · exact ⟨hx, not_lt.1 h1, h2⟩
    · exact absurd rfl hpin
  · exact absurd ((hlow hx).trans (hlow' hx).symm) hpin

/-- Settles O51: every operation of a cycle is `TimingOnly`, so the one machine steps where the other does, to the same timing
(`step_sameTiming`); the pins then differ between the marks at most (`pinOut_data_only_between_marks`). -/
theorem timingDoesNotDependOnData : Obligations.TimingDoesNotDependOnData := by
  intro s s' hinv hinv' h
  refine ⟨⟨fun ⟨_, hstep⟩ => ?_, fun ⟨_, hstep⟩ => ?_⟩, fun t t' hstep hstep' => ?_⟩
  · obtain ⟨t', hstep', -⟩ := step_sameTiming h hstep
    exact ⟨t', hstep'⟩
  · obtain ⟨t, hstep', -⟩ := step_sameTiming h.symm hstep
    exact ⟨t, hstep'⟩
  · obtain ⟨v, hv, hsame⟩ := step_sameTiming h hstep
    obtain rfl : v = t' := by simpa [hstep'] using hv.symm
    exact ⟨hsame, pinOut_data_only_between_marks (everyStepKeepsTheInvariant s t hinv hstep)
      (everyStepKeepsTheInvariant s' v hinv' hstep') hsame⟩

end Sys2Proof.Machine
end

