-- ==== Sys2Proof/Proofs/XmitCycle.lean ====
section
/-! PROOFS. One cycle of XMIT: the loop's counters and indices, the bytes and the look-ahead, within a byte, at its end, and after a missed
deadline (spec/42_bit_engine.md R144 to R156). -/

namespace Sys2Proof.Machine

/-! ## The end of a cycle -/

@[simp] theorem finishCycle_late (t : State) (st : Option (Addr × Byte)) : (finishCycle t st).late = t.late :=
  (finishCycle_sameByte t st).late

@[simp] theorem finishCycle_prep (t : State) (st : Option (Addr × Byte)) : (finishCycle t st).prep = t.prep := by
  obtain ⟨_, _, e⟩ := finishCycle_frame t st
  rw [e]

@[simp] theorem finishCycle_curb (t : State) (st : Option (Addr × Byte)) : (finishCycle t st).curb = t.curb := by
  obtain ⟨_, _, e⟩ := finishCycle_frame t st
  rw [e]

@[simp] theorem finishCycle_nextb (t : State) (st : Option (Addr × Byte)) : (finishCycle t st).nextb = t.nextb := by
  obtain ⟨_, _, e⟩ := finishCycle_frame t st
  rw [e]

@[simp] theorem finishCycle_freeIx (t : State) (st : Option (Addr × Byte)) : (finishCycle t st).freeIx = t.freeIx := by
  obtain ⟨_, _, e⟩ := finishCycle_frame t st
  rw [e]

@[simp] theorem finishCycle_color (t : State) (st : Option (Addr × Byte)) : (finishCycle t st).color = t.color := by
  obtain ⟨_, _, e⟩ := finishCycle_frame t st
  rw [e]

/-! ## The issue and the micro-operations -/

/-- The registers of the bytes and of the dither, and the colour they may come from, are the same. -/
structure SameBytes (s t : State) : Prop where
  color : t.color = s.color
  curb : t.curb = s.curb
  nextb : t.nextb = s.nextb
  sreg : t.sreg = s.sreg
  ereg : t.ereg = s.ereg
  dreg : t.dreg = s.dreg
  freeIx : t.freeIx = s.freeIx

theorem issue_sameBytes (s : State) (go : Bool) : SameBytes s (s.issue go) := by
  obtain ⟨_, e⟩ := s.issue_frame go
  rw [e]
  exact ⟨rfl, rfl, rfl, rfl, rfl, rfl, rfl⟩

theorem issue_microOps_sameBytes (s : State) (go : Bool) : SameBytes s (s.issue go).microOps := by
  obtain ⟨_, e⟩ := s.issue_frame go
  obtain ⟨_, _, e'⟩ := (s.issue go).microOps_frame
  rw [e', e]
  exact ⟨rfl, rfl, rfl, rfl, rfl, rfl, rfl⟩

theorem issue_microOps_samePlace (s : State) (go : Bool) : SamePlace s (s.issue go).microOps :=
  (issue_samePlace s go).trans (microOps_samePlace _)

theorem issue_microOps_reads (s : State) (go : Bool) : traceReads (s.issue go).microOps.trace = traceReads s.trace := by
  rw [traceReads_microOps, issue_trace]

/-- A pending preparation that is issued. -/
theorem issue_of_pending {s : State} (hq : s.prep = .pending) : s.issue true = s.startPrep := by
  simp [State.issue, hq]

theorem issue_of_held {s : State} {go : Bool} (h : s.prep = .pending → go = false) : s.issue go = s := by
  obtain ⟨hq, hgo, -⟩ | ⟨-, e⟩ := issue_cases s go
  · simp [h hq] at hgo
  · exact e

/-- The look-ahead's new position depends on the byte to prepare and the operands alone. -/
theorem startPrep_prep_congr {s t : State} (h : SameByte s t) (hcolor : t.color = s.color) : t.startPrep.prep = s.startPrep.prep := by
  unfold State.startPrep State.prepChan
  rw [h.op, h.cfg, h.base, h.prepPos, hcolor]
  cases s.op <;> rfl

theorem startPrep_of_show {s : State} (hop : s.op = .showFrame) :
    s.startPrep.prep = .reading (BitVec.ofNat 32 (pixAddr s.cfg s.base s.prepPos.1 s.prepChan)) := by
  simp [State.startPrep, hop]

theorem startPrep_of_showColor {s : State} (hop : s.op = .showColor) :
    s.startPrep.prep = .computing (s.color.get s.prepChan) (s.cfg.prepLat - 1) := by
  simp [State.startPrep, hop]

theorem startPrep_of_clear {s : State} (hop : s.op = .clear) : s.startPrep.prep = .computing 0 (s.cfg.prepLat - 1) := by
  simp [State.startPrep, hop]

/-- The channel of the byte after the one on the wire, slot by slot (R141, R150). -/
theorem prepChan_xmit {s : State} (hc : s.cst = .xmit) :
    s.prepChan = channelAt s.cfg.order (if s.slot = 0 then 1 else if s.slot = 1 then 2 else 0) := by
  simp only [State.prepChan, State.prepPos, hc, reduceCtorEq, if_false]
  generalize s.slot = k
  fin_cases k <;> rfl

/-- Its pixel: the next one after the last slot (R156). -/
theorem prepPos_fst_xmit {s : State} (hc : s.cst = .xmit) :
    s.prepPos.1 = if s.slot = 2 then s.pix.toNat + 1 else s.pix.toNat := by
  simp only [State.prepPos, hc, reduceCtorEq, if_false]
  generalize s.slot = k
  fin_cases k <;> rfl

theorem memReq_of_reading {s : State} {a : Addr} (hq : s.prep = .reading a) : s.memReq = true := by simp [State.memReq, hq]

theorem memAddr_of_reading {s : State} {a : Addr} (hq : s.prep = .reading a) : s.memAddr = some a := by simp [State.memAddr, hq]

/-! ## The look-ahead's part of a cycle, equation by equation -/

/-- Nothing to prepare, a window not yet used, and a byte that is ready: the look-ahead rests. -/
theorem prepCycle_of_rest {s : State} (p : PortIn) (hq : s.prep = .none ∨ s.prep = .pending ∨ s.prep = .ready) :
    s.prepCycle p = s := by
  obtain hq | hq | hq := hq <;> simp [State.prepCycle, hq]

theorem prepCycle_of_ack {s : State} {p : PortIn} {a : Addr} (hq : s.prep = .reading a) (hack : p.memAck = true) :
    s.prepCycle p = ((s.usePick a p.hostStore).emit (.read a)).takeRaw (s.fetched a p.hostStore) := by
  simp [State.prepCycle, hq, hack]

theorem prepCycle_of_last {s : State} {raw : Byte} (p : PortIn) (hq : s.prep = .computing raw 0) :
    s.prepCycle p = s.finishByte raw := by
  simp [State.prepCycle, hq]

theorem prepCycle_of_computing {s : State} {raw : Byte} {left : Nat} (p : PortIn) (hq : s.prep = .computing raw left)
    (hleft : 0 < left) : s.prepCycle p = { s with prep := .computing raw (left - 1) } := by
  simp [State.prepCycle, hq, hleft.ne']

theorem takeRaw_of_zero {s : State} (raw : Byte) (h : s.cfg.prepLat = 0) : s.takeRaw raw = s.finishByte raw := if_pos h

theorem takeRaw_of_pos {s : State} (raw : Byte) (h : 0 < s.cfg.prepLat) :
    s.takeRaw raw = { s with prep := .computing raw (s.cfg.prepLat - 1) } := if_neg h.ne'

/-- The byte finished in XMIT goes to `NEXTB`, and `D` of its channel advances (R150; 41_dither_scale.md R127). -/
theorem finishByte_xmit {s : State} (raw : Byte) (hc : s.cst = .xmit) :
    ((s.finishByte raw).nextb, (s.finishByte raw).dreg) = correct s.sreg s.ereg s.dreg s.prepChan raw := by
  simp [State.finishByte, hc]

/-- A read event and the choice among raced values leave the place and the bytes alone. -/
theorem usePick_emit_frame (s : State) (a : Addr) (st : Option (Addr × Byte)) :
    ∃ x, (s.usePick a st).emit (.read a) = { s with freeIx := x, trace := s.trace ++ [.read a] } := by
  obtain ⟨x, e⟩ := s.usePick_frame a st
  exact ⟨x, by rw [e]; rfl⟩

theorem prepCycle_ack_reads {s : State} {p : PortIn} {a : Addr} (hq : s.prep = .reading a) (hack : p.memAck = true) :
    traceReads (s.prepCycle p).trace = traceReads s.trace ++ [a] := by
  rw [prepCycle_of_ack hq hack, takeRaw_trace, State.emit_trace, usePick_trace, traceReads_append]
  rfl

/-- A request that is answered with PREP_LAT = 0 is finished at once (R151). -/
theorem prepCycle_ack_finishes {s : State} {p : PortIn} {a : Addr} (hc : s.cst = .xmit) (hq : s.prep = .reading a)
    (hack : p.memAck = true) (hlat : s.cfg.prepLat = 0) :
    (s.prepCycle p).prep = .ready ∧ ((s.prepCycle p).nextb, (s.prepCycle p).dreg) =
      correct s.sreg s.ereg s.dreg s.prepChan (s.fetched a p.hostStore) := by
  obtain ⟨x, e⟩ := usePick_emit_frame s a p.hostStore
  rw [prepCycle_of_ack hq hack, e, takeRaw_of_zero (s := { s with freeIx := x, trace := s.trace ++ [.read a] }) _ hlat]
  exact ⟨finishByte_prep _ _, finishByte_xmit (s := { s with freeIx := x, trace := s.trace ++ [.read a] }) _ hc⟩

/-- With PREP_LAT > 0 its raw byte enters the data path. -/
theorem prepCycle_ack_enters {s : State} {p : PortIn} {a : Addr} (hq : s.prep = .reading a) (hack : p.memAck = true)
    (hlat : 0 < s.cfg.prepLat) :
    (s.prepCycle p).prep = .computing (s.fetched a p.hostStore) (s.cfg.prepLat - 1) ∧ (s.prepCycle p).nextb = s.nextb ∧
      (s.prepCycle p).dreg = s.dreg := by
  obtain ⟨x, e⟩ := usePick_emit_frame s a p.hostStore
  rw [prepCycle_of_ack hq hack, e, takeRaw_of_pos (s := { s with freeIx := x, trace := s.trace ++ [.read a] }) _ hlat]
  exact ⟨rfl, rfl, rfl⟩

/-! ## A cycle of XMIT, branch by branch -/

section

variable {s : State} (p : PortIn) (hc : s.cst = .xmit)
include hc

theorem busyNext_of_xmit : s.busyNext = finishCycle (s.xmitCycle s.port) s.port.hostStore := by
  rw [State.busyNext, State.sequencerCycle, hc]

/-- Inside a bit (R156). -/
theorem xmitCycle_inside_bit (hcnt : 1 < s.cnt.toNat) : s.xmitCycle p = ((s.prepCycle p).count.issue p.go).microOps := by
  have hplace := prepCycle_samePlace s p
  rw [State.xmitCycle, xmitNext_inside_bit _ (by rwa [hplace.cnt]), beginXmitCycle_of_xmit _ (by exact hplace.cst.trans hc)]

/-- The last cycle of a bit that is not its byte's last (R156). -/
theorem xmitCycle_end_of_bit (hcnt : s.cnt.toNat ≤ 1) (hbiti : s.biti ≠ 0) :
    s.xmitCycle p = ((s.prepCycle p).nextBit.count.issue p.go).microOps := by
  have hplace := prepCycle_samePlace s p
  rw [State.xmitCycle, xmitNext_end_of_bit _ (by rwa [hplace.cnt]) (by rwa [hplace.biti]),
    beginXmitCycle_of_xmit _ (by exact hplace.cst.trans hc)]

/-- The last cycle of a byte that another follows (R156). -/
theorem xmitCycle_end_of_byte (hcnt : s.cnt.toNat ≤ 1) (hbiti : s.biti = 0) (hnext : s.hasNext = true) :
    s.xmitCycle p = (((s.prepCycle p).nextIndex.loadNext (s.prep == .ready)).openWindow.count.issue p.go).microOps := by
  have hplace := prepCycle_samePlace s p
  obtain ⟨_, _, _, _, _, _, e⟩ := nextByte_frame (s.prepCycle p) (s.prep == .ready)
  rw [State.xmitCycle, xmitNext_end_of_byte _ (by rwa [hplace.cnt]) (by rwa [hplace.biti]),
    if_pos (hplace.toSameByte.hasNext.trans hnext), beginXmitCycle_of_xmit _ (by rw [e]; exact hplace.cst.trans hc)]

omit hc in
/-- The last cycle of the frame's last byte (R156). -/
theorem xmitCycle_end_of_frame (hcnt : s.cnt.toNat ≤ 1) (hbiti : s.biti = 0) (hnext : s.hasNext = false) :
    s.xmitCycle p = (s.prepCycle p).endFrame.beginXmitCycle p.go := by
  have hplace := prepCycle_samePlace s p
  rw [State.xmitCycle, xmitNext_end_of_byte _ (by rwa [hplace.cnt]) (by rwa [hplace.biti]),
    if_neg (by rw [hplace.toSameByte.hasNext, hnext]; nofun)]

omit hc in
/-- A frame that is on time goes to ADJUST there. -/
theorem xmitCycle_end_of_frame_on_time (hcnt : s.cnt.toNat ≤ 1) (hbiti : s.biti = 0) (hnext : s.hasNext = false)
    (hlate : s.late = false) : s.xmitCycle p = (s.prepCycle p).enterAdjust := by
  rw [xmitCycle_end_of_frame p hcnt hbiti hnext, endFrame_of_not_late ((prepCycle_samePlace s p).late.trans hlate)]
  exact if_neg nofun

/-- The last cycle of a byte on time whose successor is ready: that byte goes to the wire (R24, R151). -/
theorem xmitCycle_next_byte (hcnt : s.cnt.toNat ≤ 1) (hbiti : s.biti = 0) (hnext : s.hasNext = true) (hready : s.prep = .ready)
    (hlate : s.late = false) : s.xmitCycle p = (s.nextIndex.shiftByte.openWindow.count.issue p.go).microOps := by
  rw [xmitCycle_end_of_byte p hc hcnt hbiti hnext, prepCycle_of_rest p (.inr (.inr hready)), hready,
    show (Prep.ready == .ready) = true from rfl, nextIndex_loadNext_of_ready hlate]

end

/-- The indices at a byte's end: the next slot, or slot 0 of the next pixel (R156). -/
theorem nextIndex_of_slot_ne_two {s : State} (h : s.slot ≠ 2) :
    s.nextIndex.slot.val = s.slot.val + 1 ∧ s.nextIndex.pix = s.pix := by
  have hlt : s.slot.val < 2 := by omega
  rw [State.nextIndex, if_pos hlt]
  exact ⟨by simp only [Fin.val_add, Fin.val_one]; omega, rfl⟩

theorem nextIndex_of_slot_eq_two {s : State} (h : s.slot = 2) (hpix : s.pix.toNat + 1 < s.nleds.toNat) :
    s.nextIndex.slot = 0 ∧ s.nextIndex.pix.toNat = s.pix.toNat + 1 := by
  have hn := s.nleds.isLt
  have hlt : ¬ s.slot.val < 2 := by rw [h]; decide
  rw [State.nextIndex, if_neg hlt]
  exact ⟨rfl, by show (s.pix + 1).toNat = _; bv_omega⟩

theorem hasNext_of_slot_ne_two {s : State} (h : s.slot ≠ 2) : s.hasNext = true := by
  have hlt : s.slot.val < 2 := by omega
  simp [State.hasNext, hlt]

theorem hasNext_of_slot_eq_two {s : State} (h : s.slot = 2) : s.hasNext = true ↔ s.pix.toNat + 1 < s.nleds.toNat := by
  simp [State.hasNext, h]

/-! ## Within a byte -/

/-- `t` is the state after a cycle of XMIT that is not a byte's last, `q` the one after the look-ahead's part of it: the byte on the wire
stays, and the registers of the next one are those of `q`, but that a pending preparation may have been issued. -/
structure WithinByte (go : Bool) (s q t : State) : Prop where
  cst : t.cst = .xmit
  slot : t.slot = s.slot
  pix : t.pix = s.pix
  curb : t.curb = s.curb
  nextb : t.nextb = q.nextb
  dreg : t.dreg = q.dreg
  reads : traceReads t.trace = traceReads q.trace
  issued : s.prep = .pending → go = true → t.prep = s.startPrep.prep
  held : (s.prep = .pending → go = false) → t.prep = q.prep

/-- A cycle that steps at most `BITI` and the counter, `x` being the state before its issue. -/
theorem withinByte_of_issue {s x : State} {p : PortIn} (hc : s.cst = .xmit) (hplace : SameByte (s.prepCycle p) x)
    (hbytes : SameBytes (s.prepCycle p) x) (hprep : x.prep = (s.prepCycle p).prep) (htrace : x.trace = (s.prepCycle p).trace)
    (st : Option (Addr × Byte)) :
    WithinByte p.go s (s.prepCycle p) (finishCycle (x.issue p.go).microOps st) := by
  have hx := (prepCycle_samePlace s p).toSameByte.trans hplace
  have hend := (hx.trans (issue_microOps_samePlace x p.go).toSameByte).trans (finishCycle_sameByte _ st)
  have hkept := issue_microOps_sameBytes x p.go
  refine ⟨hend.cst.trans hc, hend.slot, hend.pix, ?_, ?_, ?_, ?_, fun hq hgo => ?_, fun hheld => ?_⟩
  · rw [finishCycle_curb, hkept.curb, hbytes.curb, prepCycle_curb p hc]
  · rw [finishCycle_nextb, hkept.nextb, hbytes.nextb]
  · rw [finishCycle_dreg, hkept.dreg, hbytes.dreg]
  · rw [finishCycle_trace, issue_microOps_reads, htrace]
  · have hpending : x.prep = .pending := by rw [hprep, prepCycle_of_rest p (.inr (.inl hq)), hq]
    have hcolor : x.color = s.color := hbytes.color.trans (s.prepCycle_keeps p).color
    rw [finishCycle_prep, microOps_prep, hgo, issue_of_pending hpending, startPrep_prep_congr hx hcolor]
  · have hpending : x.prep = .pending → p.go = false := fun h => hheld (prepCycle_prep.1 (hprep ▸ h))
    rw [finishCycle_prep, microOps_prep, issue_of_held hpending, hprep]

theorem busyNext_withinByte {s : State} (hc : s.cst = .xmit) (hin : 1 < s.cnt.toNat ∨ s.biti ≠ 0) :
    WithinByte s.port.go s (s.prepCycle s.port) s.busyNext := by
  rw [busyNext_of_xmit hc]
  by_cases hcnt : 1 < s.cnt.toNat
  · rw [xmitCycle_inside_bit s.port hc hcnt]
    exact withinByte_of_issue hc (count_sameByte _) ⟨rfl, rfl, rfl, rfl, rfl, rfl, rfl⟩ rfl rfl _
  · rw [xmitCycle_end_of_bit s.port hc (by omega) (hin.resolve_left hcnt)]
    exact withinByte_of_issue hc ((nextBit_sameByte _).trans (count_sameByte _)) ⟨rfl, rfl, rfl, rfl, rfl, rfl, rfl⟩ rfl rfl _

/-- Settles O23: within a byte the registers of the next one are those of the look-ahead's part of the cycle (`busyNext_withinByte`), which
has an equation for each position. -/
theorem lookAheadPreparesTheNextByte : Obligations.LookAheadPreparesTheNextByte := by
  intro s hc hr hf hin c pixel
  have hchan : s.prepChan = c := prepChan_xmit hc
  have hpixel : s.prepPos.1 = pixel := prepPos_fst_xmit hc
  have h := busyNext_withinByte hc hin
  refine ⟨s.busyNext, step_eq_busyNext hr (by simp [hc]) hf, h.cst, h.curb, fun hrest => ?_, fun hq hgo => ?_, fun a hq hack => ?_,
    fun a hq hack => ⟨s.fetched a s.port.hostStore, s.fetched_mem_or_racing _ _, ?_⟩, fun raw left hq => ?_⟩
  · have hstill : s.prepCycle s.port = s := prepCycle_of_rest _ (hrest.imp_right (Or.symm ∘ Or.imp_right And.left))
    have hprep : s.busyNext.prep = s.prep := by
      rw [h.held fun hq => ?_, hstill]
      obtain hq' | hq' | ⟨-, hgo⟩ := hrest
      · simp [hq'] at hq
      · simp [hq'] at hq
      · exact hgo
    have hreq : s.busyNext.memReq = false := by
      rw [State.memReq, hprep]
      obtain hq' | hq' | ⟨hq', -⟩ := hrest <;> rw [hq']
    exact ⟨hprep, hreq, by rw [h.nextb, hstill], by rw [h.dreg, hstill], by rw [h.reads, hstill]⟩
  · have hstill := prepCycle_of_rest s.port (.inr (.inl hq))
    have hprep := h.issued hq hgo
    refine ⟨by rw [h.nextb, hstill], by rw [h.dreg, hstill], by rw [h.reads, hstill], fun hop => ?_, fun hop => ?_, fun hop => ?_⟩
    · rw [startPrep_of_show hop, hchan, hpixel] at hprep
      exact ⟨memReq_of_reading hprep, memAddr_of_reading hprep⟩
    · rw [hprep, startPrep_of_showColor hop, hchan]
    · rw [hprep, startPrep_of_clear hop]
  · have hstill := prepCycle_of_no_ack hq hack
    have hprep : s.busyNext.prep = .reading a := by rw [h.held (by simp [hq]), hstill, hq]
    exact ⟨memReq_of_reading hprep, memAddr_of_reading hprep, by rw [h.nextb, hstill], by rw [h.dreg, hstill], by rw [h.reads, hstill]⟩
  · rw [h.held (by simp [hq]), h.nextb, h.dreg, h.reads]
    refine ⟨prepCycle_ack_reads hq hack, fun hlat => ?_, fun hlat => prepCycle_ack_enters hq hack hlat⟩
    exact hchan ▸ prepCycle_ack_finishes hc hq hack hlat
  · rw [h.held (by simp [hq]), h.nextb, h.dreg, h.reads]
    obtain rfl | hleft := Nat.eq_zero_or_pos left
    · rw [prepCycle_of_last _ hq, finishByte_trace, finishByte_prep, finishByte_xmit _ hc, hchan]
      exact ⟨rfl, fun _ => ⟨rfl, rfl⟩, nofun⟩
    · rw [prepCycle_of_computing _ hq hleft]
      exact ⟨rfl, fun hz => absurd hz hleft.ne', fun _ => ⟨rfl, rfl, rfl⟩⟩

/-! ## The end of a byte -/

theorem busyNext_color (s : State) : s.busyNext.color = s.color := by
  rw [State.busyNext, finishCycle_color, (s.sequencerCycle_keeps s.port).color]

/-- `t` is the state after the last cycle of a byte on time whose successor is ready: that byte begins, with the window of the one after
it. -/
structure BeginsNextByte (go : Bool) (s t : State) : Prop where
  cst : t.cst = .xmit
  late : t.late = false
  biti : t.biti = 7
  slot : t.slot = s.nextIndex.slot
  pix : t.pix = s.nextIndex.pix
  curb : t.curb = s.nextb
  nextb : t.nextb = s.nextb
  dreg : t.dreg = s.dreg
  reads : traceReads t.trace = traceReads s.trace
  rest : t.hasNext = false → t.prep = .none
  held : t.hasNext = true → go = false → t.prep = .pending
  issued : t.hasNext = true → go = true → t.prep = t.startPrep.prep

theorem busyNext_beginsNextByte {s : State} (hc : s.cst = .xmit) (hcnt : s.cnt.toNat = 1) (hbiti : s.biti = 0)
    (hnext : s.hasNext = true) (hready : s.prep = .ready) (hlate : s.late = false) :
    BeginsNextByte s.port.go s s.busyNext := by
  rw [busyNext_of_xmit hc, xmitCycle_next_byte s.port hc hcnt.le hbiti hnext hready hlate]
  obtain ⟨hstart, -⟩ := nextByte_byteStart hc hcnt hnext hready
  obtain ⟨hslot, hpix, hcurb, hnextb, hdreg⟩ :
      s.nextIndex.shiftByte.openWindow.count.slot = s.nextIndex.slot ∧ s.nextIndex.shiftByte.openWindow.count.pix = s.nextIndex.pix ∧
        s.nextIndex.shiftByte.openWindow.count.curb = s.nextb ∧ s.nextIndex.shiftByte.openWindow.count.nextb = s.nextb ∧
        s.nextIndex.shiftByte.openWindow.count.dreg = s.dreg := by
    obtain ⟨_, _, e⟩ := s.nextIndex_frame
    obtain ⟨_, e'⟩ := s.nextIndex.shiftByte.openWindow_frame
    rw [e', e]
    exact ⟨rfl, rfl, rfl, rfl, rfl⟩
  generalize s.nextIndex.shiftByte.openWindow.count = x at *
  have hplace := issue_microOps_samePlace x s.port.go
  have hbytes := issue_microOps_sameBytes x s.port.go
  have hend := hplace.toSameByte.trans (finishCycle_sameByte _ s.port.hostStore)
  refine ⟨hend.cst.trans hstart.cst, hend.late.trans (hstart.late.trans hlate), ?_, hend.slot.trans hslot, hend.pix.trans hpix, ?_, ?_,
    ?_, ?_, fun hlast => ?_, fun hmore hgo => ?_, fun hmore hgo => ?_⟩
  · rw [finishCycle_biti, hplace.biti, hstart.biti]
  · rw [finishCycle_curb, hbytes.curb, hcurb]
  · rw [finishCycle_nextb, hbytes.nextb, hnextb]
  · rw [finishCycle_dreg, hbytes.dreg, hdreg]
  · rw [finishCycle_trace, issue_microOps_reads, hstart.trace]
  · rw [hend.hasNext] at hlast
    rw [finishCycle_prep, microOps_prep, issue_prep_eq_none, hstart.prep, hlast]
    rfl
  · rw [hend.hasNext] at hmore
    rw [finishCycle_prep, microOps_prep, issue_of_held fun _ => hgo, hstart.prep, hmore]
    rfl
  · rw [hend.hasNext] at hmore
    have hpending : x.prep = .pending := by rw [hstart.prep, hmore]; rfl
    rw [startPrep_prep_congr hend ((finishCycle_color _ _).trans hbytes.color), finishCycle_prep, microOps_prep, hgo,
      issue_of_pending hpending]

/-- Settles O59: the byte after the one on the wire begins with its window (`busyNext_beginsNextByte`), and after the frame's last byte
ADJUST is entered, which keeps the registers and reads nothing. -/
theorem byteBoundaryOpensTheNextWindow : Obligations.ByteBoundaryOpensTheNextWindow := by
  intro s hc hr hf hlate hcnt hbiti
  have hstep : step s = .next s.busyNext := step_eq_busyNext hr (by simp [hc]) hf
  refine ⟨fun hnext hready => ?_, fun hlast hnone => ⟨_, hstep, ?_⟩⟩
  · have h := busyNext_beginsNextByte hc hcnt hbiti hnext hready hlate
    have hcommand := busyNext_sameCommand s
    refine ⟨_, hstep, h.cst, h.late, h.curb, h.nextb, h.dreg, h.reads, fun hlast => ⟨h.rest hlast, ?_⟩,
      fun hmore hgo => ⟨h.held hmore hgo, ?_⟩, fun hmore hgo => ?_⟩
    · rw [State.memReq, h.rest hlast]
    · rw [State.memReq, h.held hmore hgo]
    · intro c
      have hchan : s.busyNext.prepChan = c := by rw [prepChan_xmit h.cst, hcommand.cfg]
      have hprep := h.issued hmore hgo
      refine ⟨fun hop => ?_, fun hop => ?_, fun hop => ?_⟩
      · rw [startPrep_of_show (hcommand.op.trans hop), hchan, prepPos_fst_xmit h.cst, hcommand.cfg, hcommand.base] at hprep
        exact ⟨memReq_of_reading hprep, memAddr_of_reading hprep⟩
      · rw [hprep, startPrep_of_showColor (hcommand.op.trans hop), hchan, busyNext_color, hcommand.cfg]
      · rw [hprep, startPrep_of_clear (hcommand.op.trans hop), hcommand.cfg]
  · rw [busyNext_of_xmit hc, xmitCycle_end_of_frame_on_time _ hcnt.le hbiti hlast hlate, prepCycle_of_rest _ (.inl hnone)]
    refine ⟨by simp, by simp [State.memReq], by simp, by simp, ?_⟩
    rw [finishCycle_trace, State.enterAdjust_trace, traceReads_append]
    exact List.append_nil _

/-! ## The loop's counters -/

theorem busyNext_biti_inside_bit {s : State} (hc : s.cst = .xmit) (hcnt : 1 < s.cnt.toNat) : s.busyNext.biti = s.biti := by
  rw [busyNext_of_xmit hc, xmitCycle_inside_bit _ hc hcnt, finishCycle_biti, (issue_microOps_samePlace _ _).biti, State.count_biti,
    (prepCycle_samePlace s s.port).biti]

theorem busyNext_biti_end_of_bit {s : State} (hc : s.cst = .xmit) (hcnt : s.cnt.toNat ≤ 1) (hbiti : s.biti ≠ 0) :
    s.busyNext.biti = s.biti - 1 := by
  rw [busyNext_of_xmit hc, xmitCycle_end_of_bit _ hc hcnt hbiti, finishCycle_biti, (issue_microOps_samePlace _ _).biti,
    State.count_biti, State.nextBit_biti, (prepCycle_samePlace s s.port).biti]

/-- Settles O22: in each branch of the loop the counter steps as R100 says (`step_counter`), and the indices and the byte are those of
`busyNext_withinByte` or `busyNext_beginsNextByte`. -/
theorem xmitLoopSteps : Obligations.XmitLoopSteps := by
  intro s hc hr hf hlate
  have hstep : step s = .next s.busyNext := step_eq_busyNext hr (by simp [hc]) hf
  have hcount : s.busyNext.cst = .xmit → (s.busyNext.cnt, s.busyNext.wrap) = countStep s.cfg (s.cnt, s.wrap) := fun hx =>
    (step_counter hstep hx).trans (if_pos hc)
  have hreload : s.busyNext.cst = .xmit → s.cnt.toNat = 1 → s.busyNext.cnt.toNat = total s.cfg ∧ s.busyNext.wrap = true :=
    fun hx hcnt => by
      have h := (countStep_spec s.cfg s.cnt s.wrap).2 (by omega)
      rwa [← hcount hx] at h
  refine ⟨s.busyNext, hstep, fun hcnt => ?_, fun hcnt hbiti => ?_, fun hcnt hbiti hslot hready => ?_,
    fun hcnt hbiti hslot hpix hready => ?_, fun hcnt hbiti hslot hpix => ?_⟩
  · have h := busyNext_withinByte hc (.inl hcnt)
    obtain ⟨hdown, hwrap⟩ := Prod.mk.inj ((hcount h.cst).trans (if_pos hcnt))
    exact ⟨h.cst, busyNext_biti_inside_bit hc hcnt, h.slot, h.pix, h.curb, hdown, hwrap⟩
  · have h := busyNext_withinByte hc (.inr hbiti)
    exact ⟨h.cst, busyNext_biti_end_of_bit hc hcnt.le hbiti, h.slot, h.pix, h.curb, hreload h.cst hcnt⟩
  · have h := busyNext_beginsNextByte hc hcnt hbiti (hasNext_of_slot_ne_two hslot) hready hlate
    obtain ⟨hnext, hsame⟩ := nextIndex_of_slot_ne_two hslot
    exact ⟨h.cst, h.biti, by rw [h.slot, hnext], h.pix.trans hsame, h.curb, hreload h.cst hcnt⟩
  · have h := busyNext_beginsNextByte hc hcnt hbiti ((hasNext_of_slot_eq_two hslot).2 hpix) hready hlate
    obtain ⟨hfirst, hnext⟩ := nextIndex_of_slot_eq_two hslot hpix
    exact ⟨h.cst, h.biti, h.slot.trans hfirst, by rw [h.pix, hnext], h.curb, hreload h.cst hcnt⟩
  · have hlast : s.hasNext = false := by rw [← Bool.not_eq_true, hasNext_of_slot_eq_two hslot]; exact hpix
    rw [busyNext_of_xmit hc, xmitCycle_end_of_frame_on_time _ hcnt.le hbiti hlast hlate]
    simp

end Sys2Proof.Machine
end

