-- ==== Sys2Proof/Proofs/FrameStream.lean ====
section
/-! PROOFS. The frame level: how many bits a frame has, what it leaves in the Dither State, and its bit stream byte by byte
(spec/42_bit_engine.md R141 to R145; spec/41_dither_scale.md R131). -/

namespace Sys2Proof.Machine

/-! ## The Dither State of a frame -/

/-- A pixel advances `D` once in every channel, whatever the order (R124, R141). -/
theorem pixelBytes_dither_get (o : ColorOrder) (s e : Triple) (raw : Fin 3 → Byte) (d : Triple) (c : Fin 3) :
    (pixelBytes o s e raw d).2.get c = advance (d.get c) (e.get c) := by
  have hne : ∀ {j k : Fin 3}, j ≠ k → channelAt o j ≠ channelAt o k := (channelAt_bijective o).1.ne
  obtain ⟨k, rfl⟩ := (channelAt_bijective o).2 c
  unfold pixelBytes
  match k with
  | 0 => rw [correct_snd_get_of_ne _ _ _ _ (hne (by decide)), correct_snd_get_of_ne _ _ _ _ (hne (by decide)), correct_snd_get]
  | 1 => rw [correct_snd_get_of_ne _ _ _ _ (hne (by decide)), correct_snd_get, correct_snd_get_of_ne _ _ _ _ (hne (by decide))]
  | 2 => rw [correct_snd_get, correct_snd_get_of_ne _ _ _ _ (hne (by decide)), correct_snd_get_of_ne _ _ _ _ (hne (by decide))]

/-- `k` pixels advance it `k` times. -/
theorem frameBytes_dither_get (o : ColorOrder) (s e : Triple) (raw : Nat → Fin 3 → Byte) (k i : Nat) (d : Triple) (c : Fin 3) :
    (frameBytes o s e raw k i d).2.get c = (fun x => advance x (e.get c))^[k] (d.get c) := by
  induction k generalizing i d with
  | zero => rfl
  | succ k ih => rw [frameBytes, ih, pixelBytes_dither_get, Function.iterate_succ_apply]

theorem maskAll_get (s : Triple) (c : Fin 3) : (maskAll s).get c = mask (s.get c) := by
  fin_cases c <;> rfl

theorem frameBits_dither_get (cfg : Config) (mem : Memory) (op : Opcode) (n : Nat) (scale : Triple) (base : Addr) (color ds : Triple)
    (c : Fin 3) : (frameBits cfg mem op n scale base color ds).2.get c = rampAfter ((frameScale op scale).get c) (ds.get c) n := by
  rw [frameBits, frameBytes_dither_get, seedAll_get, maskAll_get]
  rfl

/-! ## The length of a frame -/

theorem frameBytes_length (o : ColorOrder) (s e : Triple) (raw : Nat → Fin 3 → Byte) (k i : Nat) (d : Triple) :
    (frameBytes o s e raw k i d).1.length = 3 * k := by
  induction k generalizing i d with
  | zero => rfl
  | succ k ih =>
    rw [frameBytes, List.length_append, ih]
    show 3 + 3 * k = _
    omega

theorem flatMap_byteBits_length (bytes : List Byte) : (bytes.flatMap byteBits).length = 8 * bytes.length := by
  induction bytes with
  | nil => rfl
  | cons b bytes ih =>
    rw [List.flatMap_cons, List.length_append, ih, List.length_cons]
    show 8 + _ = _
    omega

theorem frameBits_length (cfg : Config) (mem : Memory) (op : Opcode) (n : Nat) (scale : Triple) (base : Addr) (color ds : Triple) :
    (frameBits cfg mem op n scale base color ds).1.length = 24 * n := by
  rw [frameBits, flatMap_byteBits_length, frameBytes_length]
  omega

/-- The frame of a frame command is that of its opcode, count and scale. -/
theorem commandFrame_of_isFrame (cfg : Config) (mem : Memory) (ds : Triple) {i : Instr} (hi : i.opcode.isFrame = true) :
    ∃ base color, commandFrame cfg mem ds i = frameBits cfg mem i.opcode i.count.toNat i.scale base color ds := by
  cases i with
  | init => cases hi
  | showFrame base n sc => exact ⟨_, _, rfl⟩
  | showColor color n sc => exact ⟨_, _, rfl⟩
  | clear n => exact ⟨_, _, rfl⟩

/-- Settles O39: three bytes of eight bits a pixel, and one advance a pixel in each channel, whose closed form is the ramp's. -/
theorem frameHasItsLengthAndDitherState : Obligations.FrameHasItsLengthAndDitherState := by
  intro cfg m ds i hi
  obtain ⟨base, color, e⟩ := commandFrame_of_isFrame cfg m ds hi
  rw [e]
  exact ⟨frameBits_length .., fun c => by rw [frameBits_dither_get, rampAfter_toNat]⟩

/-! ## The bit stream, byte by byte -/

/-- Bit `m` of a stream is bit `7 - m mod 8` of its byte `m / 8` (R144). -/
theorem flatMap_byteBits_getD (bytes : List Byte) (m : Nat) :
    (bytes.flatMap byteBits).getD m false = (bytes.getD (m / 8) 0).getLsbD (7 - m % 8) := by
  induction bytes generalizing m with
  | nil => simp
  | cons b bytes ih =>
    rw [List.flatMap_cons]
    by_cases hm : m < 8
    · rw [List.getD_append _ _ _ _ hm, Nat.div_eq_of_lt hm, Nat.mod_eq_of_lt hm]
      interval_cases m <;> rfl
    · obtain ⟨r, rfl⟩ := Nat.exists_eq_add_of_le (not_lt.1 hm)
      rw [List.getD_append_right _ _ _ _ (Nat.le_add_right 8 r), show 8 + r - (byteBits b).length = r from Nat.add_sub_cancel_left 8 r,
        ih, Nat.add_mod_left, Nat.add_div_left r (by decide), List.getD_cons_succ]

section

variable (a : State)

/-- The channel of byte `j` of a frame, in transmission order (R141). -/
def State.byteChan (j : Nat) : Fin 3 := channelAt a.cfg.order (Fin.ofNat 3 j)

/-- The raw byte of byte `j` of the frame that `a` has the operands and the memory of (R142). -/
def State.byteRaw (j : Nat) : Byte := rawByte a.cfg a.mem a.op a.base a.color (j / 3) (a.byteChan j)

/-- Its correction: the byte to send, and `D` after it (41_dither_scale.md R127). -/
def State.correctByte (j : Nat) (d : Triple) : Byte × Triple :=
  correct (frameScale a.op a.scale) (maskAll (frameScale a.op a.scale)) d (a.byteChan j) (a.byteRaw j)

/-- `D` after the first `j` bytes of the frame. -/
def State.ditherAfter : Nat → Triple
  | 0 => seedAll a.dstore (maskAll (frameScale a.op a.scale))
  | j + 1 => (a.correctByte j (State.ditherAfter j)).2

/-- Byte `j` of the frame as it goes out. -/
def State.sentByte (j : Nat) : Byte := (a.correctByte j (a.ditherAfter j)).1

theorem correctByte_ditherAfter (j : Nat) : a.correctByte j (a.ditherAfter j) = (a.sentByte j, a.ditherAfter (j + 1)) := rfl

theorem byteChan_pixel (i : Nat) (k : Fin 3) : a.byteChan (3 * i + k.val) = channelAt a.cfg.order k := by
  have hslot : Fin.ofNat 3 (3 * i + k.val) = k := Fin.ext (by simp only [Fin.val_ofNat]; omega)
  rw [State.byteChan, hslot]

theorem byteRaw_pixel (i : Nat) (k : Fin 3) :
    a.byteRaw (3 * i + k.val) = rawByte a.cfg a.mem a.op a.base a.color i (channelAt a.cfg.order k) := by
  rw [State.byteRaw, byteChan_pixel, show (3 * i + k.val) / 3 = i by omega]

/-- The bytes of one pixel are three in a row (R141). -/
theorem pixelBytes_eq_sentBytes (i : Nat) :
    pixelBytes a.cfg.order (frameScale a.op a.scale) (maskAll (frameScale a.op a.scale))
        (rawByte a.cfg a.mem a.op a.base a.color i) (a.ditherAfter (3 * i)) =
      ([a.sentByte (3 * i), a.sentByte (3 * i + 1), a.sentByte (3 * i + 2)], a.ditherAfter (3 * (i + 1))) := by
  have hcorrect : ∀ (k : Fin 3) (d : Triple), correct (frameScale a.op a.scale) (maskAll (frameScale a.op a.scale)) d
      (channelAt a.cfg.order k) (rawByte a.cfg a.mem a.op a.base a.color i (channelAt a.cfg.order k)) =
        a.correctByte (3 * i + k.val) d := fun k d => by
    rw [State.correctByte, byteChan_pixel, byteRaw_pixel]
  simp only [pixelBytes, hcorrect]
  rfl

/-- The bytes of `k` pixels are `3k` in a row. -/
theorem frameBytes_eq_sentBytes (k i : Nat) :
    frameBytes a.cfg.order (frameScale a.op a.scale) (maskAll (frameScale a.op a.scale))
        (rawByte a.cfg a.mem a.op a.base a.color) k i (a.ditherAfter (3 * i)) =
      ((List.range (3 * k)).map (fun j => a.sentByte (3 * i + j)), a.ditherAfter (3 * (i + k))) := by
  induction k generalizing i with
  | zero => rfl
  | succ k ih =>
    have hrest : (fun j => a.sentByte (3 * i + j)) ∘ (3 + ·) = fun j => a.sentByte (3 * (i + 1) + j) := by
      funext j
      exact congrArg a.sentByte (show 3 * i + (3 + j) = 3 * (i + 1) + j by omega)
    simp only [frameBytes, pixelBytes_eq_sentBytes, ih]
    rw [show 3 * (k + 1) = 3 + 3 * k by omega, List.range_add, List.map_append, List.map_map, hrest, Nat.add_assoc, Nat.add_comm 1 k]
    rfl

/-- The whole frame: its bits are those of its `3n` bytes, and `DSTORE_out` is `D` after them (R145). -/
theorem frameBits_eq_sentBytes (n : Nat) : frameBits a.cfg a.mem a.op n a.scale a.base a.color a.dstore =
    (((List.range (3 * n)).map a.sentByte).flatMap byteBits, a.ditherAfter (3 * n)) := by
  have hbytes := frameBytes_eq_sentBytes a n 0
  simp only [Nat.mul_zero, Nat.zero_add] at hbytes
  rw [frameBits, show seedAll a.dstore _ = a.ditherAfter 0 from rfl, hbytes]

/-- Bit `m` of the frame. -/
theorem frameBits_getD {m n : Nat} (hm : m < 24 * n) :
    (frameBits a.cfg a.mem a.op n a.scale a.base a.color a.dstore).1.getD m false = (a.sentByte (m / 8)).getLsbD (7 - m % 8) := by
  have hbyte : ((List.range (3 * n)).map a.sentByte).getD (m / 8) 0 = a.sentByte (m / 8) := by
    rw [List.getD_eq_getElem _ _ (by rw [List.length_map, List.length_range]; omega), List.getElem_map, List.getElem_range]
  rw [frameBits_eq_sentBytes, flatMap_byteBits_getD, hbyte]

end

/-- The frame of a command is that of the operands its acceptance latches. -/
theorem commandFrame_eq_frameBits (s : State) {i : Instr} (hi : i.opcode.isFrame = true) :
    commandFrame s.cfg s.mem s.dstore i =
      frameBits (acceptedState i s).cfg (acceptedState i s).mem (acceptedState i s).op (acceptedState i s).nleds.toNat
        (acceptedState i s).scale (acceptedState i s).base (acceptedState i s).color (acceptedState i s).dstore := by
  cases i with
  | init => cases hi
  | showFrame base n sc => rfl
  | showColor color n sc => rfl
  | clear n => rfl

end Sys2Proof.Machine
end

