-- ==== Sys2Proof/Proofs/FrameBytes.lean ====
section
/-! PROOFS. A frame on time whose host keeps the loan sends the bytes of the frame level: what is in `CURB`, `NEXTB`, `D` and `DSTORE` at
each place of the frame (spec/20_memory.md R69, R70; spec/42_bit_engine.md R145, R150; spec/41_dither_scale.md R123 to R128). -/

namespace Sys2Proof.Machine

/-! ## The operands and the loan -/

/-- All the operands of the command are the same. -/
structure SameOperands (s t : State) : Prop extends SameCommand s t where
  color : t.color = s.color
  scale : t.scale = s.scale

theorem SameOperands.trans {s t u : State} (h : SameOperands s t) (k : SameOperands t u) : SameOperands s u where
  toSameCommand := h.toSameCommand.trans k.toSameCommand
  color := k.color.trans h.color
  scale := k.scale.trans h.scale

theorem Keeps.sameOperands {s t : State} (h : Keeps s t) : SameOperands s t := ⟨⟨h.cfg, h.op, h.nleds, h.base⟩, h.color, h.scale⟩

theorem finishCycle_sameOperands (t : State) (st : Option (Addr × Byte)) : SameOperands t (finishCycle t st) := by
  obtain ⟨_, _, e⟩ := finishCycle_frame t st
  rw [e]
  exact ⟨⟨rfl, rfl, rfl, rfl⟩, rfl, rfl⟩

theorem busyNext_sameOperands (s : State) : SameOperands s s.busyNext :=
  (s.sequencerCycle_keeps s.port).sameOperands.trans (finishCycle_sameOperands _ _)

/-- The byte at `x` is one that the command borrows: a SHOW's (20_memory.md R69). -/
def State.Lent (a : State) (x : Addr) : Prop := a.op = .showFrame ∧ inBuffer a.cfg a.base a.nleds x = true

/-- The memory of `s` has the borrowed bytes as `a` has them, and none of them races. -/
structure HoldsLoan (a s : State) : Prop where
  races : s.superseded = []
  read : ∀ x, a.Lent x → s.mem.read x.toNat = a.mem.read x.toNat

/-- A store outside the buffer is no race, and leaves the borrowed bytes as they are. -/
theorem finishCycle_holdsLoan {a v : State} {st : Option (Addr × Byte)} (h : HoldsLoan a v) (hcommand : SameCommand a v) (hm : v.MemOk)
    (hst : ∀ c, st = some c → ¬ a.Lent c.1) : HoldsLoan a (finishCycle v st) where
  races := by
    have hrace : ∀ c, st = some c → v.lends c.1 = false := fun c hc => Bool.eq_false_iff.2 fun hlends => by
      simp only [State.lends, Bool.and_eq_true, beq_iff_eq, hcommand.op, hcommand.cfg, hcommand.base, hcommand.nleds] at hlends
      exact hst c hc ⟨hlends.1.2, hlends.2⟩
    rw [finishCycle_superseded, State.noteRace_of_not_lent hrace, h.races]
  read x hx := by
    rw [finishCycle_mem, State.read_hostStores hm, ← h.read x hx]
    match st with
    | none => rfl
    | some (y, v) =>
      refine if_neg fun heq => hst (y, v) rfl ?_
      rwa [← BitVec.eq_of_toNat_eq heq]

/-- The host keeps the loan for the rest of the frame (H1). -/
structure LoanKept (a s : State) : Prop extends HoldsLoan a s where
  stores : ∀ j < s.cyclesLeft, ∀ c, (s.portAt j).hostStore = some c → ¬ a.Lent c.1

theorem busyNext_loanKept {a s : State} (h : LoanKept a s) (hcommand : SameCommand a s) (hm : s.MemOk)
    (hcycles : s.busyNext.cyclesLeft + 1 = s.cyclesLeft) : LoanKept a s.busyNext := by
  have hkeeps := s.sequencerCycle_keeps s.port
  have hnow := h.stores 0 (by omega)
  rw [← s.port_eq_portAt_zero] at hnow
  refine ⟨finishCycle_holdsLoan ⟨hkeeps.superseded.trans h.races, ?_⟩ (hcommand.trans hkeeps.sameOperands.toSameCommand) ?_ hnow,
    fun j hj => ?_⟩
  · rw [hkeeps.mem]
    exact h.read
  · rw [State.MemOk, hkeeps.mem]
    exact hm
  · rw [portAt_of_ports_tail (busyNext_ports s)]
    exact h.stores (j + 1) (by omega)

/-! ## The raw bytes -/

section

variable {a s : State}

/-- The channel of the byte to prepare is that of its number in transmission order. -/
theorem prepChan_eq_byteChan (h : s.cfg = a.cfg) : s.prepChan = a.byteChan s.nextIx := by
  rw [State.prepChan, State.nextIx, byteChan_pixel, h]

/-- The raw byte that is at hand when a preparation is issued (R142). -/
theorem startPrep_raw (h : SameOperands a s) {raw : Byte} {left : Nat} (hq : s.startPrep.prep = .computing raw left) :
    raw = a.byteRaw s.nextIx := by
  rw [State.nextIx, byteRaw_pixel]
  have hchan : s.prepChan = channelAt a.cfg.order s.prepPos.2 := by rw [State.prepChan, h.cfg]
  rw [← h.op, ← hchan, ← h.color]
  unfold State.startPrep at hq
  cases hop : s.op with
  | showFrame => simp [hop] at hq
  | showColor =>
    simp only [hop, Prep.computing.injEq] at hq
    exact hq.1.symm
  | init =>
    simp only [hop, Prep.computing.injEq] at hq
    exact hq.1.symm
  | clear =>
    simp only [hop, Prep.computing.injEq] at hq
    exact hq.1.symm

theorem issue_raw (h : SameOperands a s) {go : Bool} {raw : Byte} {left : Nat} (hq : (s.issue go).prep = .computing raw left) :
    s.prep = .computing raw left ∨ raw = a.byteRaw s.nextIx := by
  obtain ⟨-, -, e⟩ | ⟨-, e⟩ := issue_cases s go <;> rw [e] at hq
  · exact .inr (startPrep_raw h hq)
  · exact .inl hq

theorem issue_ready {go : Bool} (hq : (s.issue go).prep = .ready) : s.prep = .ready := by
  obtain ⟨-, -, e⟩ | ⟨-, e⟩ := issue_cases s go <;> rw [e] at hq
  · obtain ⟨-, e⟩ | ⟨-, _, e⟩ := startPrep_cases s <;> simp [e] at hq
  · exact hq

/-- A SHOW's raw byte is the one at its address, within R66's bound (R61, R142). -/
theorem byteRaw_of_show {j : Nat} (hop : a.op = .showFrame) (hfits : bufferFits a.cfg a.base a.nleds = true)
    (hj : j < 3 * a.nleds.toNat) : a.byteRaw j = a.mem.read (byteAddr a.cfg a.base j).toNat := by
  rw [byteAddr_toNat (bufferFits_iff.1 hfits) hj, State.byteRaw, hop]
  rfl

/-- What an outstanding request is answered with: no race, and the raw byte of the byte to prepare. -/
structure AnswersRaw (a s : State) (x : Addr) (st : Option (Addr × Byte)) : Prop where
  race : s.racing x st = []
  read : s.mem.read x.toNat = a.byteRaw s.nextIx

theorem answersRaw_of_loan {x : Addr} {st : Option (Addr × Byte)} (hcommand : SameCommand a s) (hloan : HoldsLoan a s)
    (hst : ∀ c, st = some c → ¬ a.Lent c.1) (hlent : a.Lent x) (hfits : bufferFits a.cfg a.base a.nleds = true)
    (hx : x = byteAddr s.cfg s.base s.nextIx) (hix : s.nextIx < 3 * a.nleds.toNat) : AnswersRaw a s x st where
  race := State.racing_eq_nil.2 ⟨by simp [hloan.races], fun c hc hcx => hst c hc (hcx ▸ hlent)⟩
  read := by rw [hloan.read x hlent, byteRaw_of_show hlent.1 hfits hix, hx, hcommand.cfg, hcommand.base]

/-! ## The byte in preparation -/

/-- Where the byte to prepare goes: `CURB` for byte 0, `NEXTB` for the others (R150). -/
def State.prepared (s : State) : Byte := if s.cst = .setup then s.curb else s.nextb

/-- The look-ahead is at the byte to prepare: `S` and `E` are the frame's, and `D` stands before that byte, or, once it is ready,
behind it. -/
structure State.Prepares (s a : State) : Prop where
  sreg : s.sreg = frameScale a.op a.scale
  ereg : s.ereg = maskAll (frameScale a.op a.scale)
  raw : ∀ raw left, s.prep = .computing raw left → raw = a.byteRaw s.nextIx
  waiting : s.prep ≠ .ready → s.dreg = a.ditherAfter s.nextIx
  ready : s.prep = .ready → s.prepared = a.sentByte s.nextIx ∧ s.dreg = a.ditherAfter (s.nextIx + 1)

theorem SameByte.prepares {t : State} (h : SameByte s t) (hbytes : SameBytes s t) (hprep : t.prep = s.prep) (hs : s.Prepares a) :
    t.Prepares a := by
  have hprepared : t.prepared = s.prepared := by simp only [State.prepared, h.cst, hbytes.curb, hbytes.nextb]
  refine ⟨hbytes.sreg.trans hs.sreg, hbytes.ereg.trans hs.ereg, ?_, ?_, ?_⟩ <;> rw [h.nextIx, hprep]
  · exact hs.raw
  · rw [hbytes.dreg]
    exact hs.waiting
  · rw [hprepared, hbytes.dreg]
    exact hs.ready

/-- A byte is finished as the frame level has it (41_dither_scale.md R127). -/
theorem finishByte_prepares {raw : Byte} (h : s.Prepares a) (hcfg : s.cfg = a.cfg) (hq : s.prep ≠ .ready)
    (hraw : raw = a.byteRaw s.nextIx) : (s.finishByte raw).Prepares a := by
  have hcorrect : correct s.sreg s.ereg s.dreg s.prepChan raw = (a.sentByte s.nextIx, a.ditherAfter (s.nextIx + 1)) := by
    rw [h.sreg, h.ereg, h.waiting hq, prepChan_eq_byteChan hcfg, hraw]
    exact correctByte_ditherAfter a s.nextIx
  have hprepared : (s.finishByte raw).prepared = a.sentByte s.nextIx ∧ (s.finishByte raw).dreg = a.ditherAfter (s.nextIx + 1) := by
    unfold State.finishByte
    rw [hcorrect]
    by_cases hc : s.cst = .setup <;> simp [State.prepared, hc]
  have hix : (s.finishByte raw).nextIx = s.nextIx := by
    obtain ⟨_, _, _, e⟩ := s.finishByte_frame raw
    rw [e]
    rfl
  obtain ⟨_, _, _, e⟩ := s.finishByte_frame raw
  rw [e] at hprepared hix ⊢
  exact ⟨h.sreg, h.ereg, nofun, fun hne => absurd rfl hne, fun _ => hix ▸ hprepared⟩

theorem takeRaw_prepares {raw : Byte} (h : s.Prepares a) (hcfg : s.cfg = a.cfg) (hq : s.prep ≠ .ready)
    (hraw : raw = a.byteRaw s.nextIx) : (s.takeRaw raw).Prepares a := by
  obtain hlat | hlat := Nat.eq_zero_or_pos s.cfg.prepLat
  · rw [takeRaw_of_zero _ hlat]
    exact finishByte_prepares h hcfg hq hraw
  · rw [takeRaw_of_pos _ hlat]
    exact ⟨h.sreg, h.ereg, fun _ _ hc => by cases hc; exact hraw, fun _ => h.waiting hq, nofun⟩

/-- The look-ahead's part of a cycle. -/
theorem prepCycle_prepares {p : PortIn} (h : s.Prepares a) (hcfg : s.cfg = a.cfg)
    (hanswer : ∀ x, s.prep = .reading x → AnswersRaw a s x p.hostStore) : (s.prepCycle p).Prepares a := by
  cases hq : s.prep with
  | none => rwa [prepCycle_of_rest p (.inl hq)]
  | pending => rwa [prepCycle_of_rest p (.inr (.inl hq))]
  | ready => rwa [prepCycle_of_rest p (.inr (.inr hq))]
  | reading x =>
    cases hack : p.memAck with
    | false => rwa [prepCycle_of_no_ack hq hack]
    | true =>
      obtain ⟨hrace, hread⟩ := hanswer x hq
      have hpick : s.usePick x p.hostStore = s := if_pos hrace
      have hemit : SameByte s (s.emit (.read x)) := ⟨⟨⟨rfl, rfl, rfl, rfl⟩, rfl, rfl⟩, rfl, rfl⟩
      rw [prepCycle_of_ack hq hack, hpick, State.fetched_of_no_race hrace]
      exact takeRaw_prepares (hemit.prepares ⟨rfl, rfl, rfl, rfl, rfl, rfl, rfl⟩ rfl h) hcfg (by simp [hq]) hread
  | computing raw left =>
    have hraw := h.raw raw left hq
    obtain rfl | hleft := Nat.eq_zero_or_pos left
    · rw [prepCycle_of_last p hq]
      exact finishByte_prepares h hcfg (by simp [hq]) hraw
    · rw [prepCycle_of_computing p hq hleft]
      exact ⟨h.sreg, h.ereg, fun _ _ hc => by cases hc; exact hraw, fun _ => h.waiting (by simp [hq]), nofun⟩

theorem issue_prepares (go : Bool) (h : s.Prepares a) (hoperands : SameOperands a s) : (s.issue go).Prepares a := by
  have hbytes := issue_sameBytes s go
  have hix := (issue_samePlace s go).toSameByte.nextIx
  by_cases hq : s.prep = .ready
  · rwa [s.issue_of_ne go (by simp [hq])]
  refine ⟨hbytes.sreg.trans h.sreg, hbytes.ereg.trans h.ereg, fun raw left hc => ?_, fun _ => ?_, fun hr => absurd (issue_ready hr) hq⟩
  · rw [hix]
    exact (issue_raw hoperands hc).elim (h.raw raw left) id
  · rw [hix, hbytes.dreg]
    exact h.waiting hq

theorem issue_microOps_prepares (go : Bool) (h : s.Prepares a) (hoperands : SameOperands a s) : (s.issue go).microOps.Prepares a := by
  refine (microOps_samePlace _).toSameByte.prepares ?_ (microOps_prep _) (issue_prepares go h hoperands)
  obtain ⟨_, _, e⟩ := (s.issue go).microOps_frame
  rw [e]
  exact ⟨rfl, rfl, rfl, rfl, rfl, rfl, rfl⟩

/-- SETUP's first cycle seeds `D` for byte 0 (41_dither_scale.md R123). -/
theorem seed_prepares (hoperands : SameOperands a s) (hc : s.cst = .setup) (hdstore : s.dstore = a.dstore) (hq : s.prep ≠ .ready)
    (hraw : ∀ raw left, s.prep = .computing raw left → raw = a.byteRaw 0) : s.seed.Prepares a := by
  have hix : s.seed.nextIx = 0 := nextIx_setup hc
  have hscale : frameScale s.op s.scale = frameScale a.op a.scale := by rw [hoperands.op, hoperands.scale]
  refine ⟨hscale, congrArg maskAll hscale, ?_, fun _ => ?_, fun hr => absurd hr hq⟩
  · rw [hix]
    exact hraw
  · rw [hix, State.seed_dreg, hscale, hdstore]
    rfl

/-! ## The bytes in each phase -/

/-- The bytes of the frame of `a`, phase by phase: the byte on the wire, the one in preparation, and in the end the Dither State. -/
def State.BytesOk (s a : State) : Prop :=
  match s.cst with
  | .waitIdle => s.dstore = a.dstore
  | .setup => s.seedFirst.Prepares a
  | .xmit => s.curb = a.sentByte s.byteIx ∧ s.Prepares a
  | .adjust => s.dreg = a.ditherAfter (3 * a.nleds.toNat)
  | .restore => s.dstore = a.ditherAfter (3 * a.nleds.toNat)
  | .idle => s.dstore = a.ditherAfter (3 * a.nleds.toNat)

theorem bytesOk_waitIdle (hc : s.cst = .waitIdle) : s.BytesOk a ↔ s.dstore = a.dstore := by rw [State.BytesOk, hc]

theorem bytesOk_setup (hc : s.cst = .setup) : s.BytesOk a ↔ s.seedFirst.Prepares a := by rw [State.BytesOk, hc]

theorem bytesOk_xmit (hc : s.cst = .xmit) : s.BytesOk a ↔ s.curb = a.sentByte s.byteIx ∧ s.Prepares a := by rw [State.BytesOk, hc]

theorem bytesOk_adjust (hc : s.cst = .adjust) : s.BytesOk a ↔ s.dreg = a.ditherAfter (3 * a.nleds.toNat) := by rw [State.BytesOk, hc]

theorem bytesOk_restore (hc : s.cst = .restore) : s.BytesOk a ↔ s.dstore = a.ditherAfter (3 * a.nleds.toNat) := by
  rw [State.BytesOk, hc]

theorem bytesOk_idle (hc : s.cst = .idle) : s.BytesOk a ↔ s.dstore = a.ditherAfter (3 * a.nleds.toNat) := by rw [State.BytesOk, hc]

theorem finishCycle_sameBytes (t : State) (st : Option (Addr × Byte)) : SameBytes t (finishCycle t st) := by
  obtain ⟨_, _, e⟩ := finishCycle_frame t st
  rw [e]
  exact ⟨rfl, rfl, rfl, rfl, rfl, rfl, rfl⟩

theorem finishCycle_bytesOk (st : Option (Addr × Byte)) (h : s.BytesOk a) : (finishCycle s st).BytesOk a := by
  have hbyte := finishCycle_sameByte s st
  have hbytes := finishCycle_sameBytes s st
  have hcst := finishCycle_cst s st
  cases hc : s.cst with
  | setup =>
    rw [bytesOk_setup (hcst.trans hc)]
    rw [bytesOk_setup hc] at h
    obtain ⟨_, _, e⟩ := finishCycle_frame s st
    rw [e]
    unfold State.seedFirst at h ⊢
    by_cases hfirst : s.setupLeft = s.cfg.setupLat
    · rw [if_pos hfirst] at h ⊢
      exact SameByte.prepares (s := s.seed) ⟨⟨⟨rfl, rfl, rfl, rfl⟩, rfl, rfl⟩, rfl, rfl⟩ ⟨rfl, rfl, rfl, rfl, rfl, rfl, rfl⟩ rfl h
    · rw [if_neg hfirst] at h ⊢
      exact SameByte.prepares (s := s) ⟨⟨⟨rfl, rfl, rfl, rfl⟩, rfl, rfl⟩, rfl, rfl⟩ ⟨rfl, rfl, rfl, rfl, rfl, rfl, rfl⟩ rfl h
  | xmit =>
    rw [bytesOk_xmit (hcst.trans hc), hbyte.byteIx, finishCycle_curb]
    exact ((bytesOk_xmit hc).1 h).imp_right (hbyte.prepares hbytes (finishCycle_prep s st))
  | waitIdle => rwa [bytesOk_waitIdle (hcst.trans hc), finishCycle_dstore, ← bytesOk_waitIdle hc]
  | adjust => rwa [bytesOk_adjust (hcst.trans hc), finishCycle_dreg, ← bytesOk_adjust hc]
  | restore => rwa [bytesOk_restore (hcst.trans hc), finishCycle_dstore, ← bytesOk_restore hc]
  | idle => rwa [bytesOk_idle (hcst.trans hc), finishCycle_dstore, ← bytesOk_idle hc]

/-! ## The phases -/

/-- On entering SETUP byte 0 is not ready yet, though its raw byte may be in the data path (R173; log 10). -/
theorem enterSetup_prep (go : Bool) (hoperands : SameOperands a s) :
    (s.enterSetup go).prep ≠ .ready ∧ ∀ raw left, (s.enterSetup go).prep = .computing raw left → raw = a.byteRaw 0 := by
  unfold State.enterSetup
  generalize hy : (({ s with setupLeft := s.cfg.setupLat, late := false,
                             prep := if s.nleds = 0 then .none else .pending } : State).goto .setup).emit .irqOff = y
  have hcst : y.cst = .setup := by rw [← hy]; rfl
  have hopen : y.prep = if s.nleds = 0 then .none else .pending := by rw [← hy]; rfl
  have hoperands' : SameOperands a y := hoperands.trans (by rw [← hy]; exact ⟨⟨rfl, rfl, rfl, rfl⟩, rfl, rfl⟩)
  refine ⟨fun hr => ?_, fun raw left hq => ?_⟩
  · have hready := issue_ready hr
    rw [hopen] at hready
    split_ifs at hready
  · obtain hdata | hraw := issue_raw hoperands' hq
    · rw [hopen] at hdata
      split_ifs at hdata
    · rwa [nextIx_setup hcst] at hraw

theorem waitIdleCycle_bytesOk (p : PortIn) (hoperands : SameOperands a s) (hc : s.cst = .waitIdle) (h : s.BytesOk a) :
    (s.waitIdleCycle p).BytesOk a := by
  unfold State.waitIdleCycle
  split_ifs
  swap
  · exact h
  obtain ⟨_, e⟩ := s.enterSetup_frame p.go
  have hsetup : (s.enterSetup p.go).cst = .setup := by rw [e]
  have hfirst : (s.enterSetup p.go).seedFirst = (s.enterSetup p.go).seed := if_pos (by rw [e])
  have hoperands' : SameOperands s (s.enterSetup p.go) := by
    rw [e]
    exact ⟨⟨rfl, rfl, rfl, rfl⟩, rfl, rfl⟩
  rw [bytesOk_setup hsetup, hfirst]
  obtain ⟨hready, hraw⟩ := enterSetup_prep p.go hoperands
  refine seed_prepares (hoperands.trans hoperands') hsetup ?_ hready hraw
  rw [e]
  exact (bytesOk_waitIdle hc).1 h

variable {goLat memLat : Nat}

/-- In a cycle that stays within its byte, `q` being the state after the look-ahead's part of it and `x` the one before its issue. -/
theorem SameByte.bytesOk {q x : State} (hbyte : SameByte q x) (go : Bool) (hc : q.cst = .xmit) (hcurb : q.curb = a.sentByte q.byteIx)
    (hq : q.Prepares a) (hbytes : SameBytes q x) (hprep : x.prep = q.prep) (hoperands : SameOperands a x) :
    (x.issue go).microOps.BytesOk a := by
  have hall := hbyte.trans (issue_microOps_samePlace x go).toSameByte
  rw [bytesOk_xmit (hall.cst.trans hc), hall.byteIx, (issue_microOps_sameBytes x _).curb, hbytes.curb]
  exact ⟨hcurb, issue_microOps_prepares _ (hbyte.prepares hbytes hprep hq) hoperands⟩

/-- At the start of a byte, the byte before it having been sent as the frame level has it. -/
theorem ByteStart.bytesOk {q x : State} (hx : ByteStart q x) (go : Bool) (hoperands : SameOperands a x)
    (hsreg : x.sreg = frameScale a.op a.scale) (hereg : x.ereg = maskAll (frameScale a.op a.scale))
    (hcurb : x.curb = a.sentByte x.byteIx) (hdreg : x.dreg = a.ditherAfter (x.byteIx + 1)) : (x.issue go).microOps.BytesOk a := by
  have hplace := issue_microOps_samePlace x go
  have hix : x.nextIx = x.byteIx + 1 := nextIx_xmit hx.cst
  have hprepares : x.Prepares a := by
    refine ⟨hsreg, hereg, ?_, fun _ => hix ▸ hdreg, ?_⟩ <;> rw [hx.prep] <;> cases x.hasNext <;> nofun
  rw [bytesOk_xmit (hplace.cst.trans hx.cst), hplace.byteIx, (issue_microOps_sameBytes x go).curb]
  exact ⟨hcurb, issue_microOps_prepares go hprepares hoperands⟩

/-- In the frame of `a`, what an outstanding request is answered with. -/
theorem State.OnTime.answersRaw (h : s.OnTime goLat memLat) (hoperands : SameOperands a s) (hloan : LoanKept a s) {x : Addr}
    (hq : s.prep = .reading x) (hx : x = byteAddr s.cfg s.base s.nextIx) : AnswersRaw a s x s.port.hostStore := by
  have hcst := cst_of_reading h.inv hq
  have hbusy : s.cst ≠ .idle := by obtain hc | hc := hcst <;> simp [hc]
  obtain ⟨-, -, -, hreading, -⟩ := h.inv.prep
  have hlent : s.Lent x := hreading x hq
  obtain ⟨-, hfits, -⟩ := State.busyFault_none.1 (h.inv.latches hbusy)
  have hpos : 0 < s.cyclesLeft := by
    have := (onTime_busyNext h hbusy (by obtain hc | hc := hcst <;> simp [hc])).2
    omega
  have hst := hloan.stores 0 hpos
  rw [← s.port_eq_portAt_zero] at hst
  have hix : s.nextIx < 3 * s.nleds.toNat := by
    obtain hc | hc := hcst
    · have hn : s.nleds.toNat ≠ 0 := fun h0 => nleds_ne_zero_of_reading h.inv hq (BitVec.eq_of_toNat_eq h0)
      rw [nextIx_setup hc]
      omega
    · have hmore : s.hasNext = true := by
        rw [← Bool.not_eq_false, ← h.inTime.wanted.2 hc, hq]
        nofun
      rw [nextIx_xmit hc]
      exact (hasNext_iff (h.inv.position.1 hc)).1 hmore
  have hfits := hfits hlent.1
  rw [hoperands.cfg, hoperands.base, hoperands.nleds] at hfits
  rw [State.Lent, hoperands.op, hoperands.cfg, hoperands.base, hoperands.nleds] at hlent
  rw [hoperands.nleds] at hix
  exact answersRaw_of_loan hoperands.toSameCommand hloan.toHoldsLoan hst hlent hfits hx hix

/-- A request is for the byte to prepare: `TraceOk`'s clause on requests. -/
theorem request_of_traceOk {T : List Event} {x : Addr} (ht : s.TraceOk T) (hc : s.cst = .setup ∨ s.cst = .xmit)
    (hq : s.prep = .reading x) : x = byteAddr s.cfg s.base s.nextIx := by
  obtain hc | hc := hc
  · exact ((traceOk_setup hc).1 ht).1 x hq
  · exact ((traceOk_xmit hc).1 ht).1 x hq

/-- The frame of the accepted command `a`, whose events come after `T`, is being sent: the operands and the borrowed bytes are still
those of `a`, the trace is that of the frame so far, and so are the bytes. -/
structure State.Serves (T : List Event) (s a : State) : Prop where
  operands : SameOperands a s
  loan : LoanKept a s
  trace : s.TraceOk T
  bytes : s.BytesOk a

variable {T : List Event}

theorem setupCycle_bytesOk (h : s.OnTime goLat memLat) (hc : s.cst = .setup) (hs : s.Serves T a) :
    (s.setupCycle (s.portAt 0)).BytesOk a := by
  have hkeeps := s.seedFirst_keeps.trans (State.prepCycle_keeps s.seedFirst (s.portAt 0))
  have hplace := setup_place h.inv hc (s.portAt 0)
  have hnone := seedFirst_prepCycle_none (p := s.portAt 0) h.inTime hc
  have hleft := h.inv.setup hc
  have hseedix : s.seedFirst.nextIx = s.nextIx := by
    obtain ⟨_, _, _, _, _, _, e⟩ := seedFirst_frame s
    rw [nextIx_setup hc, nextIx_setup (by rw [e]; exact hc)]
  have hq : (s.seedFirst.prepCycle (s.portAt 0)).Prepares a := by
    refine prepCycle_prepares ((bytesOk_setup hc).1 hs.bytes) (s.seedFirst_keeps.cfg.trans hs.operands.cfg) fun x hx => ?_
    rw [seedFirst_prep] at hx
    obtain ⟨hrace, hread⟩ := h.answersRaw hs.operands hs.loan hx (request_of_traceOk hs.trace (.inl hc) hx)
    rw [← s.port_eq_portAt_zero]
    refine ⟨?_, ?_⟩
    · rw [← hrace, State.racing, s.seedFirst_keeps.superseded]
      rfl
    · rw [s.seedFirst_keeps.mem, hseedix, hread]
  have hoperands := hs.operands.trans hkeeps.sameOperands
  have hqc := hplace.cst.trans hc
  obtain ⟨hmore, e⟩ | ⟨-, -, hready, e⟩ | ⟨-, hn, e⟩ := h.setupCycle_cases hc <;> rw [e] <;> clear e <;>
    generalize s.seedFirst.prepCycle (s.portAt 0) = q at *
  · have hissue := issue_samePlace q.spendSetup (s.portAt 0).go
    have hlater : (q.spendSetup.issue (s.portAt 0).go).seedFirst = q.spendSetup.issue (s.portAt 0).go := by
      refine if_neg ?_
      rw [hissue.setupLeft, hissue.cfg]
      show q.setupLeft - 1 ≠ q.cfg.setupLat
      rw [hplace.setupLeft, hplace.cfg]
      omega
    rw [bytesOk_setup (hissue.cst.trans hqc), hlater]
    exact issue_prepares _ (SameByte.prepares (s := q) ⟨⟨⟨rfl, rfl, rfl, rfl⟩, rfl, rfl⟩, rfl, rfl⟩
      ⟨rfl, rfl, rfl, rfl, rfl, rfl, rfl⟩ rfl hq) (hoperands.trans ⟨⟨rfl, rfl, rfl, rfl⟩, rfl, rfl⟩)
  · obtain ⟨hstart, hix⟩ := enterXmit_byteStart hready hplace.biti
    have hzero : q.byteIx = 0 := by simp [State.byteIx, hplace.pix, hplace.slot]
    obtain ⟨hcurb, hdreg⟩ := hq.ready hready
    rw [nextIx_setup hqc] at hcurb hdreg
    rw [State.prepared, if_pos hqc] at hcurb
    obtain ⟨_, e⟩ := q.enterXmit_frame
    refine hstart.bytesOk _ ?_ ?_ ?_ ?_ ?_
    · exact hoperands.trans (by rw [e]; exact ⟨⟨rfl, rfl, rfl, rfl⟩, rfl, rfl⟩)
    · rw [e]; exact hq.sreg
    · rw [e]; exact hq.ereg
    · rw [hix, hzero, e]; exact hcurb
    · rw [hix, hzero, e]; exact hdreg
  · have hdreg := hq.waiting (by rw [hnone.2 hn]; nofun)
    rw [nextIx_setup hqc] at hdreg
    rw [bytesOk_adjust rfl, State.enterAdjust_dreg, hdreg, ← hs.operands.nleds, hn]
    rfl

theorem xmitCycle_bytesOk (h : s.OnTime goLat memLat) (hc : s.cst = .xmit) (hs : s.Serves T a) :
    (s.xmitCycle (s.portAt 0)).BytesOk a := by
  obtain ⟨hcurb, hprepares⟩ := (bytesOk_xmit hc).1 hs.bytes
  have hplace := prepCycle_samePlace s (s.portAt 0)
  have hoperands := hs.operands.trans (s.prepCycle_keeps (s.portAt 0)).sameOperands
  have hix : s.nextIx = s.byteIx + 1 := nextIx_xmit hc
  have hq : (s.prepCycle (s.portAt 0)).Prepares a := prepCycle_prepares hprepares hs.operands.cfg fun x hx =>
    s.port_eq_portAt_zero ▸ h.answersRaw hs.operands hs.loan hx (request_of_traceOk hs.trace (.inr hc) hx)
  have hqcurb : (s.prepCycle (s.portAt 0)).curb = a.sentByte (s.prepCycle (s.portAt 0)).byteIx := by
    rw [prepCycle_curb (s.portAt 0) hc, hplace.toSameByte.byteIx, hcurb]
  obtain ⟨-, e⟩ | ⟨-, -, e⟩ | ⟨hcnt, -, hnext, hready, e⟩ | ⟨-, -, hlast, e⟩ := h.xmitCycle_cases hc (s.portAt 0) <;> rw [e]
  · exact (count_sameByte _).bytesOk _ (hplace.cst.trans hc) hqcurb hq ⟨rfl, rfl, rfl, rfl, rfl, rfl, rfl⟩ rfl
      (hoperands.trans ⟨⟨rfl, rfl, rfl, rfl⟩, rfl, rfl⟩)
  · exact ((nextBit_sameByte _).trans (count_sameByte _)).bytesOk _ (hplace.cst.trans hc) hqcurb hq
      ⟨rfl, rfl, rfl, rfl, rfl, rfl, rfl⟩ rfl
      (hoperands.trans ⟨⟨rfl, rfl, rfl, rfl⟩, rfl, rfl⟩)
  · obtain ⟨hstart, hstartix⟩ := nextByte_byteStart hc hcnt hnext hready
    obtain ⟨hsent, hdreg⟩ := hprepares.ready hready
    rw [hix] at hsent hdreg
    rw [State.prepared, if_neg (by simp [hc])] at hsent
    obtain ⟨_, _, e1⟩ := s.nextIndex_frame
    obtain ⟨_, e2⟩ := s.nextIndex.shiftByte.openWindow_frame
    refine hstart.bytesOk _ ?_ ?_ ?_ ?_ ?_
    · exact hs.operands.trans (by rw [e2, e1]; exact ⟨⟨rfl, rfl, rfl, rfl⟩, rfl, rfl⟩)
    · rw [e2, e1]; exact hprepares.sreg
    · rw [e2, e1]; exact hprepares.ereg
    · rw [hstartix, e2, e1]; exact hsent
    · rw [hstartix, e2, e1]; exact hdreg
  · have hdreg := hprepares.waiting (by rw [h.rest_of_last hc hlast]; nofun)
    have hpix := h.inv.position.1 hc
    have hend : ¬ s.byteIx + 1 < 3 * s.nleds.toNat := by rw [← hasNext_iff hpix, hlast]; simp
    have hslot := s.slot.isLt
    have hinside : s.byteIx < 3 * s.nleds.toNat := by unfold State.byteIx; omega
    rw [bytesOk_adjust rfl, State.enterAdjust_dreg, hdreg, hix, ← hs.operands.nleds, show s.byteIx + 1 = 3 * s.nleds.toNat by omega]

theorem adjustCycle_bytesOk (h : s.OnTime goLat memLat) (hc : s.cst = .adjust) (hs : s.BytesOk a) : s.adjustCycle.BytesOk a := by
  rw [bytesOk_restore rfl, State.adjustCycle, writeBack_of_on_time h.inTime.late]
  exact (bytesOk_adjust hc).1 hs

/-- Every cycle of a frame on time carries the frame on. -/
theorem busyNext_serves (h : s.InFrame goLat memLat) (hi : s.cst ≠ .idle) (hs : s.Serves T a) : s.busyNext.Serves T a := by
  have hm : s.MemOk := h.elim State.Waits.mem fun hontime => hontime.1.inv.mem
  refine ⟨hs.operands.trans (busyNext_sameOperands s), busyNext_loanKept hs.loan hs.operands.toSameCommand hm (inFrame_busyNext h hi).2,
    busyNext_traceOk h hi hs.trace, finishCycle_bytesOk _ ?_⟩
  obtain hwaits | ⟨hontime, hw⟩ := h
  · rw [State.sequencerCycle, hwaits.cst]
    exact waitIdleCycle_bytesOk _ hs.operands hwaits.cst hs.bytes
  rw [State.sequencerCycle, s.port_eq_portAt_zero]
  cases hc : s.cst with
  | idle => exact absurd hc hi
  | waitIdle => exact absurd hc hw
  | setup => exact setupCycle_bytesOk hontime hc hs
  | xmit => exact xmitCycle_bytesOk hontime hc hs
  | adjust => exact adjustCycle_bytesOk hontime hc hs.bytes
  | restore => exact (bytesOk_idle rfl).2 ((bytesOk_restore hc).1 hs.bytes)

end

/-! ## Acceptance -/

/-- What an accepted command borrows is what its latches say. -/
theorem lent_acceptedState {s : State} {i : Instr} (hi : i.opcode.isFrame = true) (x : Addr) :
    (acceptedState i s).Lent x ↔ Instr.borrows s.cfg i x = true := by
  cases i with
  | init => cases hi
  | showFrame base n sc => exact ⟨And.right, fun h => ⟨rfl, h⟩⟩
  | showColor color n sc => exact ⟨nofun, nofun⟩
  | clear n => exact ⟨nofun, nofun⟩

/-- The frame of an accepted command begins, its host keeping the loan from the accepting cycle on (H1). -/
theorem acceptNext_serves {s : State} {i : Instr} (h : s.StartsFrame i)
    (hloan : s.KeepsLoan i (busyCycles s.cfg s.now s.lastmark i.count.toNat)) :
    (s.acceptNext i).Serves s.trace (acceptedState i s) := by
  obtain ⟨-, -, -, hraces, -, -, -⟩ := acceptedState_of_isFrame s h.frame
  obtain ⟨hcst, -, -, -, -, htrace⟩ := acceptNext_latches h
  have hcycles := acceptNext_cyclesLeft h
  have hstores : ∀ j < busyCycles s.cfg s.now s.lastmark i.count.toNat, ∀ c, (s.portAt j).hostStore = some c →
      ¬ (acceptedState i s).Lent c.1 := fun j hj c hc => by
    rw [lent_acceptedState h.frame, hloan j hj c hc]
    nofun
  refine ⟨finishCycle_sameOperands _ _, ⟨finishCycle_holdsLoan ⟨hraces, fun _ _ => rfl⟩ ⟨rfl, rfl, rfl, rfl⟩ ?_ fun c hc => ?_,
    fun j hj => ?_⟩, (traceOk_waitIdle hcst).2 htrace, ?_⟩
  · rw [State.MemOk, acceptedState_mem]
    exact h.memory
  · rw [s.port_eq_portAt_zero] at hc
    exact hstores 0 (by omega) c hc
  · rw [portAt_of_ports_tail (acceptNext_ports h)]
    exact hstores (j + 1) (by omega)
  · rw [bytesOk_waitIdle hcst, State.acceptNext, finishCycle_dstore]

end Sys2Proof.Machine
end

