-- ==== Sys2Proof/Proofs/Waveform.lean ====
section
/-! PROOFS. The waveform on the pin: of one bit, and of a whole frame as the image of its bit stream (spec/42_bit_engine.md R147 to
R149). -/

namespace Sys2Proof.Machine

/-! ## One bit -/

/-- Through the cycles of its period the bit on the wire stays the same (R147). -/
theorem runFor_currentBit {s u : State} (h : s.Inv) (hc : s.cst = .xmit) {k : Nat} (hk : k < s.cnt.toNat) (hr : s.Undisturbed k)
    (hrun : runFor k s = .next u) : currentBit u = currentBit s := by
  induction k generalizing u with
  | zero => cases hrun; rfl
  | succ k ih =>
    obtain ⟨v, hv, hlater⟩ := runFor_inside_bit h hc (k := k) (by omega) fun j hj => hr j (by omega)
    rw [runFor_add hv] at hrun
    have hvc := hlater.sameByte.cst.trans hc
    have hcnt := hlater.cnt
    have hinside : 1 < v.cnt.toNat := by omega
    have hbusy : v.cst ≠ .idle := by simp [hvc]
    have hrv : v.port.rst = false := by
      rw [v.port_eq_portAt_zero, hlater.portAt]
      exact hr k k.lt_succ_self
    rw [runFor_succ (step_eq_busyNext hrv hbusy (hlater.inv.latches hbusy))] at hrun
    cases hrun
    rw [← ih (by omega) (fun j hj => hr j (by omega)) hv, currentBit, currentBit, (busyNext_withinByte hvc (.inl hinside)).curb,
      busyNext_biti_inside_bit hvc hinside]

/-- Settles O44: `off` cycles into the period the counter is `off` below `TOTAL` (`runFor_inside_bit`), the bit is the same
(`runFor_currentBit`), and the invariant gives the pin's level. -/
theorem oneBitHasItsWaveform : Obligations.OneBitHasItsWaveform := by
  intro s off h hc hwrap hoff hr
  have hcnt : s.cnt.toNat = total s.cfg := (h.counter hc).2.2.1 hwrap
  obtain ⟨u, hrun, hlater⟩ := runFor_inside_bit h hc (k := off) (by omega) hr
  have huc := hlater.sameByte.cst.trans hc
  have hbit := runFor_currentBit h hc (by omega) hr hrun
  have hleft := hlater.cnt
  have hcoff : cOff u.cfg u.cnt = off := by
    rw [hlater.sameByte.cfg, cOff]
    omega
  refine ⟨u, hrun, huc, hcoff, hbit, ?_⟩
  rw [hlater.inv.pin.1 huc, hcoff, hbit, hlater.sameByte.cfg]
  rfl

/-! ## The whole frame -/

/-- Without a reset `NOW` counts every cycle (10_state.md R27). -/
theorem runFor_now {k : Nat} {s u : State} (hr : s.Undisturbed k) (hrun : runFor k s = .next u) : u.now = s.now + k := by
  induction k generalizing s with
  | zero => cases hrun; rfl
  | succ k ih =>
    obtain ⟨t, hstep, hrest⟩ := runFor_succ_next hrun
    obtain ⟨-, -, -, hnow⟩ := persistentStateHasOneWriter s t hr.port hstep
    rw [ih (hr.next hstep) hrest, hnow]
    omega

/-- Every cycle of every bit of the frame lies in its XMIT phase (R149). -/
theorem bit_before_end {cfg : Config} {n m off : Nat} (hm : m < 24 * n) (hoff : off < total cfg) :
    m * total cfg + off < frameCycles cfg n := by
  have hperiods := Nat.mul_le_mul_right (total cfg) (Nat.succ_le_of_lt hm)
  rw [Nat.succ_mul] at hperiods
  rw [frameCycles, Nat.mul_comm n]
  omega

/-- `q` periods and more than none but less than two make `p` periods only if `p` is `q + 1`. -/
theorem eq_succ_of_mul_add {p q r t : Nat} (h : q * t + r = p * t) (hpos : 0 < r) (hlt : r < 2 * t) : p = q + 1 := by
  have hlower : q < p := Nat.lt_of_mul_lt_mul_right (a := t) (by omega)
  have hupper : p < q + 2 := Nat.lt_of_mul_lt_mul_right (a := t) (by rw [Nat.add_mul]; omega)
  omega

/-- Where a frame on time is once `m` bits and `off` cycles of the next are behind its first cycle of XMIT: at that cycle of bit `m`. -/
theorem State.InFrame.place_of_cyclesLeft {goLat memLat m off : Nat} {u : State} (h : u.InFrame goLat memLat)
    (hm : m < 24 * u.nleds.toNat) (hoff : off < total u.cfg)
    (hleft : u.cyclesLeft + m * total u.cfg + off = frameCycles u.cfg u.nleds.toNat + 2) :
    u.cst = .xmit ∧ u.Inv ∧ u.byteIx = m / 8 ∧ u.biti.toNat = 7 - m % 8 ∧ cOff u.cfg u.cnt = off := by
  have hbefore := bit_before_end hm hoff
  obtain hwaits | ⟨hontime, hw⟩ := h
  · rw [cyclesLeft_waitIdle hwaits.cst] at hleft
    omega
  have hinv := hontime.inv
  cases hc : u.cst with
  | waitIdle => exact absurd hc hw
  | idle => rw [cyclesLeft_idle hc] at hleft; omega
  | adjust => rw [cyclesLeft_adjust hc] at hleft; omega
  | restore => rw [cyclesLeft_restore hc] at hleft; omega
  | setup =>
    have hsetup := hinv.setup hc
    rw [cyclesLeft_setup hc] at hleft
    omega
  | xmit =>
    obtain ⟨hpos, hle, -⟩ := hinv.counter hc
    have hpix := hinv.position.1 hc
    have hslot := u.slot.isLt
    have hbiti := u.biti.isLt
    have hinside : u.byteIx < 3 * u.nleds.toNat := by unfold State.byteIx; omega
    rw [cyclesLeft_xmit hc, State.byteLeft, frameCycles] at hleft
    obtain ⟨later, hlater⟩ : ∃ later, 3 * u.nleds.toNat - 1 - u.byteIx = later := ⟨_, rfl⟩
    rw [hlater] at hleft
    have hperiods : (later * 8 + u.biti.toNat + m) * total u.cfg + (u.cnt.toNat + off) = u.nleds.toNat * 24 * total u.cfg := by
      rw [Nat.add_mul, Nat.add_mul, Nat.mul_assoc later]
      omega
    have hbits := eq_succ_of_mul_add hperiods (by omega) (by omega)
    rw [hbits, Nat.succ_mul] at hperiods
    refine ⟨rfl, hinv, by omega, by omega, ?_⟩
    unfold cOff
    omega

/-- Settles O48: the byte on the wire is the frame's (`busyNext_serves` from acceptance on), the cycles left say which bit of it is
(`place_of_cyclesLeft`), and the invariant gives the pin's level for that bit and offset. -/
theorem frameHasItsWaveform : Obligations.FrameHasItsWaveform := by
  intro s i m off h hloan hm hoff
  obtain ⟨-, hcfg, -, hn, -, -⟩ := acceptNext_latches h
  have hbefore := bit_before_end hm hoff
  have hcycles : busyCycles s.cfg s.now s.lastmark i.count.toNat =
      firstBit s.cfg s.now s.lastmark - s.now + frameCycles s.cfg i.count.toNat + 2 := by
    unfold busyCycles adjustAt firstBit waitEnd
    omega
  obtain ⟨k, hk⟩ : ∃ k, firstBit s.cfg s.now s.lastmark + m * total s.cfg + off - s.now = k + 1 := by
    refine Nat.exists_eq_succ_of_ne_zero ?_
    unfold firstBit waitEnd
    omega
  have hfirst : s.now < firstBit s.cfg s.now s.lastmark := by unfold firstBit waitEnd; omega
  obtain ⟨u, hrun, ⟨goLat, memLat, hu⟩, hleft, hcommand, hserves⟩ :=
    runFor_startsFrame (P := fun t => t.Serves s.trace (acceptedState i s)) h (acceptNext_serves h hloan)
      (fun _ _ _ => busyNext_serves) (k := k) (by omega)
  have hucfg := hcommand.cfg.trans hcfg
  have hun := hcommand.nleds.trans hn
  obtain ⟨huc, hinv, hbyte, hbiti, hcoff⟩ := hu.place_of_cyclesLeft (m := m) (off := off) (by rwa [hun]) (by rwa [hucfg])
    (by rw [hucfg, hun]; omega)
  obtain ⟨hcurb, -⟩ := (bytesOk_xmit huc).1 hserves.bytes
  refine ⟨u, hk ▸ hrun, huc, ?_, ?_⟩
  · rw [runFor_now (fun j hj => h.noReset j (by omega)) hrun]
    omega
  · have hcount : (acceptedState i s).nleds = i.count := (acceptedState_of_isFrame s h.frame).2.2.1
    rw [hinv.pin.1 huc, hcoff, hucfg, commandFrame_eq_frameBits s h.frame, frameBits_getD (acceptedState i s) (by rwa [hcount]),
      currentBit, hcurb, hbyte, hbiti]

end Sys2Proof.Machine
end

