-- ==== Sys2Proof/Proofs/MissedDeadline.lean ====
section
/-! PROOFS. A frame that has missed a deadline of the look-ahead goes on with free bytes, and leaves XMIT once no request is outstanding
(spec/42_bit_engine.md R152; spec/70_reset_and_hazards.md R246; spec/93_implementation_defined.md U2; log 11). -/

namespace Sys2Proof.Machine

/-! ## What the look-ahead's part of a cycle uses of the free values, and when it does not finish a byte -/

theorem takeRaw_freeIx (s : State) (raw : Byte) : (s.takeRaw raw).freeIx = s.freeIx := by
  obtain ⟨_, _, _, _, e⟩ := s.takeRaw_frame raw
  rw [e]

/-- A raced read may use up a free choice; nothing gives one back. -/
theorem prepCycle_freeIx_le (s : State) (p : PortIn) : s.freeIx ≤ (s.prepCycle p).freeIx := by
  unfold State.prepCycle
  cases s.prep with
  | none => exact le_rfl
  | pending => exact le_rfl
  | ready => exact le_rfl
  | reading a =>
    dsimp only
    split_ifs
    · rw [takeRaw_freeIx, State.emit_freeIx, State.usePick]
      split_ifs
      · exact le_rfl
      · exact Nat.le_succ _
    · exact le_rfl
  | computing raw left =>
    dsimp only
    split_ifs
    · obtain ⟨_, _, _, e⟩ := s.finishByte_frame raw
      rw [e]
    · exact le_rfl

/-- A byte whose raw value is not there yet, or still has cycles to go in the data path, is not ready after the cycle. -/
theorem prepCycle_not_ready {s : State} {p : PortIn}
    (h : s.prep = .pending ∨ (∃ a, s.prep = .reading a ∧ (p.memAck = false ∨ 0 < s.cfg.prepLat)) ∨
      ∃ raw left, s.prep = .computing raw left ∧ 0 < left) : (s.prepCycle p).prep ≠ .ready := by
  obtain hq | ⟨a, hq, hwait⟩ | ⟨raw, left, hq, hleft⟩ := h
  · simp [prepCycle_of_rest p (.inr (.inl hq)), hq]
  · cases hack : p.memAck with
    | false => simp [prepCycle_of_no_ack hq hack, hq]
    | true =>
      obtain ⟨hdata, -, -⟩ := prepCycle_ack_enters hq hack (hwait.resolve_left (by simp [hack]))
      simp [hdata]
  · simp [prepCycle_of_computing p hq hleft]

/-- A request that is answered in this cycle is not outstanding after it. -/
theorem prepCycle_memReq_of_ack {s : State} {p : PortIn} (h : ∀ a, s.prep = .reading a → p.memAck = true) :
    (s.prepCycle p).memReq = false := by
  have hnot : ∀ a, (s.prepCycle p).prep ≠ .reading a := by
    intro a hreading
    have hq : s.prep = .reading a := prepCycle_prep.2.1 a hreading
    rw [prepCycle_of_ack hq (h a hq)] at hreading
    exact (takeRaw_prep _ _).ne_reading a hreading
  unfold State.memReq
  cases hq : (s.prepCycle p).prep with
  | reading a => exact absurd hq (hnot a)
  | none => rfl
  | pending => rfl
  | computing raw left => rfl
  | ready => rfl

/-! ## Free bytes on the wire -/

/-- `t` goes on after `s` with a free byte: the frame is late, and the byte on the wire is a free value not used before. -/
structure SendsFreeByte (s t : State) : Prop where
  cst : t.cst = .xmit
  late : t.late = true
  byte : ∃ x, s.freeIx ≤ x ∧ t.freeIx = x + 1 ∧ t.curb = freeByte x

/-- A free byte stays on the wire through the issue, the micro-operations and the end of the cycle. -/
theorem SendsFreeByte.endCycle {s y : State} (h : SendsFreeByte s y) (go : Bool) (st : Option (Addr × Byte)) :
    SendsFreeByte s (finishCycle (y.issue go).microOps st) := by
  have hplace := issue_microOps_samePlace y go
  have hbytes := issue_microOps_sameBytes y go
  obtain ⟨x, hle, hix, hcurb⟩ := h.byte
  refine ⟨?_, ?_, x, hle, ?_, ?_⟩
  · rw [finishCycle_cst, hplace.cst, h.cst]
  · rw [finishCycle_late, hplace.late, h.late]
  · rw [finishCycle_freeIx, hbytes.freeIx, hix]
  · rw [finishCycle_curb, hbytes.curb, hcurb]

/-- The next byte was not ready, or the frame is late already (R152). -/
theorem loadNext_of_missed {s : State} {r : Bool} (h : r = false ∨ s.late = true) : s.loadNext r = s.missDeadline.freeCurb := by
  refine if_neg ?_
  obtain h | h := h <;> simp [h]

/-- A byte boundary without a byte to send: a free one goes to the wire, and the loop goes on. -/
theorem busyNext_missed_byte {s : State} (hc : s.cst = .xmit) (hcnt : s.cnt.toNat = 1) (hbiti : s.biti = 0) (hnext : s.hasNext = true)
    (hmissed : s.prep ≠ .ready ∨ s.late = true) : SendsFreeByte s s.busyNext ∧ s.busyNext.biti = 7 := by
  have hplace := prepCycle_samePlace s s.port
  have hle := prepCycle_freeIx_le s s.port
  rw [busyNext_of_xmit hc, xmitCycle_end_of_byte _ hc hcnt.le hbiti hnext]
  generalize s.prepCycle s.port = q at *
  obtain ⟨_, _, e1⟩ := q.nextIndex_frame
  have hload : q.nextIndex.loadNext (s.prep == .ready) = q.nextIndex.missDeadline.freeCurb :=
    loadNext_of_missed (hmissed.imp beq_eq_false_iff_ne.2 fun hlate => by rw [e1]; exact hplace.late.trans hlate)
  obtain ⟨_, e2⟩ := q.nextIndex.missDeadline.freeCurb.openWindow_frame
  rw [hload, finishCycle_biti, (issue_microOps_samePlace _ _).biti]
  refine ⟨SendsFreeByte.endCycle ?_ _ _, ?_⟩ <;> rw [e2, e1]
  · exact ⟨hplace.cst.trans hc, rfl, q.freeIx, hle, rfl, rfl⟩
  · rfl

/-- The end of SETUP without byte 0: XMIT begins with a free byte (R246). -/
theorem busyNext_missed_first_byte {s : State} (hc : s.cst = .setup) (hleft : s.setupLeft = 1) (hn : s.nleds ≠ 0)
    (hready : (s.seedFirst.prepCycle s.port).prep ≠ .ready) : SendsFreeByte s s.busyNext := by
  obtain ⟨_, _, _, _, _, _, e⟩ := seedFirst_frame s
  have hplace := prepCycle_samePlace s.seedFirst s.port
  have hle := prepCycle_freeIx_le s.seedFirst s.port
  have hnleds := (s.seedFirst_keeps.trans (State.prepCycle_keeps _ s.port)).nleds
  have hfree : s.seedFirst.freeIx = s.freeIx := by rw [e]
  have hlast : (s.seedFirst.prepCycle s.port).setupLeft ≤ 1 := by
    rw [hplace.setupLeft, e]
    exact hleft.le
  have hseq : s.sequencerCycle s.port = (s.seedFirst.prepCycle s.port).leaveSetup s.port.go := by
    rw [State.sequencerCycle, hc]
    exact if_pos hlast
  rw [State.busyNext, hseq, State.leaveSetup, if_neg (by rwa [hnleds]), State.firstByte, if_neg hready]
  generalize s.seedFirst.prepCycle s.port = q at *
  obtain ⟨_, ex⟩ := q.missDeadline.freeCurb.enterXmit_frame
  rw [beginXmitCycle_of_xmit _ (by rw [ex])]
  refine SendsFreeByte.endCycle ?_ _ _
  rw [ex]
  exact ⟨rfl, rfl, q.freeIx, hfree ▸ hle, rfl, rfl⟩

/-! ## The end of a late frame -/

/-- With its request unanswered the block stays in XMIT, and sends a free byte (U2). -/
theorem busyNext_held_at_end {s : State} {a : Addr} (hc : s.cst = .xmit) (hcnt : s.cnt.toNat = 1) (hbiti : s.biti = 0)
    (hlast : s.hasNext = false) (hlate : s.late = true) (hq : s.prep = .reading a) (hack : s.port.memAck = false) :
    SendsFreeByte s s.busyNext ∧ s.busyNext.prep = .reading a ∧ s.busyNext.biti = 7 := by
  have hend : s.endFrame = ({ s.freeCurb with biti := 7 } : State).count := if_pos (by simp [hlate, memReq_of_reading hq])
  have hfree : SendsFreeByte s ({ s.freeCurb with biti := 7 } : State).count := ⟨hc, hlate, s.freeIx, le_rfl, rfl, rfl⟩
  have hheld : ({ s.freeCurb with biti := 7 } : State).count.prep = .reading a := hq
  have hbit : ({ s.freeCurb with biti := 7 } : State).count.biti = 7 := rfl
  rw [busyNext_of_xmit hc, xmitCycle_end_of_frame _ hcnt.le hbiti hlast, prepCycle_of_no_ack hq hack, hend,
    beginXmitCycle_of_xmit _ hfree.cst]
  generalize ({ s.freeCurb with biti := 7 } : State).count = y at *
  exact ⟨hfree.endCycle _ _, by rw [finishCycle_prep, microOps_prep, issue_of_reading _ hheld, hheld],
    by rw [finishCycle_biti, (issue_microOps_samePlace y _).biti, hbit]⟩

/-- Without one it goes to ADJUST, late as it is. -/
theorem busyNext_released_at_end {s : State} (hc : s.cst = .xmit) (hcnt : s.cnt.toNat = 1) (hbiti : s.biti = 0)
    (hlast : s.hasNext = false) (hlate : s.late = true) (hack : ∀ a, s.prep = .reading a → s.port.memAck = true) :
    s.busyNext.cst = .adjust ∧ s.busyNext.late = true := by
  have hend : (s.prepCycle s.port).endFrame = (s.prepCycle s.port).enterAdjust := if_neg (by simp [prepCycle_memReq_of_ack hack])
  have hbegin : (s.prepCycle s.port).enterAdjust.beginXmitCycle s.port.go = (s.prepCycle s.port).enterAdjust := if_neg nofun
  rw [busyNext_of_xmit hc, xmitCycle_end_of_frame _ hcnt.le hbiti hlast, hend, hbegin, finishCycle_cst, finishCycle_late,
    State.enterAdjust_cst, State.enterAdjust_late, (prepCycle_samePlace s s.port).late]
  exact ⟨rfl, hlate⟩

/-- ADJUST of a late frame writes three free bytes back (U2). -/
theorem writeBack_of_late {s : State} (hlate : s.late = true) : s.writeBack =
    { s with dstore := { b0 := freeByte s.freeIx, b1 := freeByte (s.freeIx + 1), b2 := freeByte (s.freeIx + 2) },
             freeIx := s.freeIx + 3 } := if_pos hlate

/-- Settles O24: at each of the four places the block goes on with free values; the counter is that of any other step
(`step_counter`). -/
theorem missedDeadlineSendsAnyByte : Obligations.MissedDeadlineSendsAnyByte := by
  refine ⟨fun s hc hr hf hcnt hbiti hnext hmissed => ?_, fun s hc hr hf hleft hn hunready => ?_,
    fun s hc hr hf hcnt hbiti hlast hlate => ⟨fun a hq hack => ?_, fun hack => ?_⟩, fun s hc hr hf hlate => ?_⟩ <;>
  have hstep : step s = .next s.busyNext := step_eq_busyNext hr (by simp [hc]) hf
  · obtain ⟨⟨hx, hlate, x, hle, hix, hcurb⟩, hbit⟩ := busyNext_missed_byte hc hcnt hbiti hnext hmissed
    obtain ⟨-, hreload⟩ := counterRunsFromTotalToOne.2.1 s _ hc hstep hx
    exact ⟨_, x, hstep, hx, hlate, hle, hix, hcurb, (hreload hcnt.le).1, hbit⟩
  · rw [← seedFirst_prep, ← s.seedFirst_keeps.cfg] at hunready
    obtain ⟨hx, hlate, x, hle, hix, hcurb⟩ := busyNext_missed_first_byte hc hleft hn (prepCycle_not_ready hunready)
    exact ⟨_, x, hstep, hx, hlate, hle, hix, hcurb, counterRunsFromTotalToOne.1 s _ (by simp [hc]) hstep hx⟩
  · obtain ⟨⟨hx, hlate', x, hle, hix, hcurb⟩, hheld, hbit⟩ := busyNext_held_at_end hc hcnt hbiti hlast hlate hq hack
    obtain ⟨-, hreload⟩ := counterRunsFromTotalToOne.2.1 s _ hc hstep hx
    exact ⟨_, x, hstep, hx, hlate', hheld, hle, hix, hcurb, (hreload hcnt.le).1, hbit⟩
  · exact ⟨_, hstep, busyNext_released_at_end hc hcnt hbiti hlast hlate hack⟩
  · refine ⟨_, hstep, ?_⟩
    simp [State.busyNext, State.sequencerCycle, hc, State.adjustCycle, writeBack_of_late hlate]

end Sys2Proof.Machine
end

