-- ==== Sys2Proof/Proofs/ControllerPhases.lean ====
section
/-! PROOFS. The controller one cycle at a time: the edges of `CST` with their conditions, and what each phase but XMIT does in its cycle
(spec/43_controller_commands.md R170 to R176, R180). -/

namespace Sys2Proof.Machine

/-! ## The cycle of each phase -/

theorem sequencerCycle_of_waitIdle {s : State} (p : PortIn) (hc : s.cst = .waitIdle) : s.sequencerCycle p = s.waitIdleCycle p := by
  rw [State.sequencerCycle, hc]

theorem sequencerCycle_of_setup {s : State} (p : PortIn) (hc : s.cst = .setup) : s.sequencerCycle p = s.setupCycle p := by
  rw [State.sequencerCycle, hc]

theorem sequencerCycle_of_xmit {s : State} (p : PortIn) (hc : s.cst = .xmit) : s.sequencerCycle p = s.xmitCycle p := by
  rw [State.sequencerCycle, hc]

theorem sequencerCycle_of_adjust {s : State} (p : PortIn) (hc : s.cst = .adjust) : s.sequencerCycle p = s.adjustCycle := by
  rw [State.sequencerCycle, hc]

theorem sequencerCycle_of_restore {s : State} (p : PortIn) (hc : s.cst = .restore) : s.sequencerCycle p = s.restoreCycle := by
  rw [State.sequencerCycle, hc]

theorem busyNext_pinOe (s : State) : s.busyNext.pinOe = s.pinOe := by
  rw [State.busyNext, finishCycle_pinOe, (s.sequencerCycle_keeps s.port).pinOe]

theorem busyNext_mem_of_no_store {s : State} (h : s.port.hostStore = none) : s.busyNext.mem = s.mem := by
  rw [State.busyNext, h, finishCycle_none, (s.sequencerCycle_keeps s.port).mem]

/-- A block that has just become idle has marked the cycle before (R176). -/
def State.MarkedIfIdle (s : State) : Prop := s.cst = .idle → s.lastmark + 1 = s.now

theorem busyNext_markedIfIdle {s : State} (hi : s.cst ≠ .idle) : s.busyNext.MarkedIfIdle := by
  intro hidle
  have hc : s.cst = .restore := by
    rw [State.busyNext, finishCycle_cst] at hidle
    exact (Cst.idle_mem_successors.1 (hidle ▸ sequencerCycle_cst s s.port)).resolve_left hi
  rw [State.busyNext, finishCycle_lastmark, finishCycle_now, sequencerCycle_lastmark, if_pos hc, (s.sequencerCycle_keeps s.port).now]

/-! ## INIT -/

/-- What an accepted INIT makes of the state (R83, R180). -/
theorem exec_init (s : State) : exec .init s = .next (acceptedState .init s) := exec_next.2 ⟨rfl, rfl⟩

/-- The word 0 is INIT's. -/
theorem decode_zero : decode 0 = .ok .init := specWordsDecode.1

/-- Settles O14: an accepted INIT is `acceptedState .init`, which the end of the cycle leaves as it is; a busy block writes no `PIN_OE`
(`persistentStateHasOneWriter`). -/
theorem initDrivesThePinLow : Obligations.InitDrivesThePinLow := by
  refine ⟨exec_init, fun s t u ht hu => ?_, by decide, fun s hidle hr hv hw => ?_, fun s t hbusy hr hstep => ?_⟩
  · rw [exec_init] at ht hu
    cases ht
    cases hu
    rfl
  · have hoffer : s.Offers .init := ⟨hv, by rw [hw, decode_zero]⟩
    obtain ⟨m, r, e⟩ := finishCycle_frame (acceptedState .init s) s.port.hostStore
    have hmem := finishCycle_mem (acceptedState .init s) s.port.hostStore
    have hstep : step s = .next (finishCycle (acceptedState .init s) s.port.hostStore) := by
      rw [step_of_offer hr hidle hoffer, exec_init]
      rfl
    refine ⟨_, hstep, ?_⟩
    rw [e] at hmem ⊢
    refine ⟨rfl, rfl, hidle, Bool.eq_false_iff.2 fun hbusy => (State.busy_iff _).1 hbusy hidle, rfl, rfl, rfl, fun hst => ?_, rfl, rfl,
      rfl, rfl⟩
    rw [hst] at hmem
    exact hmem
  · obtain ⟨-, -, hwriter, -⟩ := persistentStateHasOneWriter s t hr hstep
    by_contra hne
    exact hbusy (hwriter hne).2.1

/-! ## The edges of `CST` -/

/-- WAITIDLE ends when the interval has elapsed (R172). -/
theorem waitIdleCycle_cst_eq {s : State} (p : PortIn) (hc : s.cst = .waitIdle) :
    (s.waitIdleCycle p).cst = if s.lastmark + s.cfg.wait ≤ s.now then .setup else .waitIdle := by
  split_ifs with he
  · obtain ⟨_, e⟩ := s.enterSetup_frame p.go
    rw [waitIdleCycle_of_elapsed p he, e]
  · rw [waitIdleCycle_of_not_elapsed p he, hc]

/-- SETUP's part of a cycle before its end leaves the phase and its length alone. -/
theorem seedFirst_prepCycle_phase (s : State) (p : PortIn) :
    (s.seedFirst.prepCycle p).cst = s.cst ∧ (s.seedFirst.prepCycle p).setupLeft = s.setupLeft ∧
      (s.seedFirst.prepCycle p).nleds = s.nleds := by
  have hplace := prepCycle_samePlace s.seedFirst p
  obtain ⟨_, _, _, _, _, _, e⟩ := seedFirst_frame s
  rw [hplace.cst, hplace.setupLeft, hplace.nleds, e]
  exact ⟨rfl, rfl, rfl⟩

/-- SETUP ends with its last cycle, in XMIT if there is a pixel and in ADJUST if there is none (R173, R187). -/
theorem setupCycle_cst_eq {s : State} (p : PortIn) (hc : s.cst = .setup) :
    (s.setupCycle p).cst = if s.setupLeft ≤ 1 then (if s.nleds = 0 then .adjust else .xmit) else .setup := by
  obtain ⟨hcst, hleft, hn⟩ := seedFirst_prepCycle_phase s p
  rw [State.setupCycle, State.endSetupCycle, hleft]
  by_cases hlast : s.setupLeft ≤ 1
  · rw [if_pos hlast, if_pos hlast, leaveSetup_cst, hn]
  · rw [if_neg hlast, if_neg hlast]
    exact (issue_samePlace _ p.go).cst.trans (hcst.trans hc)

/-- XMIT is left only at the end of the last byte (R156, R174). -/
theorem last_of_xmitCycle_adjust {s : State} (p : PortIn) (hc : s.cst = .xmit) (ht : (s.xmitCycle p).cst = .adjust) :
    s.lastOfByte = true ∧ s.hasNext = false := by
  have hstays : (s.xmitCycle p).cst ≠ .xmit := by simp [ht]
  have hcnt : s.cnt.toNat ≤ 1 := by
    by_contra hin
    rw [xmitCycle_inside_bit p hc (by omega)] at hstays
    exact hstays ((issue_microOps_samePlace _ p.go).cst.trans ((prepCycle_cst s p).trans hc))
  have hplace := prepCycle_samePlace s p
  have hlast : ¬ (s.biti ≠ 0 ∨ s.hasNext = true) := fun hmore => hstays <| by
    rw [State.xmitCycle, beginXmitCycle_cst]
    exact xmitNext_cst_of_more _ (hplace.cst.trans hc) (by rwa [hplace.cnt])
      (by rwa [hplace.biti, hplace.toSameByte.hasNext])
  obtain ⟨hbiti, hnext⟩ := not_or.1 hlast
  exact ⟨lastOfByte_iff.2 ⟨hcnt, not_not.1 hbiti⟩, by simpa using hnext⟩

/-- An accepted command leaves IDLE exactly if it is a frame command (R171). -/
theorem acceptedState_cst (i : Instr) (s : State) : (acceptedState i s).cst = if i.opcode.isFrame then .waitIdle else s.cst := by
  cases i <;> rfl

/-- Settles O19: a step without reset is an acceptance (`acceptedState_cst`), an idle cycle, or a cycle of the phase `CST` names, whose
end has the conditions above. -/
theorem controllerTakesOnlyItsEdges : Obligations.ControllerTakesOnlyItsEdges := by
  intro s t hr hstep
  obtain ⟨hr', -⟩ | ⟨-, hidle, -, i, hoffer, -, rfl⟩ | ⟨-, hidle, -, rfl⟩ | ⟨-, hbusy, -, rfl⟩ := step_cases hstep
  · simp [hr] at hr'
  · rw [finishCycle_cst, acceptedState_cst]
    cases hi : i.opcode.isFrame with
    | true => exact .inr (.inl ⟨hidle, rfl, i, hoffer, hi⟩)
    | false => exact .inl ⟨hidle, hidle⟩
  · rw [finishCycle_cst]
    exact .inl ⟨hidle, hidle⟩
  rw [finishCycle_cst]
  cases hc : s.cst with
  | idle => exact absurd hc hbusy
  | waitIdle =>
    rw [sequencerCycle_of_waitIdle _ hc, waitIdleCycle_cst_eq s.port hc]
    split_ifs with he
    · simp [he]
    · simpa using he
  | setup =>
    rw [sequencerCycle_of_setup _ hc, setupCycle_cst_eq s.port hc]
    split_ifs with hlast hn
    · simp [hlast, hn]
    · simpa [hlast] using hn
    · simpa using hlast
  | xmit =>
    rw [sequencerCycle_of_xmit _ hc]
    obtain ht | ht := xmitCycle_cst s.port hc
    · simp [ht]
    · simp [ht, last_of_xmitCycle_adjust s.port hc ht]
  | adjust => simp [sequencerCycle_of_adjust _ hc, State.adjustCycle]
  | restore => simp [sequencerCycle_of_restore _ hc]

/-! ## WAITIDLE -/

/-- WAITIDLE moves no pin, reads nothing, and does not touch `D`. -/
theorem waitIdleCycle_leaves (s : State) (p : PortIn) : (s.waitIdleCycle p).pinOut = s.pinOut ∧
    traceReads (s.waitIdleCycle p).trace = traceReads s.trace ∧ (s.waitIdleCycle p).dreg = s.dreg := by
  by_cases he : s.lastmark + s.cfg.wait ≤ s.now
  · obtain ⟨_, e⟩ := s.enterSetup_frame p.go
    rw [waitIdleCycle_of_elapsed p he, e]
    exact ⟨rfl, (traceReads_append _ _).trans (List.append_nil _), rfl⟩
  · rw [waitIdleCycle_of_not_elapsed p he]
    exact ⟨rfl, rfl, rfl⟩

/-- Settles O20: the one test of WAITIDLE reads `NOW`, `LASTMARK` and `WAIT` alone, and entering SETUP reads no memory. -/
theorem waitIdleEndsWithTheInterval : Obligations.WaitIdleEndsWithTheInterval := by
  intro s hc hr hf
  have hseq : s.busyNext = finishCycle (s.waitIdleCycle s.port) s.port.hostStore := by rw [State.busyNext, sequencerCycle_of_waitIdle _ hc]
  have hcst : s.busyNext.cst = if s.lastmark + s.cfg.wait ≤ s.now then .setup else .waitIdle := by
    rw [hseq, finishCycle_cst, waitIdleCycle_cst_eq s.port hc]
  obtain ⟨hdstore, hmark⟩ := waitIdleCycle_keepsRecord s s.port
  obtain ⟨hpin, hreads, hdreg⟩ := waitIdleCycle_leaves s s.port
  refine ⟨by simp [State.irqInhibit, hc], s.busyNext, step_eq_busyNext hr (by simp [hc]) hf, fun he => by rw [hcst, if_pos he],
    fun he => ?_, busyNext_mem_of_no_store, ?_, ?_, ?_, ?_, ?_, fun h0 hsetup => ?_⟩
  · obtain ⟨_, _, e⟩ := finishCycle_frame s s.port.hostStore
    rw [hseq, waitIdleCycle_of_not_elapsed _ he, e]
  · rw [hseq, finishCycle_pinOut, hpin]
  · rw [hseq, finishCycle_trace, hreads]
  · rw [hseq, finishCycle_dstore, hdstore]
  · rw [hseq, finishCycle_lastmark, hmark]
  · rw [hseq, finishCycle_dreg, hdreg]
  · rw [hcst] at hsetup
    split_ifs at hsetup
    omega

/-! ## SETUP -/

/-- What the end of a cycle of SETUP leaves alone: the frame's registers and indices, and the record. -/
structure KeepsSeed (s t : State) : Prop extends KeepsRecord s t where
  sreg : t.sreg = s.sreg
  ereg : t.ereg = s.ereg
  dreg : t.dreg = s.dreg
  pix : t.pix = s.pix
  slot : t.slot = s.slot
  biti : t.biti = s.biti

theorem KeepsSeed.trans {s t u : State} (h : KeepsSeed s t) (k : KeepsSeed t u) : KeepsSeed s u where
  toKeepsRecord := h.toKeepsRecord.trans k.toKeepsRecord
  sreg := k.sreg.trans h.sreg
  ereg := k.ereg.trans h.ereg
  dreg := k.dreg.trans h.dreg
  pix := k.pix.trans h.pix
  slot := k.slot.trans h.slot
  biti := k.biti.trans h.biti

theorem leaveSetup_keepsSeed (s : State) (go : Bool) : KeepsSeed s (s.leaveSetup go) := by
  unfold State.leaveSetup
  split_ifs
  · exact ⟨⟨rfl, rfl⟩, rfl, rfl, rfl, rfl, rfl, rfl⟩
  · obtain ⟨_, _, _, e1⟩ := s.firstByte_frame
    obtain ⟨_, e2⟩ := s.firstByte.enterXmit_frame
    obtain ⟨_, _, _, e3⟩ := s.firstByte.enterXmit.beginXmitCycle_frame go
    rw [e3, e2, e1]
    exact ⟨⟨rfl, rfl⟩, rfl, rfl, rfl, rfl, rfl, rfl⟩

theorem endSetupCycle_keepsSeed (s : State) (go : Bool) : KeepsSeed s (s.endSetupCycle go) := by
  unfold State.endSetupCycle
  split_ifs
  · exact leaveSetup_keepsSeed s go
  · obtain ⟨_, e⟩ := s.spendSetup.issue_frame go
    exact e ▸ ⟨⟨rfl, rfl⟩, rfl, rfl, rfl, rfl, rfl, rfl⟩

/-- Byte 0, once it is ready, stays in `CURB` (R246). -/
theorem endSetupCycle_curb_of_ready {s : State} (go : Bool) (hready : s.prep = .ready) : (s.endSetupCycle go).curb = s.curb := by
  unfold State.endSetupCycle State.leaveSetup
  split_ifs
  · rfl
  · obtain ⟨_, e2⟩ := s.enterXmit_frame
    obtain ⟨_, _, _, e3⟩ := s.enterXmit.beginXmitCycle_frame go
    rw [State.firstByte, if_pos hready, e3, e2]
  · exact (issue_sameBytes s.spendSetup go).curb

/-- The look-ahead advances `D`, and else leaves the frame's registers and indices alone. -/
theorem prepCycle_seed (s : State) (p : PortIn) : KeepsSeed { s with dreg := (s.prepCycle p).dreg } (s.prepCycle p) := by
  obtain ⟨_, _, _, _, _, _, e⟩ := s.prepCycle_frame p
  rw [e]
  exact ⟨⟨rfl, rfl⟩, rfl, rfl, rfl, rfl, rfl, rfl⟩

/-- In SETUP the byte finished is byte 0: it goes to `CURB` (R150, R173). -/
theorem finishByte_setup {s : State} (raw : Byte) (hc : s.cst = .setup) : (s.finishByte raw).prep = .ready ∧
    ((s.finishByte raw).curb, (s.finishByte raw).dreg) = correct s.sreg s.ereg s.dreg (channelAt s.cfg.order 0) raw := by
  rw [← prepChan_setup hc]
  simp [State.finishByte, hc]

theorem prepCycle_setup_finishes_ack {s : State} {p : PortIn} {a : Addr} (hc : s.cst = .setup) (hq : s.prep = .reading a)
    (hack : p.memAck = true) (hlat : s.cfg.prepLat = 0) : (s.prepCycle p).prep = .ready ∧
    ((s.prepCycle p).curb, (s.prepCycle p).dreg) =
      correct s.sreg s.ereg s.dreg (channelAt s.cfg.order 0) (s.fetched a p.hostStore) := by
  obtain ⟨x, e⟩ := usePick_emit_frame s a p.hostStore
  rw [prepCycle_of_ack hq hack, e, takeRaw_of_zero (s := { s with freeIx := x, trace := s.trace ++ [.read a] }) _ hlat]
  exact finishByte_setup (s := { s with freeIx := x, trace := s.trace ++ [.read a] }) _ hc

/-- A cycle that finishes no byte leaves `D` alone. -/
theorem prepCycle_dreg_of_unfinished {s : State} {p : PortIn}
    (hread : ∀ a, s.prep = .reading a → p.memAck = false ∨ s.cfg.prepLat ≠ 0) (hdata : ∀ raw, s.prep ≠ .computing raw 0) :
    (s.prepCycle p).dreg = s.dreg := by
  cases hq : s.prep with
  | none => rw [prepCycle_of_rest p (.inl hq)]
  | pending => rw [prepCycle_of_rest p (.inr (.inl hq))]
  | ready => rw [prepCycle_of_rest p (.inr (.inr hq))]
  | reading a =>
    cases hack : p.memAck with
    | false => rw [prepCycle_of_no_ack hq hack]
    | true =>
      have hlat := (hread a hq).resolve_left (by simp [hack])
      exact (prepCycle_ack_enters hq hack (Nat.pos_of_ne_zero hlat)).2.2
  | computing raw left =>
    have hleft : left ≠ 0 := fun h0 => hdata raw (by rw [hq, h0])
    rw [prepCycle_of_computing p hq (Nat.pos_of_ne_zero hleft)]

/-- Settles O21: the seed, then the look-ahead's part of the cycle on the seeded registers, and an end of the cycle that keeps them
(`endSetupCycle_keepsSeed`). -/
theorem setupSeedsTheFrame : Obligations.SetupSeedsTheFrame := by
  intro s hc hfirst hr hf sc seed first
  have hseq : s.busyNext = finishCycle ((s.seed.prepCycle s.port).endSetupCycle s.port.go) s.port.hostStore := by
    rw [State.busyNext, sequencerCycle_of_setup _ hc, State.setupCycle, State.seedFirst, if_pos hfirst]
  have hkeeps := (prepCycle_seed s.seed s.port).trans (endSetupCycle_keepsSeed _ s.port.go)
  have hdreg : s.busyNext.dreg = (s.seed.prepCycle s.port).dreg := by rw [hseq, finishCycle_dreg, hkeeps.dreg]
  have hcurb : (s.seed.prepCycle s.port).prep = .ready → s.busyNext.curb = (s.seed.prepCycle s.port).curb := fun hready => by
    rw [hseq, finishCycle_curb, endSetupCycle_curb_of_ready _ hready]
  refine ⟨s.busyNext, step_eq_busyNext hr (by simp [hc]) hf, ?_, ?_, ?_, ?_, ?_, ?_, ?_, fun a hq hack hlat => ?_, fun raw hq => ?_,
    fun hread hdata => ?_⟩
  · rw [hseq]
    obtain ⟨_, _, e⟩ := finishCycle_frame ((s.seed.prepCycle s.port).endSetupCycle s.port.go) s.port.hostStore
    rw [e]
    exact hkeeps.sreg
  · rw [hseq, finishCycle_ereg, hkeeps.ereg]; rfl
  · rw [hseq, (finishCycle_sameByte _ _).pix, hkeeps.pix]; rfl
  · rw [hseq, (finishCycle_sameByte _ _).slot, hkeeps.slot]; rfl
  · rw [hseq, finishCycle_biti, hkeeps.biti]; rfl
  · rw [hseq, finishCycle_dstore, hkeeps.dstore]; rfl
  · rw [hseq, finishCycle_lastmark, hkeeps.lastmark]; rfl
  · obtain ⟨hready, hbyte⟩ := prepCycle_setup_finishes_ack (s := s.seed) hc hq hack hlat
    exact ⟨_, s.seed.fetched_mem_or_racing a s.port.hostStore, by rw [hcurb hready, hdreg, hbyte]; rfl⟩
  · obtain ⟨hready, hbyte⟩ := finishByte_setup (s := s.seed) raw hc
    rw [← prepCycle_of_last (s := s.seed) s.port hq] at hready hbyte
    rw [hcurb hready, hdreg, hbyte]
    rfl
  · rw [hdreg, prepCycle_dreg_of_unfinished (s := s.seed) hread hdata]
    rfl

/-! ## ADJUST and RESTORE -/

/-- Outside XMIT and the cycle that enters it the pin does not move (R154). -/
theorem busyNext_pinOut_of_closing {s : State} (hc : s.cst = .adjust ∨ s.cst = .restore) : s.busyNext.pinOut = s.pinOut := by
  rw [State.busyNext, finishCycle_pinOut]
  obtain hc | hc := hc
  · obtain ⟨_, _, e⟩ := s.writeBack_frame
    rw [sequencerCycle_of_adjust _ hc, State.adjustCycle, e]
    rfl
  · rw [sequencerCycle_of_restore _ hc]
    rfl

/-- Settles O25: the cycle of ADJUST is `busyNext_of_adjust`. -/
theorem adjustWritesTheDitherStateBack : Obligations.AdjustWritesTheDitherStateBack := by
  intro s hc hr hf hlate
  obtain ⟨hcst, hdstore, -, htrace⟩ := busyNext_of_adjust hc hlate
  have hmark : s.busyNext.lastmark = s.lastmark := by
    rw [State.busyNext, finishCycle_lastmark, sequencerCycle_lastmark, if_neg (by simp [hc])]
  exact ⟨s.tickValid_iff.2 hc, s.irqInhibit_iff.2 (.inr (.inr hc)), s.busyNext, step_eq_busyNext hr (by simp [hc]) hf, hdstore, hcst,
    by simp [State.tickValid, hcst], by simp [State.irqInhibit, hcst], hmark, busyNext_pinOut_of_closing (.inl hc), busyNext_pinOe s,
    htrace, busyNext_mem_of_no_store⟩

/-- Settles O26: the cycle of RESTORE is `busyNext_of_restore`. -/
theorem restoreMarksTheTime : Obligations.RestoreMarksTheTime := by
  intro s hc hr hf
  obtain ⟨hcst, hdstore, hmark, htrace⟩ := busyNext_of_restore hc
  exact ⟨by simp [State.irqInhibit, hc], by simp [State.tickValid, hc], s.busyNext, step_eq_busyNext hr (by simp [hc]) hf, hmark,
    hcst, s.busyNext.cmdReady_iff.2 hcst, hdstore, busyNext_pinOut_of_closing (.inr hc), busyNext_pinOe s, htrace,
    busyNext_mem_of_no_store⟩

end Sys2Proof.Machine
end

