-- ==== Sys2Proof/Proofs/CommandFrames.lean ====
section
/-! PROOFS. The frames of the commands against one another: CLEAR's zeros, the short forms as a SHOW, and a SHOW at full scale
(spec/43_controller_commands.md R181 to R183, R186; spec/41_dither_scale.md R130, R132). -/

namespace Sys2Proof.Machine

/-! ## CLEAR -/

theorem frameScale_clear (sc : Triple) : frameScale .clear sc = .zero := rfl

theorem zero_get (c : Fin 3) : Triple.zero.get c = 0 := by fin_cases c <;> rfl

/-- At scale 0 every byte sent is 0 (R132). -/
theorem correct_fst_of_zero_scale (e d : Triple) (c : Fin 3) (raw : Byte) : (correct .zero e d c raw).1 = 0 := by
  rw [correct_fst, zero_get, scaleByte_zero_right]

theorem frameBytes_of_zero_scale (o : ColorOrder) (e : Triple) (raw : Nat → Fin 3 → Byte) (k i : Nat) (d : Triple) :
    (frameBytes o .zero e raw k i d).1 = List.replicate (3 * k) 0 := by
  induction k generalizing i d with
  | zero => rfl
  | succ k ih =>
    rw [frameBytes, ih, Nat.mul_succ, Nat.add_comm (3 * k), List.replicate_add]
    simp only [pixelBytes, correct_fst_of_zero_scale]
    rfl

theorem flatMap_byteBits_replicate_zero (k : Nat) : (List.replicate k (0 : Byte)).flatMap byteBits = List.replicate (8 * k) false := by
  induction k with
  | zero => rfl
  | succ k ih =>
    rw [List.replicate_succ, List.flatMap_cons, ih, Nat.mul_succ, Nat.add_comm (8 * k), List.replicate_add]
    rfl

theorem commandFrame_clear_bits (cfg : Config) (m : Memory) (ds : Triple) (n : BitVec 16) :
    (commandFrame cfg m ds (.clear n)).1 = List.replicate (24 * n.toNat) false := by
  rw [commandFrame, frameBits, frameScale_clear, frameBytes_of_zero_scale, flatMap_byteBits_replicate_zero, ← Nat.mul_assoc]

/-- Settles O40: at scale 0 every byte of the frame is 0, whatever the Dither State. -/
theorem clearSendsZeroBits : Obligations.ClearSendsZeroBits := fun cfg m ds n =>
  ⟨commandFrame_clear_bits cfg m ds n, by rw [commandFrame_clear_bits, commandFrame_clear_bits]⟩

/-! ## The short forms -/

/-- The bytes of a frame depend on its raw bytes alone. -/
theorem frameBytes_congr {o : ColorOrder} {s e : Triple} {raw raw' : Nat → Fin 3 → Byte} {k i : Nat} (d : Triple)
    (h : ∀ j, i ≤ j → j < i + k → raw j = raw' j) : frameBytes o s e raw k i d = frameBytes o s e raw' k i d := by
  induction k generalizing i d with
  | zero => rfl
  | succ k ih =>
    have hrest : ∀ d, frameBytes o s e raw k (i + 1) d = frameBytes o s e raw' k (i + 1) d := fun d =>
      ih d fun j hj hlt => h j (by omega) (by omega)
    simp only [frameBytes, h i le_rfl (by omega), hrest]

theorem frameBits_congr {cfg : Config} {m : Memory} {op op' : Opcode} {n : Nat} {sc sc' : Triple} {base base' : Addr}
    {color color' : Triple} (ds : Triple) (hscale : frameScale op sc = frameScale op' sc')
    (hraw : ∀ i < n, rawByte cfg m op base color i = rawByte cfg m op' base' color' i) :
    frameBits cfg m op n sc base color ds = frameBits cfg m op' n sc' base' color' ds := by
  have hbytes : ∀ s e d, frameBytes cfg.order s e (rawByte cfg m op base color) n 0 d =
      frameBytes cfg.order s e (rawByte cfg m op' base' color') n 0 d := fun _ _ d =>
    frameBytes_congr d fun i _ hi => hraw i (by omega)
  simp only [frameBits, hscale, hbytes]

/-- Settles O41: the frames have the same scale and, over such a buffer, the same raw bytes. -/
theorem shortFormsEqualShow : Obligations.ShortFormsEqualShow :=
  ⟨fun _ _ ds _ _ _ _ hbuffer => frameBits_congr ds rfl fun i hi => funext fun c => (hbuffer i hi c).symm,
    fun _ _ ds _ _ hbuffer => frameBits_congr ds rfl fun i hi => funext fun c => (hbuffer i hi c).symm⟩

/-! ## Full scale -/

/-- Scale 255 in every channel. -/
def fullScale : Triple := ⟨255, 255, 255⟩

theorem maskAll_full : maskAll fullScale = .zero := by decide

theorem seedAll_zero (ds : Triple) : seedAll ds .zero = .zero := by simp [seedAll, seedByte, Triple.zero]

/-- At full scale the raw byte is sent as it is, and `D` stays 0 (R130). -/
theorem correct_full (c : Fin 3) (raw : Byte) : correct fullScale .zero .zero c raw = (raw, .zero) := by
  refine Prod.ext ?_ ?_
  · have hfull : fullScale.get c = 255 := by fin_cases c <;> rfl
    rw [correct_fst, zero_get, advance_zero_mask, ditherAdd_zero_right, hfull, scaleByte_full]
  · fin_cases c <;> rfl

/-- The bytes of a full-scale SHOW are those at the addresses of its reads, within R66's bound. -/
theorem frameBytes_full {cfg : Config} {base : Addr} {k i : Nat} (m : Memory) (color : Triple)
    (h : base.toNat + cfg.skip + 3 * (i + k) ≤ 2 ^ 32) :
    frameBytes cfg.order fullScale .zero (rawByte cfg m .showFrame base color) k i .zero =
      ((showReads cfg base k i).map (fun a => m.read a.toNat), .zero) := by
  induction k generalizing i with
  | zero => rfl
  | succ k ih =>
    have haddr : ∀ c : Fin 3, (BitVec.ofNat 32 (pixAddr cfg base i c)).toNat = pixAddr cfg base i c := fun c => by
      have := c.isLt
      rw [BitVec.toNat_ofNat, Nat.mod_eq_of_lt]
      unfold pixAddr
      omega
    simp only [frameBytes, pixelBytes, correct_full, ih (i := i + 1) (by omega), showReads, List.map_append, List.map_cons, haddr,
      List.map_nil]
    rfl

/-- Settles O42: at full scale the masks are empty, so that `D` is 0 throughout and each byte is sent as it was read. -/
theorem fullScaleSendsTheBuffer : Obligations.FullScaleSendsTheBuffer := by
  intro cfg m ds base n h
  have hbytes := frameBytes_full (k := n.toNat) (i := 0) m .zero (by omega : base.toNat + cfg.skip + 3 * (0 + n.toNat) ≤ 2 ^ 32)
  show frameBits cfg m .showFrame n.toNat fullScale base .zero ds = _
  rw [frameBits, show frameScale .showFrame fullScale = fullScale from rfl, maskAll_full, seedAll_zero, hbytes, List.flatMap_map]
  rfl

end Sys2Proof.Machine
end

