-- ==== Sys2Proof/Proofs/Schedule.lean ====
section
/-! PROOFS. The reference schedule, its bounds, and that a frame on time follows it in every cycle (spec/43_controller_commands.md R177,
R178, R184, R185). -/

namespace Sys2Proof.Machine

/-! ## The schedule and its bounds -/

theorem lt_waitEnd (cfg : Config) (a l : Nat) : a < waitEnd cfg a l := by unfold waitEnd; omega

theorem waitEnd_add_lt_adjustAt (cfg : Config) (a l n : Nat) : waitEnd cfg a l + cfg.setupLat < adjustAt cfg a l n := by
  unfold adjustAt firstBit
  omega

/-- The frame's cycles, counted from its accepting cycle, end in the cycle after RESTORE (R178). -/
theorem add_busyCycles (cfg : Config) (a l n : Nat) : a + busyCycles cfg a l n = adjustAt cfg a l n + 2 := by
  have hwait := lt_waitEnd cfg a l
  have hadjust := waitEnd_add_lt_adjustAt cfg a l n
  unfold busyCycles
  omega

/-- Settles O50: the wait ends by `a + max(1, WAIT)` if no mark lies in the future, and the other phases have their fixed lengths. -/
theorem scheduleIsBounded : Obligations.ScheduleIsBounded := by
  refine ⟨fun cfg a l n hmark => ⟨?_, ?_⟩, fun cfg a l n a' ha' => ?_⟩
  · rw [add_busyCycles, adjustAt, firstBit, waitEnd, frameCycles, Nat.mul_comm n]
    omega
  · exact (lt_waitEnd cfg a l).trans_le ((Nat.le_add_right _ _).trans (waitEnd_add_lt_adjustAt cfg a l n).le)
  · rw [firstBit, waitEnd]
    omega

/-- Settles O55: two truncating divisions are one by the product, whose remainder is less than it. -/
theorem tickTruncatesTwice : Obligations.TickTruncatesTwice := by
  refine ⟨fun cfg n => ?_, fun cfg htotal hclks => ?_, fun cfg => by simp [tickMs, frameCycles]⟩
  · have hpos : 0 < 1000 * cfg.clksPerUs := Nat.mul_pos (by decide) cfg.clksPerUs_pos
    rw [tickMs, Nat.div_div_eq_div_mul, Nat.mul_comm cfg.clksPerUs]
    exact ⟨Nat.div_mul_le_self _ _, Nat.lt_mul_of_div_lt (Nat.lt_succ_self _) hpos⟩
  · simp [tickMs, frameCycles, htotal, hclks]

section Table

variable {cfg : Config} {a l n c : Nat}

theorem scheduledCst_ne_idle_iff : scheduledCst cfg a l n c ≠ .idle ↔ a < c ∧ c ≤ adjustAt cfg a l n + 1 := by
  have hwait := lt_waitEnd cfg a l
  have hadjust := waitEnd_add_lt_adjustAt cfg a l n
  unfold scheduledCst
  split_ifs <;> simp <;> omega

theorem scheduledCst_eq_adjust_iff : scheduledCst cfg a l n c = .adjust ↔ c = adjustAt cfg a l n := by
  have hwait := lt_waitEnd cfg a l
  have hadjust := waitEnd_add_lt_adjustAt cfg a l n
  unfold scheduledCst
  split_ifs <;> simp <;> omega

theorem scheduledCst_inhibits_iff :
    (scheduledCst cfg a l n c = .setup ∨ scheduledCst cfg a l n c = .xmit ∨ scheduledCst cfg a l n c = .adjust) ↔
      waitEnd cfg a l < c ∧ c ≤ adjustAt cfg a l n := by
  have hwait := lt_waitEnd cfg a l
  have hadjust := waitEnd_add_lt_adjustAt cfg a l n
  unfold scheduledCst
  split_ifs <;> simp <;> omega

end Table

/-! ## From the cycles left to the table -/

/-- Where the frame stands in its phase, as far as the cycles left tell the phase: in SETUP within SETUP_LAT cycles, in XMIT within those of
the frame's bits. -/
def State.Placed (u : State) : Prop :=
  (u.cst = .setup → 1 ≤ u.setupLeft ∧ u.setupLeft ≤ u.cfg.setupLat) ∧
  (u.cst = .xmit → 2 < u.cyclesLeft ∧ u.cyclesLeft ≤ frameCycles u.cfg u.nleds.toNat + 2)

/-- The cycles left and `NOW` say the phase of the table. -/
theorem cst_eq_scheduledCst {u : State} {a l : Nat} (h : u.Placed) (hnow : a < u.now)
    (hend : u.now + u.cyclesLeft = adjustAt u.cfg a l u.nleds.toNat + 2) : u.cst = scheduledCst u.cfg a l u.nleds.toNat u.now := by
  obtain ⟨hsetup, hxmit⟩ := h
  have hwait := lt_waitEnd u.cfg a l
  have hsetupEnd := waitEnd_add_lt_adjustAt u.cfg a l u.nleds.toNat
  have hadjust : adjustAt u.cfg a l u.nleds.toNat = waitEnd u.cfg a l + u.cfg.setupLat + 1 + frameCycles u.cfg u.nleds.toNat := rfl
  unfold scheduledCst
  cases hc : u.cst with
  | idle =>
    rw [cyclesLeft_idle hc] at hend
    rw [if_neg (by omega), if_neg (by omega), if_neg (by omega), if_neg (by omega), if_neg (by omega), if_neg (by omega)]
  | waitIdle =>
    rw [cyclesLeft_waitIdle hc] at hend
    rw [if_neg (by omega), if_pos (by omega)]
  | setup =>
    have hleft := hsetup hc
    rw [cyclesLeft_setup hc] at hend
    rw [if_neg (by omega), if_neg (by omega), if_pos (by omega)]
  | xmit =>
    have hleft := hxmit hc
    rw [if_neg (by omega), if_neg (by omega), if_neg (by omega), if_pos (by omega)]
  | adjust =>
    rw [cyclesLeft_adjust hc] at hend
    rw [if_neg (by omega), if_neg (by omega), if_neg (by omega), if_neg (by omega), if_pos (by omega)]
  | restore =>
    rw [cyclesLeft_restore hc] at hend
    rw [if_neg (by omega), if_neg (by omega), if_neg (by omega), if_neg (by omega), if_neg (by omega), if_pos (by omega)]

/-- In XMIT at least one cycle of the byte on the wire is left, and at most all the cycles of all bytes (R149). -/
theorem State.Inv.cyclesLeft_xmit_bounds {u : State} (h : u.Inv) (hc : u.cst = .xmit) :
    2 < u.cyclesLeft ∧ u.cyclesLeft ≤ frameCycles u.cfg u.nleds.toNat + 2 := by
  obtain ⟨hpos, hle, -⟩ := h.counter hc
  have hpix := h.position.1 hc
  have hbyte : u.byteLeft ≤ 8 * total u.cfg := by
    have hbits := Nat.mul_le_mul_right (total u.cfg) (Nat.le_of_lt_succ u.biti.isLt)
    unfold State.byteLeft
    omega
  have hrest := Nat.mul_le_mul_right (8 * total u.cfg) (Nat.sub_le (3 * u.nleds.toNat - 1) u.byteIx)
  have hall : frameCycles u.cfg u.nleds.toNat = (3 * u.nleds.toNat - 1) * (8 * total u.cfg) + 8 * total u.cfg := by
    rw [frameCycles_eq, ← Nat.succ_mul, Nat.succ_eq_add_one, Nat.sub_add_cancel (by omega)]
  rw [cyclesLeft_xmit hc]
  unfold State.byteLeft at *
  omega

theorem State.InFrame.placed {goLat memLat : Nat} {u : State} (h : u.InFrame goLat memLat) : u.Placed := by
  obtain hwaits | ⟨hontime, -⟩ := h
  · exact ⟨by simp [hwaits.cst], by simp [hwaits.cst]⟩
  · exact ⟨hontime.inv.setup, hontime.inv.cyclesLeft_xmit_bounds⟩

/-- In ADJUST the tick output has the frame's tick value (R175, R177). -/
theorem State.InFrame.tickval {goLat memLat : Nat} {u : State} (h : u.InFrame goLat memLat) (hc : u.cst = .adjust) :
    u.tickval.toNat = tickMs u.cfg u.nleds.toNat := by
  obtain hwaits | ⟨hontime, -⟩ := h
  · exact absurd (hwaits.cst.symm.trans hc) nofun
  · exact hontime.inv.tick hc

/-- What the table says of the outputs (R178, R213). -/
theorem outputs_of_scheduledCst {u : State} {cfg : Config} {a l n : Nat} (h : u.cst = scheduledCst cfg a l n u.now) :
    (u.busy = true ↔ a < u.now ∧ u.now ≤ adjustAt cfg a l n + 1) ∧
    (u.irqInhibit = true ↔ waitEnd cfg a l < u.now ∧ u.now ≤ adjustAt cfg a l n) ∧
    (u.tickValid = true ↔ u.now = adjustAt cfg a l n) := by
  rw [u.busy_iff, u.irqInhibit_iff, u.tickValid_iff, h]
  exact ⟨scheduledCst_ne_idle_iff, scheduledCst_inhibits_iff, scheduledCst_eq_adjust_iff⟩

/-- Settles O47: the accepting cycle is idle, and after it the cycles left (`runFor_startsFrame`) say the phase of the table
(`cst_eq_scheduledCst`), which says the outputs. -/
theorem frameFollowsItsSchedule : Obligations.FrameFollowsItsSchedule := by
  intro s i k h hk
  obtain ⟨-, hcfg, -, hn, -, -⟩ := acceptNext_latches h
  have hend := add_busyCycles s.cfg s.now s.lastmark i.count.toNat
  suffices hu : ∃ u, runFor k s = .next u ∧ u.now = s.now + k ∧
      u.cst = scheduledCst s.cfg s.now s.lastmark i.count.toNat u.now ∧
      (u.tickValid = true → u.tickMsOut.toNat = tickMs s.cfg i.count.toNat) by
    obtain ⟨u, hrun, hnow, hcst, htick⟩ := hu
    obtain ⟨hbusy, hirq, hvalid⟩ := outputs_of_scheduledCst hcst
    exact ⟨u, hrun, hnow, hnow ▸ hcst, hbusy, hirq, hvalid, htick⟩
  cases k with
  | zero => exact ⟨s, rfl, rfl, h.idle.trans (if_pos le_rfl).symm, fun ht => absurd (s.tickValid_iff.1 ht) (by simp [h.idle])⟩
  | succ k =>
    obtain ⟨u, hrun, ⟨goLat, memLat, hu⟩, hleft, hcommand, -⟩ :=
      runFor_startsFrame (P := fun _ => True) h trivial (fun _ _ _ _ _ _ => trivial) hk
    have hnow := runFor_now (fun j hj => h.noReset j (by omega)) hrun
    rw [← hcfg, ← hn, ← hcommand.cfg, ← hcommand.nleds] at hend hleft ⊢
    exact ⟨u, hrun, hnow, cst_eq_scheduledCst hu.placed (by omega) (by omega), fun ht => hu.tickval (u.tickValid_iff.1 ht)⟩

end Sys2Proof.Machine
end

