-- ==== Sys2Proof/Proofs/EmptyFrame.lean ====
section
/-! PROOFS. A frame command with no pixel, whatever the memory and the pin: it waits, seeds, ticks 0 and marks (spec/42_bit_engine.md R155;
spec/43_controller_commands.md R187). -/

namespace Sys2Proof.Machine

theorem frameCycles_zero (cfg : Config) : frameCycles cfg 0 = 0 := by simp [frameCycles]

theorem tickMs_zero (cfg : Config) : tickMs cfg 0 = 0 := tickTruncatesTwice.2.2 cfg

/-! ## The phases of an empty frame -/

/-- Where an empty frame of the accepted command `a` stands: what is on the trace, and what is in `D` and `DSTORE`. -/
inductive EmptyPhase (a t : State) : Prop
  | waitIdle (cst : t.cst = .waitIdle) (trace : t.trace = a.trace) (dstore : t.dstore = a.dstore)
  | setup (cst : t.cst = .setup) (prep : t.prep = .none) (late : t.late = false)
      (left : 1 ≤ t.setupLeft ∧ t.setupLeft ≤ t.cfg.setupLat) (trace : t.trace = a.trace ++ [Event.irqOff])
      (dreg : t.seedFirst.dreg = a.ditherAfter 0)
  | adjust (cst : t.cst = .adjust) (late : t.late = false) (tickval : t.tickval = 0) (trace : t.trace = a.trace ++ [Event.irqOff, .tick 0])
      (dreg : t.dreg = a.ditherAfter 0)
  | restore (cst : t.cst = .restore) (trace : t.trace = a.trace ++ [Event.irqOff, .tick 0, .irqOn]) (dstore : t.dstore = a.ditherAfter 0)
  | idle (cst : t.cst = .idle) (trace : t.trace = a.trace ++ [Event.irqOff, .tick 0, .irqOn, .mark]) (dstore : t.dstore = a.ditherAfter 0)

section

variable {a s : State}

theorem EmptyPhase.finishCycle (st : Option (Addr × Byte)) (h : EmptyPhase a s) : EmptyPhase a (finishCycle s st) := by
  have hseed : (Machine.finishCycle s st).seedFirst.dreg = s.seedFirst.dreg := by
    obtain ⟨_, _, e⟩ := finishCycle_frame s st
    rw [e]
    unfold State.seedFirst
    by_cases hfirst : s.setupLeft = s.cfg.setupLat
    · rw [if_pos hfirst, if_pos hfirst]
      rfl
    · rw [if_neg hfirst, if_neg hfirst]
  obtain ⟨_, _, e⟩ := finishCycle_frame s st
  rw [e] at hseed ⊢
  cases h with
  | waitIdle cst trace dstore => exact .waitIdle cst trace dstore
  | setup cst prep late left trace dreg => exact .setup cst prep late left trace (hseed.trans dreg)
  | adjust cst late tickval trace dreg => exact .adjust cst late tickval trace dreg
  | restore cst trace dstore => exact .restore cst trace dstore
  | idle cst trace dstore => exact .idle cst trace dstore

/-- With no pixel SETUP opens no window (R187). -/
theorem enterSetup_of_no_pixel (go : Bool) (hn : s.nleds = 0) : s.enterSetup go =
    { s with setupLeft := s.cfg.setupLat, late := false, prep := .none, cst := .setup, trace := s.trace ++ [.irqOff] } := by
  unfold State.enterSetup
  rw [if_pos hn, State.issue_of_ne _ _ (by simp)]
  rfl

/-- With no pixel a cycle of SETUP seeds, and counts (R173, R187). -/
theorem setupCycle_of_no_pixel (p : PortIn) (hn : s.nleds = 0) (hprep : s.prep = .none) :
    s.setupCycle p = if s.setupLeft ≤ 1 then s.seedFirst.enterAdjust else s.seedFirst.spendSetup := by
  obtain ⟨_, _, _, _, _, _, e⟩ := seedFirst_frame s
  have hleft : s.seedFirst.setupLeft = s.setupLeft := by rw [e]
  have hseed : s.seedFirst.prep = .none := (seedFirst_prep s).trans hprep
  rw [State.setupCycle, prepCycle_of_rest p (.inl hseed), State.endSetupCycle, hleft]
  split_ifs
  · exact if_pos (s.seedFirst_keeps.nleds.trans hn)
  · have hrest : s.seedFirst.spendSetup.prep ≠ .pending := by simp [State.spendSetup, hseed]
    rw [← hleft]
    exact State.issue_of_ne _ p.go hrest

/-- A cycle of the sequencer carries an empty frame on, and moves no pin. -/
theorem sequencerCycle_emptyPhase (p : PortIn) (hoperands : SameOperands a s) (hn : s.nleds = 0) (hi : s.cst ≠ .idle)
    (h : EmptyPhase a s) : EmptyPhase a (s.sequencerCycle p) ∧ (s.sequencerCycle p).pinOut = s.pinOut := by
  have htick : BitVec.ofNat 32 (tickMs s.cfg s.nleds.toNat) = 0 := by rw [hn, show (0 : BitVec 16).toNat = 0 from rfl, tickMs_zero]; rfl
  cases h with
  | waitIdle cst trace dstore =>
    rw [sequencerCycle_of_waitIdle p cst]
    by_cases he : s.lastmark + s.cfg.wait ≤ s.now
    · rw [waitIdleCycle_of_elapsed p he, enterSetup_of_no_pixel _ hn]
      refine ⟨.setup rfl rfl rfl ⟨s.cfg.setupLat_pos, le_rfl⟩ (congrArg (· ++ [Event.irqOff]) trace) ?_, rfl⟩
      rw [State.seedFirst, if_pos rfl, State.seed_dreg, State.ditherAfter, ← hoperands.op, ← hoperands.scale, ← dstore]
    · rw [waitIdleCycle_of_not_elapsed p he]
      exact ⟨.waitIdle cst trace dstore, rfl⟩
  | setup cst prep late left trace dreg =>
    obtain ⟨_, _, _, _, _, _, e⟩ := seedFirst_frame s
    have hlater : ¬ s.setupLeft ≤ 1 → s.seedFirst.spendSetup.seedFirst = s.seedFirst.spendSetup := fun hmore => if_neg (by
      rw [e]
      show s.setupLeft - 1 ≠ s.cfg.setupLat
      omega)
    rw [sequencerCycle_of_setup p cst, setupCycle_of_no_pixel p hn prep]
    split_ifs with hlast
    · refine ⟨.adjust rfl ?_ ?_ ?_ dreg, by rw [e]; rfl⟩ <;> rw [e]
      · exact late
      · exact htick
      · rw [State.enterAdjust_trace]
        simp [trace, htick]
    · refine ⟨.setup ?_ ?_ ?_ ?_ ?_ (by rw [hlater hlast]; exact dreg), by rw [e]; rfl⟩ <;> rw [e]
      · exact cst
      · exact prep
      · exact late
      · show 1 ≤ s.setupLeft - 1 ∧ s.setupLeft - 1 ≤ s.cfg.setupLat
        omega
      · exact trace
  | adjust cst late tickval trace dreg =>
    rw [sequencerCycle_of_adjust p cst, State.adjustCycle, writeBack_of_on_time late]
    exact ⟨.restore rfl (by simp [trace]) dreg, rfl⟩
  | restore cst trace dstore =>
    rw [sequencerCycle_of_restore p cst]
    exact ⟨.idle rfl (by simp [trace]) dstore, rfl⟩
  | idle cst trace dstore => exact absurd cst hi

/-- An empty frame of the accepted command `a` is under way, or has just ended. -/
structure EmptyFrame (a t : State) : Prop where
  operands : SameOperands a t
  nleds : t.nleds = 0
  latches : t.busyFault = none
  pin : t.pinOut = a.pinOut
  marked : t.MarkedIfIdle
  phase : EmptyPhase a t

theorem SameCommand.busyFault {t : State} (h : SameCommand s t) : t.busyFault = s.busyFault := by
  unfold State.busyFault
  rw [h.op, h.cfg, h.base, h.nleds]

theorem EmptyPhase.placed (h : EmptyPhase a s) : s.Placed := by
  cases h with
  | setup cst prep late left trace dreg => exact ⟨fun _ => left, by simp [cst]⟩
  | _ cst => exact ⟨by simp [cst], by simp [cst]⟩

/-- A cycle of an empty frame. -/
theorem EmptyFrame.busyNext (h : EmptyFrame a s) (hi : s.cst ≠ .idle) : EmptyFrame a s.busyNext := by
  have hoperands := busyNext_sameOperands s
  obtain ⟨hphase, hpin⟩ := sequencerCycle_emptyPhase s.port h.operands h.nleds hi h.phase
  exact ⟨h.operands.trans hoperands, hoperands.nleds.trans h.nleds, hoperands.busyFault.trans h.latches,
    by rw [State.busyNext, finishCycle_pinOut, hpin, h.pin], busyNext_markedIfIdle hi, hphase.finishCycle _⟩

/-- A cycle of WAITIDLE is one of those left of the frame (R172). -/
theorem busyNext_cyclesLeft_of_waitIdle (hc : s.cst = .waitIdle) : s.busyNext.cyclesLeft + 1 = s.cyclesLeft := by
  rw [cyclesLeft_waitIdle hc, State.busyNext, sequencerCycle_of_waitIdle _ hc]
  by_cases he : s.lastmark + s.cfg.wait ≤ s.now
  · obtain ⟨_, e⟩ := s.enterSetup_frame s.port.go
    rw [waitIdleCycle_of_elapsed _ he, finishCycle_cyclesLeft _ (by rw [e]; nofun), cyclesLeft_setup (by rw [e]), e]
    show s.cfg.setupLat + frameCycles s.cfg s.nleds.toNat + 2 + 1 = _
    omega
  · obtain ⟨_, _, e⟩ := finishCycle_frame s s.port.hostStore
    rw [waitIdleCycle_of_not_elapsed _ he, cyclesLeft_waitIdle (by rw [finishCycle_cst, hc]), e]
    show s.lastmark + s.cfg.wait - (s.now + 1) + s.cfg.setupLat + frameCycles s.cfg s.nleds.toNat + 3 + 1 = _
    omega

/-- Every cycle of an empty frame is one of those left of it. -/
theorem EmptyFrame.cyclesLeft (h : EmptyFrame a s) (hi : s.cst ≠ .idle) : s.busyNext.cyclesLeft + 1 = s.cyclesLeft := by
  have hzero : frameCycles s.cfg s.nleds.toNat = 0 := by rw [h.nleds]; exact frameCycles_zero s.cfg
  cases h.phase with
  | waitIdle cst trace dstore => exact busyNext_cyclesLeft_of_waitIdle cst
  | setup cst prep late left trace dreg =>
    obtain ⟨_, _, _, _, _, _, e⟩ := seedFirst_frame s
    rw [State.busyNext, finishCycle_cyclesLeft _ (sequencerCycle_ne_waitIdle _ (by simp [cst])), sequencerCycle_of_setup _ cst,
      setupCycle_of_no_pixel _ h.nleds prep, cyclesLeft_setup cst, hzero]
    split_ifs with hlast
    · rw [cyclesLeft_adjust rfl]
      omega
    · rw [cyclesLeft_setup (by rw [e]; exact cst), e]
      show s.setupLeft - 1 + frameCycles s.cfg s.nleds.toNat + 2 + 1 = _
      omega
  | adjust cst late tickval trace dreg =>
    rw [State.busyNext, finishCycle_cyclesLeft _ (sequencerCycle_ne_waitIdle _ (by simp [cst])), sequencerCycle_of_adjust _ cst,
      cyclesLeft_restore rfl, cyclesLeft_adjust cst]
  | restore cst trace dstore =>
    rw [State.busyNext, finishCycle_cyclesLeft _ (sequencerCycle_ne_waitIdle _ (by simp [cst])), sequencerCycle_of_restore _ cst,
      cyclesLeft_idle rfl, cyclesLeft_restore cst]
  | idle cst trace dstore => exact absurd cst hi

/-- An empty frame runs through any number of its cycles. -/
theorem runFor_emptyFrame (k : Nat) (h : EmptyFrame a s) (hk : k ≤ s.cyclesLeft) (hr : s.Undisturbed k) :
    ∃ u, runFor k s = .next u ∧ EmptyFrame a u ∧ u.cyclesLeft + k = s.cyclesLeft := by
  induction k generalizing s with
  | zero => exact ⟨s, rfl, h, rfl⟩
  | succ k ih =>
    have hi := cst_ne_idle_of_cyclesLeft hk
    have hstep := step_eq_busyNext hr.port hi h.latches
    have hcycles := h.cyclesLeft hi
    obtain ⟨u, hrun, hu, hleft⟩ := ih (h.busyNext hi) (by omega) (hr.next hstep)
    exact ⟨u, (runFor_succ hstep).trans hrun, hu, by omega⟩

/-- In ADJUST of an empty frame the tick output is 0. -/
theorem EmptyFrame.tickMsOut (h : EmptyFrame a s) (ht : s.tickValid = true) : s.tickMsOut = 0 := by
  have hc := s.tickValid_iff.1 ht
  cases h.phase with
  | adjust cst late tickval trace dreg => exact tickval
  | _ cst => exact absurd (cst.symm.trans hc) nofun

/-- What an empty frame leaves. -/
theorem EmptyFrame.ended (h : EmptyFrame a s) (hc : s.cst = .idle) :
    s.trace = a.trace ++ [Event.irqOff, .tick 0, .irqOn, .mark] ∧ s.dstore = a.ditherAfter 0 := by
  cases h.phase with
  | idle cst trace dstore => exact ⟨trace, dstore⟩
  | _ cst => exact absurd (cst.symm.trans hc) nofun

/-- An empty frame follows the table, as the cycles left say. -/
theorem EmptyFrame.cst_eq_scheduledCst {l t : Nat} (h : EmptyFrame a s) (hnow : t < s.now)
    (hend : s.now + s.cyclesLeft = adjustAt a.cfg t l 0 + 2) : s.cst = scheduledCst a.cfg t l 0 s.now := by
  have hcst := Machine.cst_eq_scheduledCst (a := t) (l := l) h.phase.placed hnow
  rw [h.nleds, h.operands.cfg] at hcst
  exact hcst hend

end

/-! ## Acceptance -/

section

variable {s : State} {i : Instr}

/-- An accepted command with no pixel begins an empty frame. -/
theorem acceptNext_emptyFrame (hi : i.opcode.isFrame = true) (h0 : i.count = 0) (hw : i.wellFormed s.cfg = true) :
    EmptyFrame (acceptedState i s) (s.acceptNext i) := by
  obtain ⟨hcst, -, hn, -, -, -, -⟩ := acceptedState_of_isFrame s hi
  have hoperands := finishCycle_sameOperands (acceptedState i s) s.port.hostStore
  refine ⟨hoperands, (hoperands.nleds.trans hn).trans h0, hoperands.busyFault.trans (acceptedState_busyFault hi hw),
    finishCycle_pinOut _ _, fun hidle => ?_, EmptyPhase.finishCycle _ (.waitIdle hcst rfl rfl)⟩
  rw [State.acceptNext, finishCycle_cst, hcst] at hidle
  cases hidle

/-- The cycles left after the accepting one (R178). -/
theorem acceptNext_cyclesLeft_of_isFrame (hi : i.opcode.isFrame = true) :
    (s.acceptNext i).cyclesLeft + 1 = busyCycles s.cfg s.now s.lastmark i.count.toNat := by
  obtain ⟨hcst, -, hn, -, -, -, -⟩ := acceptedState_of_isFrame s hi
  obtain ⟨_, _, e⟩ := finishCycle_frame (acceptedState i s) s.port.hostStore
  have hend := add_busyCycles s.cfg s.now s.lastmark i.count.toNat
  rw [State.acceptNext, cyclesLeft_waitIdle (by rw [finishCycle_cst, hcst]), finishCycle_lastmark, finishCycle_cfg, finishCycle_now,
    acceptedState_lastmark, acceptedState_cfg, acceptedState_now, (finishCycle_sameByte _ _).nleds, hn]
  unfold adjustAt firstBit waitEnd at hend
  omega

/-- `D` is seeded from the accepted command's scale (R123, R173). -/
theorem acceptedState_ditherAfter_zero (hi : i.opcode.isFrame = true) :
    (acceptedState i s).ditherAfter 0 = seedAll s.dstore (maskAll (frameScale i.opcode i.scale)) := by
  cases i with
  | init => cases hi
  | showFrame base n sc => rfl
  | showColor color n sc => rfl
  | clear n => rfl

/-- A command with no pixel runs through any number of its cycles, and its frame follows the table. -/
theorem runFor_no_pixel {k : Nat} (hi : i.opcode.isFrame = true) (h0 : i.count = 0) (hw : i.wellFormed s.cfg = true)
    (hidle : s.cst = .idle) (hoffer : s.Offers i) (hr : s.Undisturbed (k + 1)) (hk : k + 1 ≤ busyCycles s.cfg s.now s.lastmark 0) :
    ∃ u, runFor (k + 1) s = .next u ∧ EmptyFrame (acceptedState i s) u ∧ u.now = s.now + (k + 1) ∧
      u.cst = scheduledCst s.cfg s.now s.lastmark 0 u.now := by
  have hstep : step s = .next (s.acceptNext i) := by
    rw [step_of_offer hr.port hidle hoffer, exec_next.2 ⟨hw, rfl⟩]
    rfl
  have hend := add_busyCycles s.cfg s.now s.lastmark 0
  have hcycles := acceptNext_cyclesLeft_of_isFrame (s := s) hi
  rw [h0, show (0 : BitVec 16).toNat = 0 from rfl] at hcycles
  obtain ⟨u, hu, hempty, hleft⟩ := runFor_emptyFrame k (acceptNext_emptyFrame hi h0 hw) (by omega) (hr.next hstep)
  rw [← runFor_succ hstep] at hu
  have hnow := runFor_now hr hu
  have hcst := hempty.cst_eq_scheduledCst (t := s.now) (l := s.lastmark) (by omega) (by rw [acceptedState_cfg]; omega)
  rw [acceptedState_cfg] at hcst
  exact ⟨u, hu, hempty, hnow, hcst⟩

end

/-- Settles O49: acceptance begins an empty frame, which every cycle carries on along the table (`runFor_no_pixel`); what it leaves is
`EmptyFrame.ended`. -/
theorem zeroPixelFrameStillWaitsAndMarks : Obligations.ZeroPixelFrameStillWaitsAndMarks := by
  intro s i hi h0 hw hidle hoffer hr
  obtain ⟨-, -, -, -, hpin, htrace, -⟩ := acceptedState_of_isFrame s hi
  have hend := add_busyCycles s.cfg s.now s.lastmark 0
  have hadjust : adjustAt s.cfg s.now s.lastmark 0 = waitEnd s.cfg s.now s.lastmark + s.cfg.setupLat + 1 := by
    rw [adjustAt, frameCycles_zero]
    rfl
  have hwait := lt_waitEnd s.cfg s.now s.lastmark
  refine ⟨?_, fun k hk => ?_⟩
  · obtain ⟨k, hk⟩ : ∃ k, busyCycles s.cfg s.now s.lastmark 0 = k + 1 := Nat.exists_eq_succ_of_ne_zero (by omega)
    obtain ⟨u, hu, hempty, hnow, htable⟩ := runFor_no_pixel hi h0 hw hidle hoffer (hk ▸ hr) hk.ge
    have hcst : u.cst = .idle := by
      rw [htable]
      by_contra hbusy
      have hbounds := scheduledCst_ne_idle_iff.1 hbusy
      omega
    obtain ⟨hutrace, hdstore⟩ := hempty.ended hcst
    have hmark := hempty.marked hcst
    exact ⟨u, hk ▸ hu, hcst, hempty.pin.trans hpin, htrace ▸ hutrace, hdstore.trans (acceptedState_ditherAfter_zero hi),
      by omega, by omega⟩
  · suffices hv : ∃ v, runFor k s = .next v ∧ v.now = s.now + k ∧ v.cst = scheduledCst s.cfg s.now s.lastmark 0 v.now ∧
        (v.tickValid = true → v.tickMsOut = 0) by
      obtain ⟨v, hv, hnow, hcst, htick⟩ := hv
      obtain ⟨-, hirq, -⟩ := outputs_of_scheduledCst hcst
      exact ⟨v, hv, hnow, hcst, hadjust ▸ hirq, htick⟩
    cases k with
    | zero => exact ⟨s, rfl, rfl, hidle.trans (if_pos le_rfl).symm, fun ht => absurd (s.tickValid_iff.1 ht) (by simp [hidle])⟩
    | succ k =>
      obtain ⟨v, hv, hempty, hnow, hcst⟩ := runFor_no_pixel hi h0 hw hidle hoffer (fun j hj => hr j (by omega)) hk
      exact ⟨v, hv, hnow, hcst, hempty.tickMsOut⟩

end Sys2Proof.Machine
end

