-- ==== Sys2Proof/Proofs/FrameEffect.lean ====
section
/-! PROOFS. The big step: what a frame command on time, whose host keeps the loan, leaves on the trace and in the state (spec/00_scope.md
R13; spec/42_bit_engine.md R145; spec/43_controller_commands.md R174 to R176, R179). -/

namespace Sys2Proof.Machine

/-! ## Events on the wire -/

theorem wireOnly_append (es fs : List Event) : wireOnly (es ++ fs) = (wireOnly es && wireOnly fs) := by
  induction es with
  | nil => rfl
  | cons e es ih =>
    cases e with
    | bit b => exact ih
    | read a => exact ih
    | irqOff => rfl
    | tick ms => rfl
    | irqOn => rfl
    | mark => rfl

/-- Reads alone: wire events without a bit. -/
structure ReadsOnly (es : List Event) : Prop where
  wire : wireOnly es = true
  bits : traceBits es = []

/-- The look-ahead's part of a cycle puts at most its read on the trace. -/
theorem prepCycle_trace (s : State) (p : PortIn) : ∃ es, ReadsOnly es ∧ (s.prepCycle p).trace = s.trace ++ es := by
  obtain ⟨-, -, e⟩ | ⟨a, -, e, -⟩ | ⟨_, _, -, e, -⟩ := prepCycle_cases s p <;> rw [e]
  · exact ⟨[], ⟨rfl, rfl⟩, (List.append_nil _).symm⟩
  · exact ⟨[.read a], ⟨rfl, rfl⟩, rfl⟩
  · exact ⟨[], ⟨rfl, rfl⟩, (List.append_nil _).symm⟩

/-- The event, other than a read, with which a cycle of SETUP or XMIT leads to `t`: a bit at its boundary, and the tick (R174, R175). -/
def State.lastEvents (t : State) : List Event :=
  match t.cst with
  | .idle => []
  | .waitIdle => []
  | .setup => []
  | .xmit => if t.wrap then [.bit (currentBit t)] else []
  | .adjust => [t.tickEvent]
  | .restore => []

theorem lastEvents_setup {t : State} (hc : t.cst = .setup) : t.lastEvents = [] := by rw [State.lastEvents, hc]

theorem lastEvents_xmit {t : State} (hc : t.cst = .xmit) : t.lastEvents = if t.wrap then [.bit (currentBit t)] else [] := by
  rw [State.lastEvents, hc]

theorem lastEvents_adjust {t : State} (hc : t.cst = .adjust) : t.lastEvents = [t.tickEvent] := by rw [State.lastEvents, hc]

/-- The issue and the micro-operations put the bit on the trace at its boundary (R146). -/
theorem issue_microOps_trace {x : State} (go : Bool) (hc : x.cst = .xmit) :
    (x.issue go).microOps.trace = x.trace ++ (x.issue go).microOps.lastEvents := by
  have hplace := issue_microOps_samePlace x go
  rw [lastEvents_xmit (hplace.cst.trans hc), microOps_wrap, microOps_currentBit, ← issue_trace x go]
  unfold State.microOps waitbDone
  split_ifs with hwrap
  · rfl
  · exact (List.append_nil _).symm
  · exact (List.append_nil _).symm
  · exact (List.append_nil _).symm

section

variable {goLat memLat : Nat} {s : State}

theorem setupCycle_trace (h : s.OnTime goLat memLat) (hc : s.cst = .setup) : ∃ es, ReadsOnly es ∧
    (s.setupCycle (s.portAt 0)).trace = s.trace ++ es ++ (s.setupCycle (s.portAt 0)).lastEvents := by
  obtain ⟨es, hes, htrace⟩ := prepCycle_trace s.seedFirst (s.portAt 0)
  obtain ⟨_, _, _, _, _, _, e⟩ := seedFirst_frame s
  have hseed : s.seedFirst.trace = s.trace := by rw [e]
  have hcst := (setup_place h.inv hc (s.portAt 0)).cst.trans hc
  rw [hseed] at htrace
  refine ⟨es, hes, ?_⟩
  rw [← htrace]
  obtain ⟨-, e⟩ | ⟨-, -, hready, e⟩ | ⟨-, -, e⟩ := h.setupCycle_cases hc <;> rw [e] <;>
    generalize s.seedFirst.prepCycle (s.portAt 0) = q at *
  · rw [lastEvents_setup ((issue_samePlace q.spendSetup _).cst.trans hcst), issue_trace]
    exact (List.append_nil _).symm
  · obtain ⟨_, e⟩ := q.enterXmit_frame
    rw [issue_microOps_trace _ (by rw [e]), e]
  · rfl

theorem xmitCycle_trace (h : s.OnTime goLat memLat) (hc : s.cst = .xmit) : ∃ es, ReadsOnly es ∧
    (s.xmitCycle (s.portAt 0)).trace = s.trace ++ es ++ (s.xmitCycle (s.portAt 0)).lastEvents := by
  obtain ⟨es, hes, htrace⟩ := prepCycle_trace s (s.portAt 0)
  have hcst := (prepCycle_samePlace s (s.portAt 0)).cst.trans hc
  obtain ⟨-, e⟩ | ⟨-, -, e⟩ | ⟨hcnt, -, hnext, hready, e⟩ | ⟨-, -, -, e⟩ := h.xmitCycle_cases hc (s.portAt 0) <;> rw [e]
  · exact ⟨es, hes, by rw [issue_microOps_trace _ (by exact hcst), ← htrace]; rfl⟩
  · exact ⟨es, hes, by rw [issue_microOps_trace _ (by exact hcst), ← htrace]; rfl⟩
  · obtain ⟨hstart, -⟩ := nextByte_byteStart hc hcnt hnext hready
    exact ⟨[], ⟨rfl, rfl⟩, by rw [issue_microOps_trace _ hstart.cst, hstart.trace, List.append_nil]⟩
  · exact ⟨[], ⟨rfl, rfl⟩, by rw [List.append_nil]; rfl⟩

theorem finishCycle_lastEvents (t : State) (st : Option (Addr × Byte)) : (finishCycle t st).lastEvents = t.lastEvents := by
  obtain ⟨_, _, e⟩ := finishCycle_frame t st
  rw [e]
  rfl

theorem busyNext_wire_trace (h : s.OnTime goLat memLat) (hc : s.cst = .setup ∨ s.cst = .xmit) :
    ∃ es, ReadsOnly es ∧ s.busyNext.trace = s.trace ++ es ++ s.busyNext.lastEvents := by
  rw [State.busyNext, finishCycle_trace, finishCycle_lastEvents, s.port_eq_portAt_zero]
  obtain hc | hc := hc
  · rw [sequencerCycle_of_setup _ hc]
    exact setupCycle_trace h hc
  · rw [sequencerCycle_of_xmit _ hc]
    exact xmitCycle_trace h hc

/-! ## The bits of a frame -/

/-- The bit stream of the frame that `a` has the operands and the memory of. -/
def State.stream (a : State) : List Bool := (frameBits a.cfg a.mem a.op a.nleds.toNat a.scale a.base a.color a.dstore).1

/-- The events of the frame that are no wire events and follow them, phase by phase (R179). -/
def State.closing (s : State) : List Event :=
  match s.cst with
  | .waitIdle => []
  | .setup => []
  | .xmit => []
  | .adjust => [s.tickEvent]
  | .restore => [s.tickEvent, .irqOn]
  | .idle => [s.tickEvent, .irqOn, .mark]

/-- After the events `T` the trace has irq_off, wire events whose bits are the first of the frame of `a`, and the closing events so far. -/
structure WiredBy (T : List Event) (s a : State) (wire : List Event) : Prop where
  trace : s.trace = T ++ [.irqOff] ++ wire ++ s.closing
  events : wireOnly wire = true
  bits : traceBits wire <+: a.stream

/-- From SETUP on the frame's events are on the trace. -/
def State.Wired (T : List Event) (s a : State) : Prop := s.cst ≠ .waitIdle → ∃ wire, WiredBy T s a wire

variable {a : State} {T : List Event}

/-- The bit that goes out is the frame's at that place: the byte on the wire is the frame level's. -/
theorem currentBit_eq_stream (hinv : s.Inv) (hc : s.cst = .xmit) (hs : s.Serves T a) :
    a.stream[8 * s.byteIx + (7 - s.biti.toNat)]? = some (currentBit s) := by
  have hpix := hinv.position.1 hc
  have hslot := s.slot.isLt
  have hbiti := s.biti.isLt
  have hinside : s.byteIx < 3 * a.nleds.toNat := by
    rw [← hs.operands.nleds]
    unfold State.byteIx
    omega
  obtain ⟨hcurb, -⟩ := (bytesOk_xmit hc).1 hs.bytes
  have hbit := frameBits_getD a (m := 8 * s.byteIx + (7 - s.biti.toNat)) (n := a.nleds.toNat) (by omega)
  rw [show (8 * s.byteIx + (7 - s.biti.toNat)) / 8 = s.byteIx by omega,
    show 7 - (8 * s.byteIx + (7 - s.biti.toNat)) % 8 = s.biti.toNat by omega, ← hcurb] at hbit
  have hlength := frameBits_length a.cfg a.mem a.op a.nleds.toNat a.scale a.base a.color a.dstore
  rw [State.stream, List.getElem?_eq_getElem (by omega), ← List.getD_eq_getElem _ false (by omega), hbit]
  rfl

theorem prefix_concat_of_getElem? {l stream : List Bool} {b : Bool} (h : l <+: stream) (hb : stream[l.length]? = some b) :
    l ++ [b] <+: stream := by
  rw [List.prefix_iff_eq_take] at h ⊢
  rw [List.length_append, List.length_singleton, List.take_add_one, hb, ← h]
  rfl

/-- In XMIT so many bits are out as the place in the frame says. -/
theorem bits_length_of_traceOk {wire : List Event} (hc : s.cst = .xmit) (ht : s.TraceOk T) (htrace : s.trace = T ++ [.irqOff] ++ wire) :
    (traceBits wire).length = 8 * s.byteIx + (8 - s.biti.toNat) := by
  obtain ⟨-, wire', hwire', hlog⟩ := (traceOk_xmit hc).1 ht
  rw [List.append_cancel_left (htrace.symm.trans hwire')]
  exact hlog.bits

theorem closing_xmit (hc : s.cst = .xmit) : s.closing = [] := by rw [State.closing, hc]

theorem closing_setup (hc : s.cst = .setup) : s.closing = [] := by rw [State.closing, hc]

theorem closing_adjust (hc : s.cst = .adjust) : s.closing = [s.tickEvent] := by rw [State.closing, hc]

theorem closing_restore (hc : s.cst = .restore) : s.closing = [s.tickEvent, .irqOn] := by rw [State.closing, hc]

theorem closing_idle (hc : s.cst = .idle) : s.closing = [s.tickEvent, .irqOn, .mark] := by rw [State.closing, hc]

/-- Reads alone add no bit. -/
theorem WiredBy.reads {t : State} {wire es : List Event} (h : WiredBy T s a wire) (hes : ReadsOnly es) (hclosing : s.closing = [])
    (htrace : t.trace = s.trace ++ es ++ t.closing) : WiredBy T t a (wire ++ es) where
  trace := by rw [htrace, h.trace, hclosing]; simp
  events := by rw [wireOnly_append, h.events, hes.wire]; rfl
  bits := by rw [traceBits_append, hes.bits, List.append_nil]; exact h.bits

/-- A cycle of SETUP or XMIT. -/
theorem wire_busyNext_wiredBy {wire : List Event} (h : s.OnTime goLat memLat) (hc : s.cst = .setup ∨ s.cst = .xmit)
    (hw : WiredBy T s a wire) (hinv : s.busyNext.Inv) (hs : s.busyNext.Serves T a) : ∃ wire, WiredBy T s.busyNext a wire := by
  obtain ⟨es, hes, htrace⟩ := busyNext_wire_trace h hc
  have hclosing : s.closing = [] := hc.elim closing_setup closing_xmit
  have hsucc : s.busyNext.cst = .setup ∨ s.busyNext.cst = .xmit ∨ s.busyNext.cst = .adjust := by
    rw [State.busyNext, finishCycle_cst]
    obtain hc | hc := hc
    · rw [sequencerCycle_of_setup _ hc]
      exact setupCycle_cst _ hc
    · rw [sequencerCycle_of_xmit _ hc]
      exact .inr (xmitCycle_cst _ hc)
  generalize s.busyNext = t at *
  obtain ht | ht | ht := hsucc
  · rw [lastEvents_setup ht, ← closing_setup ht] at htrace
    exact ⟨_, hw.reads hes hclosing htrace⟩
  · rw [lastEvents_xmit ht] at htrace
    cases hwrap : t.wrap with
    | false =>
      rw [hwrap, if_neg nofun, ← closing_xmit ht] at htrace
      exact ⟨_, hw.reads hes hclosing htrace⟩
    | true =>
      rw [hwrap, if_pos rfl, hw.trace, hclosing, List.append_nil, List.append_assoc, List.append_assoc] at htrace
      have hlength := bits_length_of_traceOk ht hs.trace htrace
      have hbit := currentBit_eq_stream hinv ht hs
      simp only [traceBits_append, hes.bits, List.nil_append, List.length_append] at hlength
      refine ⟨wire ++ (es ++ [.bit (currentBit t)]), by rw [htrace, closing_xmit ht, List.append_nil], ?_, ?_⟩
      · rw [wireOnly_append, wireOnly_append, hw.events, hes.wire]
        rfl
      · rw [traceBits_append, traceBits_append, hes.bits]
        refine prefix_concat_of_getElem? hw.bits ?_
        rw [← hbit]
        congr 1
        change _ + 1 = _ at hlength
        have := t.biti.isLt
        omega
  · rw [lastEvents_adjust ht, ← closing_adjust ht] at htrace
    exact ⟨_, hw.reads hes hclosing htrace⟩

/-- A cycle that adds the next of the closing events. -/
theorem WiredBy.close {t : State} {wire : List Event} {e : Event} (h : WiredBy T s a wire) (htrace : t.trace = s.trace ++ [e])
    (hclosing : t.closing = s.closing ++ [e]) : WiredBy T t a wire where
  trace := by rw [htrace, h.trace, hclosing, List.append_assoc _ s.closing]
  events := h.events
  bits := h.bits

theorem tickEvent_congr {t : State} (h : SameCommand s t) : t.tickEvent = s.tickEvent := by
  rw [State.tickEvent, State.tickEvent, h.cfg, h.nleds]

/-- SETUP begins with irq_off on the trace (R173). -/
theorem busyNext_wired_of_waitIdle (hc : s.cst = .waitIdle) (ht : s.TraceOk T) : s.busyNext.Wired T a := by
  intro hne
  have hseq : s.busyNext = finishCycle (s.waitIdleCycle s.port) s.port.hostStore := by rw [State.busyNext, sequencerCycle_of_waitIdle _ hc]
  rw [hseq, finishCycle_cst] at hne
  have helapsed : s.lastmark + s.cfg.wait ≤ s.now := by
    by_contra he
    rw [waitIdleCycle_of_not_elapsed _ he] at hne
    exact hne hc
  obtain ⟨_, e⟩ := s.enterSetup_frame s.port.go
  have hcst : s.busyNext.cst = .setup := by rw [hseq, finishCycle_cst, waitIdleCycle_of_elapsed _ helapsed, e]
  refine ⟨[], ?_, rfl, List.nil_prefix⟩
  rw [closing_setup hcst, hseq, finishCycle_trace, waitIdleCycle_of_elapsed _ helapsed, e, ← (traceOk_waitIdle hc).1 ht]
  simp

/-- Every cycle of a frame on time carries its events on. -/
theorem busyNext_wired (h : s.InFrame goLat memLat) (hi : s.cst ≠ .idle) (hs : s.Serves T a) (hw : s.Wired T a) :
    s.busyNext.Wired T a := by
  obtain hwaits | ⟨hontime, hnot⟩ := h
  · exact busyNext_wired_of_waitIdle hwaits.cst hs.trace
  have hcommand := busyNext_sameCommand s
  obtain ⟨wire, hwire⟩ := hw hnot
  have hphase : ∀ _ : s.cst = .setup ∨ s.cst = .xmit, ∃ wire, WiredBy T s.busyNext a wire := fun hc =>
    wire_busyNext_wiredBy hontime hc hwire (inv_finish _ (sequencerCycle_inv _ hontime.inv (hontime.inv.latches hi)))
      (busyNext_serves (.inr ⟨hontime, hnot⟩) hi hs)
  intro _
  cases hc : s.cst with
  | idle => exact absurd hc hi
  | waitIdle => exact absurd hc hnot
  | setup => exact hphase (.inl hc)
  | xmit => exact hphase (.inr hc)
  | adjust =>
    obtain ⟨hcst, -, -, htrace⟩ := busyNext_of_adjust hc hontime.inTime.late
    exact ⟨wire, hwire.close htrace (by rw [closing_restore hcst, closing_adjust hc, tickEvent_congr hcommand]; rfl)⟩
  | restore =>
    obtain ⟨hcst, -, -, htrace⟩ := busyNext_of_restore hc
    exact ⟨wire, hwire.close htrace (by rw [closing_idle hcst, closing_restore hc, tickEvent_congr hcommand]; rfl)⟩

end

/-! ## What else the frame leaves -/

/-- Without a store of the host memory stays as it is (20_memory.md R64). -/
theorem runFor_mem_of_no_store {k : Nat} {s u : State} (hrun : runFor k s = .next u)
    (hst : ∀ j < k, (s.portAt j).hostStore = none) : u.mem = s.mem := by
  induction k generalizing s with
  | zero => cases hrun; rfl
  | succ k ih =>
    obtain ⟨t, hstep, hrest⟩ := runFor_succ_next hrun
    have hnow := hst 0 k.succ_pos
    rw [← s.port_eq_portAt_zero] at hnow
    rw [ih hrest fun j hj => by rw [portAt_of_ports_tail (step_ports hstep)]; exact hst (j + 1) (by omega), step_mem hstep, hnow]
    rfl

/-- All that the big step follows through the frame of the command `i` accepted in `s`. -/
structure Follows (s : State) (i : Instr) (t : State) : Prop where
  serves : t.Serves s.trace (acceptedState i s)
  wired : t.Wired s.trace (acceptedState i s)
  marked : t.MarkedIfIdle
  pinOe : t.pinOe = s.pinOe

theorem acceptNext_follows {s : State} {i : Instr} (h : s.StartsFrame i)
    (hloan : s.KeepsLoan i (busyCycles s.cfg s.now s.lastmark i.count.toNat)) : Follows s i (s.acceptNext i) := by
  obtain ⟨hcst, -⟩ := acceptNext_latches h
  refine ⟨acceptNext_serves h hloan, fun hne => absurd hcst hne, fun hidle => absurd (hcst.symm.trans hidle) nofun, ?_⟩
  rw [State.acceptNext, finishCycle_pinOe, acceptedState_pinOe, if_neg]
  rintro rfl
  exact absurd h.frame nofun

theorem busyNext_follows {goLat memLat : Nat} {s : State} {i : Instr} {t : State} (h : t.InFrame goLat memLat) (hi : t.cst ≠ .idle)
    (hf : Follows s i t) : Follows s i t.busyNext :=
  ⟨busyNext_serves h hi hf.serves, busyNext_wired h hi hf.serves hf.wired, busyNext_markedIfIdle hi,
    (busyNext_pinOe t).trans hf.pinOe⟩

/-- Settles O45: every cycle from acceptance on carries the frame's bytes and its events on (`busyNext_follows`); when `BUSY` has fallen
all its bits are out, so that what is on the trace is the whole of the stream. -/
theorem frameCommandHasItsFrameEffect : Obligations.FrameCommandHasItsFrameEffect := by
  intro s i h hloan
  obtain ⟨-, hcfg, -, hn, -, -⟩ := acceptNext_latches h
  have hcycles := acceptNext_cyclesLeft h
  have hend := add_busyCycles s.cfg s.now s.lastmark i.count.toNat
  have hcount : (acceptedState i s).nleds = i.count := (acceptedState_of_isFrame s h.frame).2.2.1
  obtain ⟨u, hrun, ⟨goLat, memLat, hu⟩, hleft, hcommand, hf⟩ := runFor_startsFrame (P := Follows s i) h (acceptNext_follows h hloan)
    (fun _ _ _ => busyNext_follows) (k := (s.acceptNext i).cyclesLeft) hcycles.le
  rw [hcycles] at hrun
  have hidle : u.cst = .idle := hu.idle_of_cyclesLeft (by omega)
  have hontime : u.OnTime goLat memLat := (hu.resolve_left fun hw => absurd (hw.cst.symm.trans hidle) nofun).1
  have hnow := runFor_now h.noReset hrun
  have hmark := hf.marked hidle
  obtain ⟨wire, hwire⟩ := hf.wired (by simp [hidle])
  have htrace := hwire.trace
  rw [closing_idle hidle, State.tickEvent, hcommand.cfg, hcommand.nleds, hcfg, hn] at htrace
  have hframe := commandFrame_eq_frameBits s h.frame
  have hbits : traceBits wire = (commandFrame s.cfg s.mem s.dstore i).1 := by
    obtain ⟨wire', htrace', hlog⟩ := (traceOk_idle hidle).1 hf.serves.trace
    have hsame : wire = wire' := by
      have := hwire.trace
      rw [closing_idle hidle] at this
      exact List.append_cancel_left (List.append_cancel_right (this.symm.trans htrace'))
    rw [hframe]
    refine hwire.bits.eq_of_length ?_
    rw [hsame, hlog.bits, State.stream, frameBits_length, hcommand.nleds, hn, hcount]
  refine ⟨acceptedState i s, u, wire, exec_next.2 ⟨h.admitted, rfl⟩, hrun, hidle, hontime.inTime.late, ?_, hnow.trans hend,
    by omega, hontime.inv.pin.2 (by simp [hidle]), hf.pinOe, hcommand.cfg.trans hcfg, fun a ha => ?_, runFor_mem_of_no_store hrun,
    htrace, hwire.events, hbits⟩
  · rw [(bytesOk_idle hidle).1 hf.serves.bytes, hframe, frameBits_eq_sentBytes]
  · rw [hf.serves.loan.read a ((lent_acceptedState h.frame a).2 ha), acceptedState_mem]

end Sys2Proof.Machine
end

