-- ==== Sys2Proof/Proofs/Exceptions.lean ====
section
/-! PROOFS. What makes a step fault, and that nothing does under the invariant (spec/60_exceptions.md R210; spec/30_encoding.md R86). -/

namespace Sys2Proof.Machine

/-- An acceptance never faults: it answers what `exec` answers, which goes on or refuses by name (`exec_no_fault`). -/
theorem finishAccept_exec_no_fault (store : Option (Addr × Byte)) (i : Instr) (s : State) (f : Fault) :
    finishAccept store (exec i s) ≠ .fault f := by
  cases he : exec i s with
  | next t => exact nofun
  | fault g => exact absurd he (exec_no_fault i s g)
  | refused r => exact nofun

/-- A step of a busy block whose latches no accepted command can have left (log 9). -/
theorem step_of_busyFault {s : State} {f : Fault} (hr : s.port.rst = false) (hi : s.cst ≠ .idle) (hf : s.busyFault = some f) :
    step s = .fault f := by
  unfold step
  simp [hr, hi, hf]

/-- The only source of a fault: a busy block, without a reset, with such latches. -/
theorem step_eq_fault_iff {s : State} {f : Fault} :
    step s = .fault f ↔ s.port.rst = false ∧ s.cst ≠ .idle ∧ s.busyFault = some f := by
  constructor
  · intro h
    cases hr : s.port.rst with
    | true => rw [step_of_rst hr] at h; cases h
    | false =>
      by_cases hi : s.cst = .idle
      · cases hv : s.port.cmdValid with
        | false => rw [step_of_idle hr hi hv] at h; cases h
        | true =>
          cases hd : decode s.port.cmdWord with
          | error why => rw [step_of_refused_word hr hi hv hd] at h; cases h
          | ok i =>
            rw [step_of_offer hr hi ⟨hv, hd⟩] at h
            exact absurd h (finishAccept_exec_no_fault _ i s f)
      · cases hf : s.busyFault with
        | none => rw [step_of_busy hr hi hf] at h; cases h
        | some g =>
          rw [step_of_busyFault hr hi hf] at h
          cases h
          exact ⟨rfl, hi, rfl⟩
  · rintro ⟨hr, hi, hf⟩
    exact step_of_busyFault hr hi hf

/-- A busy block whose latches an accepted command can have left goes on, under a reset or not. -/
theorem step_goes_on_of_busy {s : State} (hi : s.cst ≠ .idle) (hf : s.busyFault = none) : ∃ t, step s = .next t := by
  cases hr : s.port.rst with
  | true => exact ⟨_, step_of_rst hr⟩
  | false => exact ⟨_, step_of_busy hr hi hf⟩

/-- An idle block that is offered no command goes on, in any state. -/
theorem step_goes_on_of_unoffered {s : State} (hi : s.cst = .idle) (hv : s.port.cmdValid = false) : ∃ t, step s = .next t := by
  cases hr : s.port.rst with
  | true => exact ⟨_, step_of_rst hr⟩
  | false => exact ⟨_, step_of_idle hr hi hv⟩

/-- Settles O54: a fault needs a busy block with latches that the invariant's `LatchesOk` excludes (`step_eq_fault_iff`). -/
theorem noStepFaults : Obligations.NoStepFaults := by
  intro s h
  refine ⟨fun f hfault => ?_, fun hi => step_goes_on_of_busy hi (h.latches hi), step_goes_on_of_unoffered⟩
  obtain ⟨-, hi, hf⟩ := step_eq_fault_iff.1 hfault
  rw [h.latches hi] at hf
  cases hf

end Sys2Proof.Machine
end

