-- ==== Sys2Proof/Proofs/Reset.lean ====
section
/-! PROOFS. A cycle with `RST = 1`: what it makes of the block and what it leaves alone (spec/70_reset_and_hazards.md R240, R242). -/

namespace Sys2Proof.Machine

/-- A cycle with RST always answers, in any state: the reset state of the same configuration, around what is outside the block. -/
theorem step_eq_resetWith {s : State} (h : s.port.rst = true) :
    step s = .next (State.resetWith s.cfg (s.hostStores s.port.hostStore).mem s.ports.tail s.trace s.freeIx) := by
  rw [step_of_rst h, resetCycle_eq]

/-- Settles O11: the next state is a reset state (`step_eq_resetWith`), and a reset state has the values of R39 (`stateAfterReset`). -/
theorem resetOverridesEverything : Obligations.ResetOverridesEverything := by
  intro s h
  obtain ⟨hdstore, hcst, hnow, hlastmark, hpinOe, hpinOut, hirq, hbusy, hready, hreq, htick, -⟩ :=
    stateAfterReset.1 s.cfg (s.hostStores s.port.hostStore).mem s.ports.tail s.trace s.freeIx
  exact ⟨_, step_eq_resetWith h, hdstore, hcst, hnow, hlastmark, hpinOe, hpinOut, hirq, hbusy, hready, hreq, htick⟩

/-- Settles O57: the reset state of `step_eq_resetWith` is built around the old configuration, coming inputs, free-value number and
trace, and around the memory with the host's store. -/
theorem resetLeavesTheOutsideAlone : Obligations.ResetLeavesTheOutsideAlone :=
  fun _ h => ⟨_, step_eq_resetWith h, rfl, rfl, rfl, rfl, rfl⟩

end Sys2Proof.Machine
end
